-- ==== Sys2Proof/Word.lean ====
section
/-! DEFINITION. The word types of the PIA core: bytes, 16-bit bus words, the six stored control bits.
The spec's bit numbering is R9 of spec/00_scope.md: bit 0 is the least significant bit. -/

namespace Sys2Proof

/-- A byte, bits 7 down to 0 (00 R9). -/
abbrev Byte := BitVec 8

/-- A word of the 16-bit bus: low byte bits 7:0, high byte bits 15:8 (00 R9, 20 R68). -/
abbrev Word16 := BitVec 16

/-- The six stored bits of a control register (10 R24). -/
abbrev Ctl := BitVec 6

end Sys2Proof
end

