-- ==== Sys2Proof/Config.lean ====
section
/-! DEFINITION. What an implementation fixes, and the free values: the parameters of 00 R8.
The parameters that a system chooses (N_CHIPS, N_CPUS, AUTOSENSE_ZERO, ROUTE) stand in State as plain data, so that a
statement about every state is a statement about every choice; this file holds their values at reset and the free
values, which nothing in Lean can evaluate. -/

namespace Sys2Proof

/-- AUTOSENSE_ZERO (00 R8, 20 R66, D19): what an autosense 16-bit write of `0x0000` does. The spec leaves it open. -/
inductive AutosenseZero where
  /-- the write is performed, as a write of `0x00` (the spec's default) -/
  | writeZero
  /-- the write is dropped -/
  | drop
deriving DecidableEq, Repr

/-- ENV (00 R8, 46 R191, 93 U2): the answer of the environment to the n-th free draw. A free value (log 10). -/
opaque Config.envByte : Nat → Byte

/-- OPEN_BUS (00 R8, 20 R63, 93 U1): the byte a bus master sees when it reads a chip that does not exist. A free value (log 11). -/
opaque Config.openBus : Nat → Byte

/-- OPEN_BUS on a 16-bit bus: the word a bus master sees when it reads a chip that does not exist. A free value (log 11). -/
opaque Config.openBusWord : Nat → Word16

/-- N_CHIPS at reset: "8 by default" (00 R8, 10 R20, D2). DESIGN CHOICE (log 6), unsafe for runs from reset only. -/
def Config.resetChips : Nat := 8

/-- N_CPUS at reset: the spec leaves it open, "at least 3" for its example (00 R8, D40). DESIGN CHOICE (log 7), unsafe for
runs from reset only. -/
def Config.resetCpus : Nat := 3

/-- AUTOSENSE_ZERO at reset: the spec's default (00 R8, D19). DESIGN CHOICE (log 8), unsafe for runs from reset only. -/
def Config.resetAutosenseZero : AutosenseZero := .writeZero

end Sys2Proof
end

