-- ==== Sys2Proof/Syntax.lean ====
section
/-! DEFINITION. The operations of the PIA core as data: one constructor of `Instr` per row of spec/opcode_table.json
(formats of 30 R80, codes of 30 R85), and the types of their operands. The block executes no instruction words: what it has
instead are the operations an agent can apply to it (00 R3). -/

namespace Sys2Proof

/-- The two ports of a chip (00 R10). -/
inductive PortId where
  | a
  | b
deriving DecidableEq, Repr

/-- The four control lines of a chip (30 R80: 0 CA1, 1 CA2, 2 CB1, 3 CB2). -/
inductive Line where
  | ca1
  | ca2
  | cb1
  | cb2
deriving DecidableEq, Repr

/-- The two interrupt inputs of a virtual CPU (00 R8 KINDS; 30 R80: 0 Maskable, 1 Fast). -/
inductive Kind where
  | maskable
  | fast
deriving DecidableEq, Repr

/-- `addressing.ordering` (10 R33). -/
inductive SlotOrdering where
  | standard
  | alternate
deriving DecidableEq, Repr

/-- `addressing.bus` (10 R33). -/
inductive BusMode where
  | b8
  | b16Lower
  | b16Upper
  | b16Auto
deriving DecidableEq, Repr

/-- `addressing` of a chip slot: a record of two fields (10 R33, D5). -/
structure Addressing where
  ordering : SlotOrdering
  bus : BusMode
deriving DecidableEq, Repr

/-- The six bindings of one port: an input entry is absent or `source(s)`, an output entry absent or `sink(k)`, `s` and `k`
natural numbers (10 R32, 46 R190). -/
structure PortBindings where
  /-- `in_P`: the source of the port's input byte -/
  inPort : Option Nat
  /-- `in_cP1`: the source of line CP1 -/
  inC1 : Option Nat
  /-- `in_cP2`: the source of line CP2 -/
  inC2 : Option Nat
  /-- `out_P`: the sink of the port's output byte -/
  outPort : Option Nat
  /-- `out_cP2`: the sink of the C2 output -/
  outC2 : Option Nat
  /-- `irq_P`: the sink of the interrupt line -/
  irq : Option Nat
deriving DecidableEq, Repr

/-- `interface` of a chip slot: the twelve-entry record of 10 R32, six entries a port. -/
structure Interface where
  a : PortBindings
  b : PortBindings
deriving DecidableEq, Repr

/-- The operations (30 R85). `c` and `i` are integers, an index outside the array being an operand like any other (20 R63,
44 R177; log 5); `off`, `delay`, `deadline`, `dt` are natural numbers; `id` is any integer (43 R161). The select bit of a
family-0 code is state and no operand (30 R81); bit 0 of a control access's code is ignored. -/
inductive Instr where
  -- family 0: bus access, 8-bit
  | rdDdrA (c : Int) (off : Nat)
  | rdDataA (c : Int) (off : Nat)
  | rdCtlA (c : Int) (off : Nat)
  | rdDdrB (c : Int) (off : Nat)
  | rdDataB (c : Int) (off : Nat)
  | rdCtlB (c : Int) (off : Nat)
  | wrDdrA (c : Int) (off : Nat) (data : Byte)
  | wrDataA (c : Int) (off : Nat) (data : Byte)
  | wrCtlA (c : Int) (off : Nat) (data : Byte)
  | wrDdrB (c : Int) (off : Nat) (data : Byte)
  | wrDataB (c : Int) (off : Nat) (data : Byte)
  | wrCtlB (c : Int) (off : Nat) (data : Byte)
  -- family 1: bus access, 16-bit
  | rd16L (c : Int) (off : Nat)
  | rd16U (c : Int) (off : Nat)
  | rd16A (c : Int) (off : Nat)
  | wr16L (c : Int) (off : Nat) (data : Word16)
  | wr16U (c : Int) (off : Nat) (data : Word16)
  | wr16A (c : Int) (off : Nat) (data : Word16)
  -- family 2: control-line sample
  | lineCa1 (c : Int) (level : Bool)
  | lineCa2 (c : Int) (level : Bool)
  | lineCb1 (c : Int) (level : Bool)
  | lineCb2 (c : Int) (level : Bool)
  -- family 3: scheduler
  | sched (id : Int) (delay : Nat)
  | fire (id : Int)
  | yieldOn (i : Int) (id : Int)
  | yieldT (i : Int) (deadline : Nat)
  | adv (dt : Nat)
  | expire (id : Int)
  | wake (i : Int)
  -- family 4: CPU interrupt adapter
  | assertLine (i : Int) (kind : Kind)
  | clearLine (i : Int) (kind : Kind)
  | pulse (i : Int) (kind : Kind)
  | take (i : Int) (kind : Kind)
  -- family 5: lifecycle
  | configure (c : Int) (addressing : Addressing) (intf : Interface)
  | resetAll
  | unconfigureAll
deriving DecidableEq, Repr

/-- Who presents an operation: the prefix of 30 R88, no part of the operation (00 R4). -/
inductive Agent where
  /-- virtual CPU `i`: presents operations only while it runs (43 R155) -/
  | cpu (i : Int)
  | environment
  | clock
  | host
deriving DecidableEq, Repr

/-- Why bytes name no operation (30 R86: "a decoder of that byte returns "invalid" for them"; the rest is log 23). -/
inductive DecodeError where
  /-- there is no operation code -/
  | noCode
  /-- the operation code is one of those 30 R86 lists as naming no operation -/
  | invalidCode (op : Byte)
  /-- the bytes end before the operation's last operand -/
  | truncated
  /-- the `addressing` operand is no code of 30 R83 (3 bits) -/
  | invalidAddressing (code : Byte)
deriving DecidableEq, Repr

end Sys2Proof
end

