-- ==== Sys2Proof/WellFormed.lean ====
section
/-! DEFINITION. The checks an operation's operands must meet beyond their types. `c`, `off`, `id`, `i` and every data byte are
unrestricted (30 R86); two operands are not. -/

namespace Sys2Proof

/-- The sinks of a port that carry a byte (10 R32). -/
def PortBindings.byteSinks (p : PortBindings) : List Nat := p.outPort.toList

/-- The sinks of a port that carry a boolean (10 R32). -/
def PortBindings.levelSinks (p : PortBindings) : List Nat := p.outC2.toList ++ p.irq.toList

/-- "a well-formed configuration uses each `k` with one value type" (46 R190), within one record. The machine runs an
ill-formed record too: "Nothing forbids using one `k` for bindings of different kinds" (log 25). -/
def Interface.wf (f : Interface) : Bool :=
  (f.a.byteSinks ++ f.b.byteSinks).all fun k => !(f.a.levelSinks ++ f.b.levelSinks).contains k

/-- `dt >= 1` for ADV (43 R156), one value type per sink for CONFIGURE (46 R190); every other operation is well formed. -/
def Instr.wf : Instr → Bool
  | .adv dt => 1 ≤ dt
  | .configure _ _ f => f.wf
  | .rdDdrA .. | .rdDataA .. | .rdCtlA .. | .rdDdrB .. | .rdDataB .. | .rdCtlB .. => true
  | .wrDdrA .. | .wrDataA .. | .wrCtlA .. | .wrDdrB .. | .wrDataB .. | .wrCtlB .. => true
  | .rd16L .. | .rd16U .. | .rd16A .. | .wr16L .. | .wr16U .. | .wr16A .. => true
  | .lineCa1 .. | .lineCa2 .. | .lineCb1 .. | .lineCb2 .. => true
  | .sched .. | .fire .. | .yieldOn .. | .yieldT .. | .expire .. | .wake .. => true
  | .assertLine .. | .clearLine .. | .pulse .. | .take .. => true
  | .resetAll | .unconfigureAll => true

end Sys2Proof
end

