-- ==== Sys2Proof/Decode.lean ====
section
/-! DEFINITION. Decoding and encoding of operations: the operation codes of 30 R85, and operand bytes. The spec gives the
operands no binary form ("numbers of unbounded size, not bit fields", 30 R80; "It has no bit encoding", 30 R84): theirs is
the model's own (DESIGN CHOICE, log 2), one fixed form per operand type, in the order of 30 R80 and R88. -/

namespace Sys2Proof

/-! ### Operand bytes (log 2) -/

/-- What a decoder of one operand answers: the value and the bytes after it, or nothing when the bytes end too soon. -/
abbrev Reader (α : Type) := List Byte → Option (α × List Byte)

/-- A natural number: seven bits a byte, least significant group first, bit 7 set on every byte but the last. -/
def readNat : Reader Nat
  | [] => none
  | b :: rest =>
    if b.toNat < 128 then some (b.toNat, rest)
    else
      match readNat rest with
      | none => none
      | some (n, rest') => some (b.toNat - 128 + 128 * n, rest')

/-- The bytes of a natural number; `fuel` bounds the number of bytes. -/
def natBytes : (fuel : Nat) → Nat → List Byte
  | 0, n => [BitVec.ofNat 8 n]
  | fuel + 1, n =>
    if n < 128 then [BitVec.ofNat 8 n] else BitVec.ofNat 8 (128 + n % 128) :: natBytes fuel (n / 128)

/-- The bytes of a natural number (`n` is fuel enough). -/
def writeNat (n : Nat) : List Byte := natBytes n n

/-- An integer as a natural number: even numbers stand for 0, 1, 2, …, odd ones for -1, -2, …. -/
def intOfNat (n : Nat) : Int := if n % 2 = 0 then .ofNat (n / 2) else .negSucc (n / 2)

/-- The natural number that stands for an integer. -/
def natOfInt : Int → Nat
  | .ofNat n => 2 * n
  | .negSucc n => 2 * n + 1

def readInt : Reader Int := fun bs =>
  match readNat bs with
  | none => none
  | some (n, rest) => some (intOfNat n, rest)

def writeInt (z : Int) : List Byte := writeNat (natOfInt z)

def readByte : Reader Byte
  | [] => none
  | b :: rest => some (b, rest)

/-- A 16-bit data operand: its low byte first (log 2; the block itself knows no byte order, 20 R68). -/
def readWord : Reader Word16
  | lo :: hi :: rest => some (hi ++ lo, rest)
  | _ => none

def writeWord (w : Word16) : List Byte := [w.extractLsb' 0 8, w.extractLsb' 8 8]

/-- A line level: one byte, any non-zero value being 1 (41 R130, D41). -/
def readLevel : Reader Bool
  | [] => none
  | b :: rest => some (b != 0, rest)

def writeLevel (v : Bool) : List Byte := [if v then 1 else 0]

/-- A binding: 0 is `absent`, `n + 1` is the identifier `n`. -/
def readBinding : Reader (Option Nat) := fun bs =>
  match readNat bs with
  | none => none
  | some (0, rest) => some (none, rest)
  | some (n + 1, rest) => some (some n, rest)

def writeBinding : Option Nat → List Byte
  | none => writeNat 0
  | some n => writeNat (n + 1)

/-- Six bindings, in the order of the rows of 10 R32 for one port. -/
def readPortBindings : Reader PortBindings := fun bs =>
  match readBinding bs with
  | none => none
  | some (inPort, bs) =>
    match readBinding bs with
    | none => none
    | some (inC1, bs) =>
      match readBinding bs with
      | none => none
      | some (inC2, bs) =>
        match readBinding bs with
        | none => none
        | some (outPort, bs) =>
          match readBinding bs with
          | none => none
          | some (outC2, bs) =>
            match readBinding bs with
            | none => none
            | some (irq, bs) => some (⟨inPort, inC1, inC2, outPort, outC2, irq⟩, bs)

def writePortBindings (p : PortBindings) : List Byte :=
  writeBinding p.inPort ++ writeBinding p.inC1 ++ writeBinding p.inC2 ++ writeBinding p.outPort ++ writeBinding p.outC2
    ++ writeBinding p.irq

/-- The twelve bindings: port A's six, then port B's. -/
def readInterface : Reader Interface := fun bs =>
  match readPortBindings bs with
  | none => none
  | some (a, bs) =>
    match readPortBindings bs with
    | none => none
    | some (b, bs) => some (⟨a, b⟩, bs)

def writeInterface (f : Interface) : List Byte := writePortBindings f.a ++ writePortBindings f.b

/-- The 3-bit code of `addressing` (30 R83): bit 0 the ordering, bits 2:1 the bus. -/
def addressingOfCode (b : Byte) : Option Addressing :=
  match b.toNat with
  | 0 => some ⟨.standard, .b8⟩
  | 1 => some ⟨.alternate, .b8⟩
  | 2 => some ⟨.standard, .b16Lower⟩
  | 3 => some ⟨.alternate, .b16Lower⟩
  | 4 => some ⟨.standard, .b16Upper⟩
  | 5 => some ⟨.alternate, .b16Upper⟩
  | 6 => some ⟨.standard, .b16Auto⟩
  | 7 => some ⟨.alternate, .b16Auto⟩
  | _ => none

def codeOfAddressing (m : Addressing) : Byte :=
  (match m.ordering with | .standard => 0 | .alternate => 1) |||
  (match m.bus with | .b8 => 0 | .b16Lower => 2 | .b16Upper => 4 | .b16Auto => 6)

/-- Bit 0 of a family-4 code: 0 Maskable, 1 Fast (30 R85). -/
def kindBit : Kind → Byte
  | .maskable => 0
  | .fast => 1

/-! ### Decoding -/

/-- What decoding answers: the operation and the bytes after it, or the reason why there is none. -/
abbrev Decoded := Except DecodeError (Instr × List Byte)

/-- One operand. -/
def decode1 {α : Type} (r : Reader α) (mk : α → Instr) (bs : List Byte) : Decoded :=
  match r bs with
  | none => .error .truncated
  | some (x, rest) => .ok (mk x, rest)

/-- Two operands. -/
def decode2 {α β : Type} (r : Reader α) (q : Reader β) (mk : α → β → Instr) (bs : List Byte) : Decoded :=
  match r bs with
  | none => .error .truncated
  | some (x, rest) => decode1 q (mk x) rest

/-- Three operands. -/
def decode3 {α β γ : Type} (r : Reader α) (q : Reader β) (t : Reader γ) (mk : α → β → γ → Instr) (bs : List Byte) :
    Decoded :=
  match r bs with
  | none => .error .truncated
  | some (x, rest) => decode2 q t (mk x) rest

/-- The operands of CONFIGURE: `c`, the code of `addressing`, the twelve bindings. -/
def decodeConfigure (bs : List Byte) : Decoded :=
  match readInt bs with
  | none => .error .truncated
  | some (c, bs) =>
    match readByte bs with
    | none => .error .truncated
    | some (code, bs) =>
      match addressingOfCode code with
      | none => .error (.invalidAddressing code)
      | some m => decode1 readInterface (.configure c m) bs

/-- The operation an operation code begins (30 R85); a code not listed there names none (30 R86). `ADV`'s operand byte
stands for `dt - 1`, so that every `dt >= 1` and nothing else can be written (log 2). -/
def decodeCode (op : Byte) (bs : List Byte) : Decoded :=
  match op.toNat with
  | 0x00 => decode2 readInt readNat .rdDdrA bs
  | 0x01 => decode2 readInt readNat .rdDataA bs
  | 0x02 => decode2 readInt readNat .rdCtlA bs
  | 0x03 => decode2 readInt readNat .rdCtlA bs
  | 0x04 => decode2 readInt readNat .rdDdrB bs
  | 0x05 => decode2 readInt readNat .rdDataB bs
  | 0x06 => decode2 readInt readNat .rdCtlB bs
  | 0x07 => decode2 readInt readNat .rdCtlB bs
  | 0x08 => decode3 readInt readNat readByte .wrDdrA bs
  | 0x09 => decode3 readInt readNat readByte .wrDataA bs
  | 0x0A => decode3 readInt readNat readByte .wrCtlA bs
  | 0x0B => decode3 readInt readNat readByte .wrCtlA bs
  | 0x0C => decode3 readInt readNat readByte .wrDdrB bs
  | 0x0D => decode3 readInt readNat readByte .wrDataB bs
  | 0x0E => decode3 readInt readNat readByte .wrCtlB bs
  | 0x0F => decode3 readInt readNat readByte .wrCtlB bs
  | 0x11 => decode2 readInt readNat .rd16L bs
  | 0x12 => decode2 readInt readNat .rd16U bs
  | 0x13 => decode2 readInt readNat .rd16A bs
  | 0x19 => decode3 readInt readNat readWord .wr16L bs
  | 0x1A => decode3 readInt readNat readWord .wr16U bs
  | 0x1B => decode3 readInt readNat readWord .wr16A bs
  | 0x20 => decode2 readInt readLevel .lineCa1 bs
  | 0x21 => decode2 readInt readLevel .lineCa2 bs
  | 0x22 => decode2 readInt readLevel .lineCb1 bs
  | 0x23 => decode2 readInt readLevel .lineCb2 bs
  | 0x30 => decode2 readInt readNat .sched bs
  | 0x31 => decode1 readInt .fire bs
  | 0x32 => decode2 readInt readInt .yieldOn bs
  | 0x33 => decode2 readInt readNat .yieldT bs
  | 0x34 => decode1 readNat (fun n => .adv (n + 1)) bs
  | 0x35 => decode1 readInt .expire bs
  | 0x36 => decode1 readInt .wake bs
  | 0x40 => decode1 readInt (fun i => .assertLine i .maskable) bs
  | 0x41 => decode1 readInt (fun i => .assertLine i .fast) bs
  | 0x42 => decode1 readInt (fun i => .clearLine i .maskable) bs
  | 0x43 => decode1 readInt (fun i => .clearLine i .fast) bs
  | 0x44 => decode1 readInt (fun i => .pulse i .maskable) bs
  | 0x45 => decode1 readInt (fun i => .pulse i .fast) bs
  | 0x46 => decode1 readInt (fun i => .take i .maskable) bs
  | 0x47 => decode1 readInt (fun i => .take i .fast) bs
  | 0x50 => decodeConfigure bs
  | 0x51 => .ok (.resetAll, bs)
  | 0x52 => .ok (.unconfigureAll, bs)
  | _ => .error (.invalidCode op)

/-- The operation a list of bytes begins with, and the bytes after it. Total: bytes that name no operation are rejected by
name. -/
def decode : List Byte → Decoded
  | [] => .error .noCode
  | op :: bs => decodeCode op bs

/-! ### Encoding -/

/-- The bytes of an operation, its code first. Bit 0 of a control access's code, which decoding ignores, is written 0. -/
def encode : Instr → List Byte
  | .rdDdrA c off => 0x00 :: (writeInt c ++ writeNat off)
  | .rdDataA c off => 0x01 :: (writeInt c ++ writeNat off)
  | .rdCtlA c off => 0x02 :: (writeInt c ++ writeNat off)
  | .rdDdrB c off => 0x04 :: (writeInt c ++ writeNat off)
  | .rdDataB c off => 0x05 :: (writeInt c ++ writeNat off)
  | .rdCtlB c off => 0x06 :: (writeInt c ++ writeNat off)
  | .wrDdrA c off d => 0x08 :: (writeInt c ++ writeNat off ++ [d])
  | .wrDataA c off d => 0x09 :: (writeInt c ++ writeNat off ++ [d])
  | .wrCtlA c off d => 0x0A :: (writeInt c ++ writeNat off ++ [d])
  | .wrDdrB c off d => 0x0C :: (writeInt c ++ writeNat off ++ [d])
  | .wrDataB c off d => 0x0D :: (writeInt c ++ writeNat off ++ [d])
  | .wrCtlB c off d => 0x0E :: (writeInt c ++ writeNat off ++ [d])
  | .rd16L c off => 0x11 :: (writeInt c ++ writeNat off)
  | .rd16U c off => 0x12 :: (writeInt c ++ writeNat off)
  | .rd16A c off => 0x13 :: (writeInt c ++ writeNat off)
  | .wr16L c off w => 0x19 :: (writeInt c ++ writeNat off ++ writeWord w)
  | .wr16U c off w => 0x1A :: (writeInt c ++ writeNat off ++ writeWord w)
  | .wr16A c off w => 0x1B :: (writeInt c ++ writeNat off ++ writeWord w)
  | .lineCa1 c v => 0x20 :: (writeInt c ++ writeLevel v)
  | .lineCa2 c v => 0x21 :: (writeInt c ++ writeLevel v)
  | .lineCb1 c v => 0x22 :: (writeInt c ++ writeLevel v)
  | .lineCb2 c v => 0x23 :: (writeInt c ++ writeLevel v)
  | .sched id delay => 0x30 :: (writeInt id ++ writeNat delay)
  | .fire id => 0x31 :: writeInt id
  | .yieldOn i id => 0x32 :: (writeInt i ++ writeInt id)
  | .yieldT i t => 0x33 :: (writeInt i ++ writeNat t)
  | .adv dt => 0x34 :: writeNat (dt - 1)
  | .expire id => 0x35 :: writeInt id
  | .wake i => 0x36 :: writeInt i
  | .assertLine i k => (0x40 ||| kindBit k) :: writeInt i
  | .clearLine i k => (0x42 ||| kindBit k) :: writeInt i
  | .pulse i k => (0x44 ||| kindBit k) :: writeInt i
  | .take i k => (0x46 ||| kindBit k) :: writeInt i
  | .configure c m f => 0x50 :: (writeInt c ++ codeOfAddressing m :: writeInterface f)
  | .resetAll => [0x51]
  | .unconfigureAll => [0x52]

/-! ### The opcode table's words -/

/-- The bytes of a number, the least significant first: `n` of them. -/
def littleBytes : (n : Nat) → Nat → List Byte
  | 0, _ => []
  | n + 1, w => BitVec.ofNat 8 (w % 256) :: littleBytes n (w / 256)

/-- The bytes of an operation whose table bits are `w`: `nbits` bits in whole bytes, and every byte above them 0. Fifteen
bytes are the longest operation whose numbers are all 0 (CONFIGURE), so sixteen bytes of zeros are operands enough. -/
def tableBytes (nbits w : Nat) : List Byte := littleBytes ((nbits + 7) / 8) w ++ List.replicate 16 0

/-- The operation the decoder reads from a word of spec/opcode_table.json, its operand bytes 0. -/
def decodeTableWord (nbits w : Nat) : Option Instr :=
  match decode (tableBytes nbits w) with
  | .ok (i, _) => some i
  | .error _ => none

end Sys2Proof
end

