-- ==== Sys2Proof/Machine/State.lean ====
section
/-! DEFINITION. The state of the PIA core: the tuple `(chip[0..N_CHIPS-1], sched, cpu[0..N_CPUS-1], trace)` of spec/10_state.md,
the parameters a system chooses once, and the model's own fields (the queue of presented operations, the environment's
answers, the draw counter, the read result). Plain data. -/

namespace Sys2Proof.Machine

/-- The fields of one port of one chip; `f_P` of the spec is field `f` of port `P` (00 R10). -/
structure Port where
  /-- `ddr_P`: the direction mask, 1 = output (10 R21) -/
  ddr : Byte
  /-- `out_P`: the output register, raw (10 R22) -/
  out : Byte
  /-- `in_P`: the last sampled input byte (10 R23) -/
  inp : Byte
  /-- `ctl_P`: the six stored control bits (10 R24) -/
  ctl : Ctl
  /-- `in_cP1`: the previous sample of line CP1 (10 R28) -/
  inC1 : Bool
  /-- `in_cP2`: the previous sample of line CP2 (10 R28) -/
  inC2 : Bool
  /-- `out_cP2`: the driven level of C2 (10 R29) -/
  outC2 : Bool
  /-- `irq_P1`: the flag of line CP1 (10 R30) -/
  irq1 : Bool
  /-- `irq_P2`: the flag of line CP2 (10 R30) -/
  irq2 : Bool
  /-- `irq_P_state`: the stored aggregate (10 R31) -/
  irqState : Bool
deriving DecidableEq, Repr

/-- One chip slot (10 R20 to R34). -/
structure Chip where
  a : Port
  b : Port
  /-- `interface` (10 R32) -/
  intf : Interface
  /-- `addressing` (10 R33) -/
  addressing : Addressing
  /-- `configured` (10 R34) -/
  configured : Bool
deriving DecidableEq, Repr

/-- Whether a virtual CPU runs, and what it waits for if not (10 R40, 60 R215). -/
inductive Wait where
  | running
  | onTrigger (id : Int)
  | untilTime (t : Nat)
deriving DecidableEq, Repr

/-- A virtual CPU at the boundary (10 R40): the two level-held lines, the two pulse requests, the wait. -/
structure Cpu where
  lineM : Bool
  lineF : Bool
  pulseM : Bool
  pulseF : Bool
  wait : Wait
deriving DecidableEq, Repr

/-- The value of a drive event: a byte for `out_a`, `out_b`, a boolean for the other sinks (10 R41). -/
inductive SinkValue where
  | byte (v : Byte)
  | level (v : Bool)
deriving DecidableEq, Repr

/-- A drive event `(k, v)` (10 R41). -/
structure Event where
  sink : Nat
  value : SinkValue
deriving DecidableEq, Repr

/-- A routed action (46 R194): nothing else can be routed. -/
inductive Action where
  | line (c : Int) (line : Line) (level : Bool)
  | assertLine (i : Int) (kind : Kind)
  | clearLine (i : Int) (kind : Kind)
  | pulse (i : Int) (kind : Kind)
  | fire (id : Int)
  | sched (id : Int) (delay : Nat)
deriving DecidableEq, Repr

/-- A row of ROUTE: the actions of `sink` when the driven value is `value`, or any value (46 R194; log 9). -/
structure RouteEntry where
  sink : Nat
  /-- the driven value the row is for; absent: every value -/
  value : Option SinkValue
  actions : List Action
deriving DecidableEq, Repr

/-- One presented operation: who presents it, and its bytes (30 R88; log 1). -/
structure Presented where
  agent : Agent
  bytes : List Byte
deriving DecidableEq, Repr

/-- What the bus master got from the last read: a byte on an 8-bit bus, a word on a 16-bit bus (20 R62; log 13). -/
inductive BusResult where
  /-- no read has been performed -/
  | nothing
  | byte (b : Byte)
  | word (w : Word16)
deriving DecidableEq, Repr

/-- Synchronous exceptions: none. "No operation of this block raises an exception"; "The set of synchronous exception causes
is empty" (60 R200). No one raises one; that is safe (log 20). -/
inductive Fault where
deriving DecidableEq, Repr

/-- The transitions the model does not have (60 R201: "not exceptions of the hardware: they are transitions the model does
not have"). Every one is safe: nothing can be proved of a run that would take it. -/
inductive Refusal where
  /-- an instruction with no meaning yet: raised by `exec`'s refused arms only; safe -/
  | notModelled (mnemonic : String)
  /-- raised by a bus access whose width is not the one the chip's mode fixes (20 R71, 93 U6; log 15); safe -/
  | widthMismatch
  /-- raised by a routed line sample of a chip whose operation is in progress (46 R193, 93 U4; log 14); safe -/
  | reentrantRoute
  /-- raised by an operation that a suspended CPU presents or calls (43 R155, 93 U15; log 16, log 17); safe -/
  | suspendedCpu
  /-- raised by YIELD, YIELDT, WAKE of a CPU that does not exist, and by an operation such a CPU presents (43 R155, 93 U17;
  log 16, log 17); safe -/
  | noSuchCpu
  /-- raised by ADV past a pending deadline (43 R156, 93 U16; log 16); safe -/
  | clockPastDeadline
  /-- raised by ADV with `dt = 0`, which is no operand of it (43 R156; log 22); safe -/
  | zeroAdvance
  /-- raised by EXPIRE of an id with no timeout due (43 R157; log 16); safe -/
  | expireNotDue
  /-- raised by WAKE of a CPU with no timed wait due (43 R158; log 16); safe -/
  | wakeNotDue
  /-- raised by TAKE with no pending request (44 R175; log 16); safe -/
  | noPulse
  /-- raised by `step` on presented bytes that name no operation (30 R86, 93 U21; log 23); safe -/
  | undecodable (why : DecodeError)
deriving DecidableEq, Repr

/-- The whole state. -/
structure State where
  /-- the chip array; its length is N_CHIPS (10 R20; log 6) -/
  chips : List Chip
  /-- `sched.timeout`: the pending deadlines, sorted strictly by trigger id (10 R38; log 21) -/
  timeout : List (Int × Nat)
  /-- `sched.waiters`: the pairs (id, cpu) with cpu in `waiters[id]`, sorted strictly (10 R38; log 21) -/
  waiters : List (Int × Nat)
  /-- `sched.now` (10 R39) -/
  now : Nat
  /-- the virtual CPUs; the length is N_CPUS (10 R40; log 7) -/
  cpus : List Cpu
  /-- `trace`: the drive events so far, oldest first (10 R41) -/
  trace : List Event
  /-- AUTOSENSE_ZERO, a parameter: no operation changes it (00 R8; log 8) -/
  autosenseZero : AutosenseZero
  /-- ROUTE, a parameter: no operation changes it (46 R194; log 9) -/
  routes : List RouteEntry
  /-- the model's own: the operations still to be presented, in order (log 1) -/
  inbox : List Presented
  /-- the model's own: answers the environment has already chosen, for the next samples in order (log 10) -/
  answers : List Byte
  /-- the model's own: how many free values have been drawn (log 10, log 11) -/
  draws : Nat
  /-- the model's own: what the last read gave the bus master (log 13) -/
  result : BusResult
deriving DecidableEq, Repr

/-- All six bindings of a port absent (10 R32). -/
def unboundPort : PortBindings := ⟨none, none, none, none, none, none⟩

/-- All twelve bindings absent (10 R32). -/
def unbound : Interface := ⟨unboundPort, unboundPort⟩

/-- A port after any reset (10 R47). -/
def Port.zero : Port :=
  { ddr := 0x00, out := 0x00, inp := 0x00, ctl := 0b000000, inC1 := false, inC2 := false, outC2 := false,
    irq1 := false, irq2 := false, irqState := false }

/-- A chip at power-on and after UNCONFIGURE_ALL (10 R47; D7). -/
def Chip.unconfigured : Chip :=
  { a := Port.zero, b := Port.zero, intf := unbound, addressing := ⟨.standard, .b8⟩, configured := false }

/-- A virtual CPU at power-on (10 R40, R47). -/
def Cpu.powerOn : Cpu := { lineM := false, lineF := false, pulseM := false, pulseF := false, wait := .running }

/-- Power-on (10 R47, 70 R230), with the parameters at the values of Config and the model's own fields empty (log 6 to
log 9, log 12). -/
def State.reset : State :=
  { chips := List.replicate Config.resetChips Chip.unconfigured
    timeout := []
    waiters := []
    now := 0
    cpus := List.replicate Config.resetCpus Cpu.powerOn
    trace := []
    autosenseZero := Config.resetAutosenseZero
    routes := []
    inbox := []
    answers := []
    draws := 0
    result := .nothing }

end Sys2Proof.Machine
end

