-- ==== Sys2Proof/Machine/Operands.lean ====
section
/-! DEFINITION. Operand forms: chip and CPU indices, raw offsets and register slots, the lanes of the 16-bit bus, the decode
key of a bus access. -/

namespace Sys2Proof.Machine

/-- The position of an index in an array of `len` entries; an index outside `0..len-1`, a negative one included, has none
(20 R63, 44 R177). -/
def indexIn (len : Nat) : Int → Option Nat
  | .ofNat n => if n < len then some n else none
  | .negSucc _ => none

/-- The register behind a canonical slot (20 R61). -/
inductive Slot where
  | dataA
  | ctlA
  | dataB
  | ctlB
deriving DecidableEq, Repr

/-- The port a slot belongs to: `r[1]` of 30 R81. -/
def Slot.port : Slot → PortId
  | .dataA => .a
  | .ctlA => .a
  | .dataB => .b
  | .ctlB => .b

/-- SLOT_ORDER (20 R61, D3): the register of each canonical slot number. PRESUMED (the spec's value is general knowledge of
the MC6821, 93 G3; log 19). -/
def slotOrder (r : Nat) : Slot :=
  match r with
  | 0 => .dataA
  | 1 => .ctlA
  | 2 => .dataB
  | _ => .ctlB

/-- `Swap12` (20 R65): exchanges the two middle slots. -/
def swap12 (r : Nat) : Nat :=
  match r with
  | 1 => 2
  | 2 => 1
  | r => r

/-- The offset is halved in every 16-bit mode (20 R64 step 2). -/
def busHalves : BusMode → Bool
  | .b8 => false
  | .b16Lower => true
  | .b16Upper => true
  | .b16Auto => true

/-- `DecodeOffset` (20 R64): halve, reduce to two bits, swap. -/
def decodeOffset (m : Addressing) (off : Nat) : Nat :=
  let o := if busHalves m.bus then off / 2 else off
  let r := o % 4
  match m.ordering with
  | .standard => r
  | .alternate => swap12 r

/-- The slot a raw offset reaches (20 R61, R64). -/
def slotAt (m : Addressing) (off : Nat) : Slot := slotOrder (decodeOffset m off)

/-- A raw offset that reaches the slot under the chip's addressing (30 R88: `CTL_P` and `DATA_P` in a pseudo-operation). -/
def offsetOf (m : Addressing) (slot : Slot) : Nat :=
  let r := match slot with
    | .dataA => 0
    | .ctlA => 1
    | .dataB => 2
    | .ctlB => 3
  let o := match m.ordering with
    | .standard => r
    | .alternate => swap12 r
  if busHalves m.bus then 2 * o else o

/-! ### The decode key (30 R81) -/

/-- The register operation a read performs: the key without its `rw` bit. -/
inductive ReadOp where
  | ddrA
  | dataA
  | ctlA
  | ddrB
  | dataB
  | ctlB
deriving DecidableEq, Repr

/-- The register operation a write performs. -/
inductive WriteOp where
  | ddrA
  | dataA
  | ctlA
  | ddrB
  | dataB
  | ctlB
deriving DecidableEq, Repr

/-- The rows `0 r1 r0 s` of the table of 30 R81; `select` is `ctl_P[2]` of the slot's port. -/
def readKey (slot : Slot) (select : Bool) : ReadOp :=
  match slot, select with
  | .dataA, false => .ddrA
  | .dataA, true => .dataA
  | .ctlA, _ => .ctlA
  | .dataB, false => .ddrB
  | .dataB, true => .dataB
  | .ctlB, _ => .ctlB

/-- The rows `1 r1 r0 s` of the table of 30 R81. -/
def writeKey (slot : Slot) (select : Bool) : WriteOp :=
  match slot, select with
  | .dataA, false => .ddrA
  | .dataA, true => .dataA
  | .ctlA, _ => .ctlA
  | .dataB, false => .ddrB
  | .dataB, true => .dataB
  | .ctlB, _ => .ctlB

/-! ### The lanes of the 16-bit bus -/

/-- The low byte of a bus word (00 R9). -/
def lowByte (w : Word16) : Byte := w.extractLsb' 0 8

/-- The high byte of a bus word (00 R9). -/
def highByte (w : Word16) : Byte := w.extractLsb' 8 8

/-- Autosense (20 R66): the non-zero half; nothing when both halves are populated; a word of zeros as AUTOSENSE_ZERO says. -/
def autosense (zero : AutosenseZero) (w : Word16) : Option Byte :=
  if lowByte w ≠ 0 ∧ highByte w ≠ 0 then none
  else if lowByte w = 0 ∧ highByte w = 0 then
    match zero with
    | .writeZero => some 0x00
    | .drop => none
  else some (lowByte w ||| highByte w)

/-- `WriteLane` (20 R66): the data byte of a 16-bit write, or nothing where the write is dropped. On an 8-bit chip there is
no lane; a word access to it is refused before this is asked (20 R71). -/
def writeLane (zero : AutosenseZero) (bus : BusMode) (w : Word16) : Option Byte :=
  match bus with
  | .b8 => none
  | .b16Lower => some (lowByte w)
  | .b16Upper => some (highByte w)
  | .b16Auto => autosense zero w

/-- `ReadLanes` (20 R67): where a read's byte stands on the 16-bit bus. -/
def readLanes (bus : BusMode) (b : Byte) : Word16 :=
  match bus with
  | .b8 => b.zeroExtend 16
  | .b16Lower => b.zeroExtend 16
  | .b16Upper => b ++ (0 : Byte)
  | .b16Auto => b ++ b

/-- The six bits a control write stores: `data & 0x3F` (10 R24, 40 R109). -/
def ctlOfData (data : Byte) : Ctl := (data &&& 0x3F).setWidth 6

/-- The port of a control line (30 R80). -/
def linePort : Line → PortId
  | .ca1 => .a
  | .ca2 => .a
  | .cb1 => .b
  | .cb2 => .b

/-- Whether a control line is the C1 line of its port. -/
def lineIsC1 : Line → Bool
  | .ca1 => true
  | .ca2 => false
  | .cb1 => true
  | .cb2 => false

end Sys2Proof.Machine
end

