-- ==== Sys2Proof/Machine/Flags.lean ====
section
/-! DEFINITION. The control bits (CTL_LAYOUT), the aggregate of a port's flags, the armed edges, and the two bytes a port shows
on the bus. -/

namespace Sys2Proof.Machine

/-! ### CTL_LAYOUT: the predicates of 10 R26 and R27. The position of bit 2 is the source's; the positions of bits 0, 1, 3, 4
and 5 are PRESUMED (general knowledge of the MC6821, D4, 93 G2; log 18). Every rule below uses these predicates only. -/

/-- Bit 2: 1 = output register selected (10 R26). -/
def outputSelected (v : Ctl) : Bool := v.getLsbD 2
/-- Bit 0: flag `irq_P1` contributes to the aggregate. -/
def irq1Enabled (v : Ctl) : Bool := v.getLsbD 0
/-- Bit 1: 1 = Low→High arms C1. -/
def c1LowToHigh (v : Ctl) : Bool := v.getLsbD 1
/-- Bit 3, as the aggregator reads it: flag `irq_P2` contributes, whatever the direction of C2. -/
def irq2Enabled (v : Ctl) : Bool := v.getLsbD 3
/-- Bit 3, in strobe mode: 1 = restore C2 on the same access. -/
def strobeEReset (v : Ctl) : Bool := v.getLsbD 3
/-- Bit 3, at a control write that makes C2 an output: the level transferred to it. -/
def setC2 (v : Ctl) : Bool := v.getLsbD 3
/-- Bit 4, C2 an input: 1 = Low→High arms C2. -/
def c2LowToHigh (v : Ctl) : Bool := v.getLsbD 4
/-- Bit 4, C2 an output: 0 = strobe mode, 1 = set/reset mode. -/
def c2StrobeMode (v : Ctl) : Bool := !v.getLsbD 4
/-- Bit 5: 1 = C2 is an output. -/
def c2Output (v : Ctl) : Bool := v.getLsbD 5
/-- Bit 5: 0 = C2 is an input. -/
def c2Input (v : Ctl) : Bool := !v.getLsbD 5

/-- C2 is an output in strobe mode (40 R104 step 4, R111 step 3). -/
def strobes (v : Ctl) : Bool := c2Output v && c2StrobeMode v

/-- C2 is an output in strobe mode restored by C1's transition (41 R131 step 5). -/
def restoredByC1 (v : Ctl) : Bool := strobes v && !strobeEReset v

/-- The sample `v` after the sample `prev` is the armed transition of a line whose armed direction is Low→High iff `up`
(41 R131 steps 1, 2). -/
def armedEdge (up prev v : Bool) : Bool := (prev != v) && (v == up)

/-- `Agg(P)` (42 R140). -/
def aggregate (p : Port) : Bool := (p.irq1 && irq1Enabled p.ctl) || (p.irq2 && irq2Enabled p.ctl)

/-- The byte a data read returns: output bits under the direction mask, input bits elsewhere (40 R104 step 2). -/
def portMix (p : Port) : Byte := (p.out &&& p.ddr) ||| (p.inp &&& ~~~p.ddr)

/-- The byte a control read returns: bit 7 `irq_P1`, bit 6 `irq_P2` while C2 is an input, bits 5:0 stored (10 R25, 40 R108). -/
def ctlView (p : Port) : Byte :=
  BitVec.ofBool p.irq1 ++ BitVec.ofBool (p.irq2 && c2Input p.ctl) ++ p.ctl

end Sys2Proof.Machine
end

