-- ==== Sys2Proof/Machine/Ops.lean ====
section
/-! DEFINITION. The shared operations: chips and CPUs in their arrays, the scheduler's two maps, samples and drives across a
binding, the routed actions, the aggregator, the edge latches, `Fire`. No exception is taken or returned from anywhere: the
block raises none (60 R200, R206, R207). -/

namespace Sys2Proof.Machine

/-- What an operation answers. -/
abbrev Answer := Host.Outcome State Fault Refusal

/-- What a register read answers: the next state and the byte. -/
abbrev ReadAnswer := Host.Outcome (State × Byte) Fault Refusal

/-- Steps run in order, each to completion before the next (00 R10); a refusal ends the operation. -/
def andThen {α β : Type} (o : Host.Outcome α Fault Refusal) (f : α → Host.Outcome β Fault Refusal) :
    Host.Outcome β Fault Refusal :=
  match o with
  | .next x => f x
  | .fault r => .fault r
  | .refused r => .refused r

/-! ### Chips and ports -/

/-- Port `P` of a chip. -/
def portOf (ch : Chip) : PortId → Port
  | .a => ch.a
  | .b => ch.b

/-- The bindings of port `P` of a chip. -/
def pinsOf (ch : Chip) : PortId → PortBindings
  | .a => ch.intf.a
  | .b => ch.intf.b

/-- A chip with one port changed. -/
def mapPort (p : PortId) (f : Port → Port) (ch : Chip) : Chip :=
  match p with
  | .a => { ch with a := f ch.a }
  | .b => { ch with b := f ch.b }

/-- Chip slot `n`; every caller has checked `n` against the array. -/
def State.chip (s : State) (n : Nat) : Chip := s.chips.getD n Chip.unconfigured

/-- Port `P` of chip `n`. -/
def State.port (s : State) (n : Nat) (p : PortId) : Port := portOf (s.chip n) p

/-- The bindings of port `P` of chip `n`. -/
def State.pins (s : State) (n : Nat) (p : PortId) : PortBindings := pinsOf (s.chip n) p

/-- The state with port `P` of chip `n` changed by `f`, and nothing else. -/
def State.setPort (s : State) (n : Nat) (p : PortId) (f : Port → Port) : State :=
  { s with chips := s.chips.modify n (mapPort p f) }

/-- The chip slot an operand `c` names, if it names one (20 R63). -/
def State.chipIndex (s : State) (c : Int) : Option Nat := indexIn s.chips.length c

/-- The CPU an operand `i` names, if it names one (44 R177). -/
def State.cpuIndex (s : State) (i : Int) : Option Nat := indexIn s.cpus.length i

/-- CPU `n`; every caller has checked `n` against the array. -/
def State.cpu (s : State) (n : Nat) : Cpu := s.cpus.getD n Cpu.powerOn

/-- The state with CPU `n` changed by `f`, and nothing else. -/
def State.setCpu (s : State) (n : Nat) (f : Cpu → Cpu) : State := { s with cpus := s.cpus.modify n f }

/-! ### The scheduler's maps, in canonical form (log 21) -/

/-- The value of a key, if it has one. -/
def mapGet (id : Int) : List (Int × Nat) → Option Nat
  | [] => none
  | (k, v) :: rest => if k = id then some v else mapGet id rest

/-- The map with the key at a value, the old value forgotten (43 R151). -/
def mapSet (id : Int) (v : Nat) : List (Int × Nat) → List (Int × Nat)
  | [] => [(id, v)]
  | (k, w) :: rest =>
    if id < k then (id, v) :: (k, w) :: rest
    else if k = id then (id, v) :: rest
    else (k, w) :: mapSet id v rest

/-- The map, or the set of pairs, without any entry of the key. -/
def mapErase (id : Int) (m : List (Int × Nat)) : List (Int × Nat) := m.filter fun e => e.1 != id

/-- The order of the set of pairs: by id, then by CPU. -/
def pairLt (x y : Int × Nat) : Bool := x.1 < y.1 || (x.1 == y.1 && x.2 < y.2)

/-- The set of pairs with one pair added. -/
def pairInsert (x : Int × Nat) : List (Int × Nat) → List (Int × Nat)
  | [] => [x]
  | y :: rest => if pairLt x y then x :: y :: rest else if x = y then y :: rest else y :: pairInsert x rest

/-- The CPUs waiting on a trigger: `sched.waiters[id]` (10 R38). -/
def waitersOf (id : Int) (w : List (Int × Nat)) : List Nat := (w.filter fun e => e.1 == id).map (·.2)

/-! ### The CPU interrupt adapter (44 R171 to R173) and the scheduler's `Fire` (43 R152), `SCHED` (43 R151) -/

/-- `cpu[i].line[kind] <- v`; a CPU that does not exist makes it a no-op (44 R177). -/
def setLevel (i : Int) (kind : Kind) (v : Bool) (s : State) : State :=
  match s.cpuIndex i with
  | none => s
  | some n =>
    match kind with
    | .maskable => s.setCpu n fun q => { q with lineM := v }
    | .fast => s.setCpu n fun q => { q with lineF := v }

/-- `cpu[i].pulse[kind] <- v`; a CPU that does not exist makes it a no-op (44 R177). -/
def setPulse (i : Int) (kind : Kind) (v : Bool) (s : State) : State :=
  match s.cpuIndex i with
  | none => s
  | some n =>
    match kind with
    | .maskable => s.setCpu n fun q => { q with pulseM := v }
    | .fast => s.setCpu n fun q => { q with pulseF := v }

/-- `cpu[i].pulse[kind]`. -/
def pulseOf (q : Cpu) : Kind → Bool
  | .maskable => q.pulseM
  | .fast => q.pulseF

/-- `cpu[i].line[kind]`. -/
def levelOf (q : Cpu) : Kind → Bool
  | .maskable => q.lineM
  | .fast => q.lineF

/-- `cpu[n].wait <- w`. -/
def setWait (n : Nat) (w : Wait) (s : State) : State := s.setCpu n fun q => { q with wait := w }

/-- The listed CPUs run again (43 R152 step 1). -/
def resumeAll : List Nat → State → State
  | [], s => s
  | n :: rest, s => resumeAll rest (setWait n .running s)

/-- `Fire(id)` (43 R152): every waiter of `id` runs again, the waiters of `id` are none, its timeout is cancelled. -/
def fireTrigger (id : Int) (s : State) : State :=
  let r := resumeAll (waitersOf id s.waiters) s
  { r with waiters := mapErase id r.waiters, timeout := mapErase id r.timeout }

/-- `sched.timeout[id] <- sched.now + delay` (43 R151). -/
def armTimeout (id : Int) (delay : Nat) (s : State) : State :=
  { s with timeout := mapSet id (s.now + delay) s.timeout }

/-! ### Free values (93 U1, U2) -/

/-- One answer of the environment (46 R191): the next one it has already chosen, else a free value (log 10). -/
def drawSample (s : State) : Byte × State :=
  match s.answers with
  | x :: rest => (x, { s with answers := rest })
  | [] => (Config.envByte s.draws, { s with draws := s.draws + 1 })

/-- The byte an out-of-range read gives the master: a free value (20 R63; log 11). -/
def drawOpenBus (s : State) : State := { s with result := .byte (Config.openBus s.draws), draws := s.draws + 1 }

/-- The word an out-of-range 16-bit read gives the master: a free value (20 R63; log 11). -/
def drawOpenBusWord (s : State) : State :=
  { s with result := .word (Config.openBusWord s.draws), draws := s.draws + 1 }

/-! ### Drive and its routed actions (46 R192 to R194) -/

/-- `Drive` on a binding, as the rules below call it. -/
abbrev Driver := Option Nat → SinkValue → State → Answer

/-- Delivery of a line sample, as a route calls it. -/
abbrev LineSampler := Int → Line → Bool → State → Answer

/-- `ROUTE(k, v)` (46 R194): the actions of the first row for the sink and the value, none where there is no row (log 9). -/
def routeOf (k : Nat) (v : SinkValue) : List RouteEntry → List Action
  | [] => []
  | e :: rest => if e.sink = k ∧ (e.value = none ∨ e.value = some v) then e.actions else routeOf k v rest

/-- One routed action, performed to completion (46 R194). -/
def performAction (sample : LineSampler) (x : Action) (s : State) : Answer :=
  match x with
  | .line c l v => sample c l v s
  | .assertLine i kind => .next (setLevel i kind true s)
  | .clearLine i kind => .next (setLevel i kind false s)
  | .pulse i kind => .next (setPulse i kind true s)
  | .fire id => .next (fireTrigger id s)
  | .sched id delay => .next (armTimeout id delay s)

/-- The routed actions of one drive, in list order (46 R192 step 4). -/
def performActions (sample : LineSampler) : List Action → State → Answer
  | [], s => .next s
  | x :: rest, s => andThen (performAction sample x s) (performActions sample rest)

/-- `Drive(b, v)` (46 R192): nothing on an absent binding; else the drive event, then its routed actions. -/
def driveWith (sample : LineSampler) : Driver := fun b v s =>
  match b with
  | none => .next s
  | some k => performActions sample (routeOf k v s.routes) { s with trace := s.trace ++ [⟨k, v⟩] }

/-! ### The aggregator and the wire-OR (42 R141, R142) -/

/-- Whether one port of a chip is bound to the line and asserts it. -/
def assertsLine (k : Nat) (ch : Chip) (p : PortId) : Bool :=
  (pinsOf ch p).irq == some k && (portOf ch p).irqState

/-- The level of line `k`: some port of some configured chip bound to it has its aggregate true (42 R142 step 1). -/
def wireLevel (k : Nat) (chips : List Chip) : Bool :=
  chips.any fun ch => ch.configured && (assertsLine k ch .a || assertsLine k ch .b)

/-- `UpdateIrq(c, P)` (42 R141), `WireOr(k)` (42 R142) included: where the aggregate changes it is stored, and then the bound
line, if any, is driven with its new level. -/
def updateIrq (drive : Driver) (n : Nat) (p : PortId) (s : State) : Answer :=
  let new := aggregate (s.port n p)
  if new = (s.port n p).irqState then .next s
  else
    let s1 := s.setPort n p fun q => { q with irqState := new }
    match (s1.pins n p).irq with
    | none => .next s1
    | some k => drive (some k) (.level (wireLevel k s1.chips)) s1

/-! ### The C2 output (40 R109, R110; 41 R131) -/

/-- C2 goes to a level: a drive event only if it differs from the driven one; `out_cP2` is stored whether or not the binding
is present (40 R109 steps 4, 5; R110 steps 1, 2; 41 R131 steps 6, 7). -/
def moveC2 (drive : Driver) (n : Nat) (p : PortId) (t : Bool) (s : State) : Answer :=
  andThen (if (s.port n p).outC2 = t then .next s else drive (s.pins n p).outC2 (.level t) s) fun s1 =>
    .next (s1.setPort n p fun q => { q with outC2 := t })

/-- `Strobe(c, P)` (40 R110): low if it was high; then, with E-reset, driven high in any case. -/
def strobe (drive : Driver) (n : Nat) (p : PortId) (s : State) : Answer :=
  andThen (moveC2 drive n p false s) fun s1 =>
    if strobeEReset (s1.port n p).ctl then
      andThen (drive (s1.pins n p).outC2 (.level true) s1) fun s2 =>
        .next (s2.setPort n p fun q => { q with outC2 := true })
    else .next s1

/-! ### The edge latches (41 R131 to R134) -/

/-- A sample of the C1 line of a port (41 R131, R133). -/
def sampleC1 (drive : Driver) (n : Nat) (p : PortId) (v : Bool) (s : State) : Answer :=
  let q := s.port n p
  andThen
    (if armedEdge (c1LowToHigh q.ctl) q.inC1 v then
      andThen (updateIrq drive n p (s.setPort n p fun q => { q with irq1 := true })) fun s1 =>
        if restoredByC1 (s1.port n p).ctl then moveC2 drive n p true s1 else .next s1
    else .next s)
    fun s2 => .next (s2.setPort n p fun q => { q with inC1 := v })

/-- A sample of the C2 line of a port (41 R132, R134). -/
def sampleC2 (drive : Driver) (n : Nat) (p : PortId) (v : Bool) (s : State) : Answer :=
  let q := s.port n p
  andThen
    (if c2Input q.ctl && armedEdge (c2LowToHigh q.ctl) q.inC2 v then
      updateIrq drive n p (s.setPort n p fun q => { q with irq2 := true })
    else .next s)
    fun s1 => .next (s1.setPort n p fun q => { q with inC2 := v })

/-- `SetLine(c, line, v)` on an existing chip (41 R130). -/
def setLine (drive : Driver) (n : Nat) (l : Line) (v : Bool) (s : State) : Answer :=
  if lineIsC1 l then sampleC1 drive n (linePort l) v s else sampleC2 drive n (linePort l) v s

/-- A line sample presented or routed while the chips of `busy` have an operation in progress (46 R193): a chip that does
not exist makes it a no-op (41 R130), a busy chip refuses it, and otherwise the sample runs with its own chip busy too.
`fuel` bounds the nesting; as many as there are chips not busy, and one more, are enough (46 R193). -/
def deliverLine : (fuel : Nat) → (busy : List Nat) → LineSampler
  | 0, _ => fun c _ _ s =>
    match s.chipIndex c with
    | none => .next s
    | some _ => .refused .reentrantRoute
  | fuel + 1, busy => fun c l v s =>
    match s.chipIndex c with
    | none => .next s
    | some n =>
      if busy.contains n then .refused .reentrantRoute
      else setLine (driveWith (deliverLine fuel (n :: busy))) n l v s

/-- `Drive` within an operation on chip `n` (46 R192, R193). -/
def driveFrom (n : Nat) (s : State) : Driver := driveWith (deliverLine s.chips.length [n])

/-- `LINE c, line, level` (41 R130): no operation is in progress when it starts. -/
def presentLine (c : Int) (l : Line) (v : Bool) (s : State) : Answer := deliverLine (s.chips.length + 1) [] c l v s

end Sys2Proof.Machine
end

