-- ==== Sys2Proof/Machine/BusAccess.lean ====
section
/-! DEFINITION. Bus access: the twelve register operations (40 R102 to R114), the access path from a transaction to one of them
(20 R62, 30 R81), and the meanings of the rows of families 0 and 1. A family-0 code's low four bits are the key the access is
expected to have; the bus carries `rw`, `c`, `off` and `data` only (30 R80), and the key of 30 R81 selects what is performed,
also where it is not the row's (log 3). The same for the lane of a family-1 code (log 4). -/

namespace Sys2Proof.Machine

/-! ### Reads of a register (40 R102 to R105, R108, R113): chip `n` exists -/

/-- The read of a direction register: no side effect (40 R102, R103). -/
def readDdr (n : Nat) (p : PortId) (s : State) : ReadAnswer := .next (s, (s.port n p).ddr)

/-- Step 1 of a data read: the port's input is sampled if its source is bound (40 R104). -/
def latchInput (n : Nat) (p : PortId) (s : State) : State :=
  match (s.pins n p).inPort with
  | none => s
  | some _ =>
    let (x, s1) := drawSample s
    s1.setPort n p fun q => { q with inp := x }

/-- Step 3 of a data read: both flags of the port are cleared, the aggregate recomputed (40 R104). -/
def clearFlags (drive : Driver) (n : Nat) (p : PortId) (s : State) : Answer :=
  updateIrq drive n p (s.setPort n p fun q => { q with irq1 := false, irq2 := false })

/-- Steps 1 to 3 of a data read, and the byte fixed at step 2 (40 R104, R105). -/
def readDataCommon (n : Nat) (p : PortId) (s : State) : ReadAnswer :=
  let s1 := latchInput n p s
  andThen (clearFlags (driveFrom n s1) n p s1) fun s2 => .next (s2, portMix (s1.port n p))

/-- Step 4 of a port A data read, step 3 of a port B data write: the strobe, in strobe mode only (40 R104, R111). -/
def strobeIfArmed (n : Nat) (p : PortId) (s : State) : Answer :=
  if strobes (s.port n p).ctl then strobe (driveFrom n s) n p s else .next s

/-- RD.DDR_A (40 R102). -/
def regReadDdrA (n : Nat) (s : State) : ReadAnswer := readDdr n .a s

/-- RD.DDR_B (40 R103). -/
def regReadDdrB (n : Nat) (s : State) : ReadAnswer := readDdr n .b s

/-- RD.DATA_A (40 R104): the read-strobe is port A's. -/
def regReadDataA (n : Nat) (s : State) : ReadAnswer :=
  andThen (readDataCommon n .a s) fun r => andThen (strobeIfArmed n .a r.1) fun s3 => .next (s3, r.2)

/-- RD.DATA_B (40 R105): never a strobe. -/
def regReadDataB (n : Nat) (s : State) : ReadAnswer := readDataCommon n .b s

/-- A control line is sampled if its source is bound (40 R108 steps 1, 2); a numeric answer reads non-zero as 1 (D41). -/
def sampleBound (n : Nat) (l : Line) (source : Option Nat) (s : State) : Answer :=
  match source with
  | none => .next s
  | some _ =>
    let (x, s1) := drawSample s
    setLine (driveFrom n s1) n l (x != 0) s1

/-- A control read (40 R108, R113): the port's two lines are sampled, C1 first, then the byte is formed. -/
def readCtl (n : Nat) (c1 c2 : Line) (s : State) : ReadAnswer :=
  andThen (sampleBound n c1 (s.pins n (linePort c1)).inC1 s) fun s1 =>
    andThen (sampleBound n c2 (s1.pins n (linePort c2)).inC2 s1) fun s2 =>
      .next (s2, ctlView (s2.port n (linePort c1)))

/-- RD.CTL_A (40 R108). -/
def regReadCtlA (n : Nat) (s : State) : ReadAnswer := readCtl n .ca1 .ca2 s

/-- RD.CTL_B (40 R113). -/
def regReadCtlB (n : Nat) (s : State) : ReadAnswer := readCtl n .cb1 .cb2 s

/-! ### Writes of a register (40 R106, R107, R109, R111, R112, R114) -/

/-- The port's output sink is driven with the masked output byte unless every pin is an input (40 R106 step 2, R107 step 3). -/
def driveOutput (n : Nat) (p : PortId) (s : State) : Answer :=
  let q := s.port n p
  if q.ddr = 0 then .next s else driveFrom n s (s.pins n p).outPort (.byte (q.out &&& q.ddr)) s

/-- A data write: the raw byte is stored, the port driven (40 R106). -/
def writeOut (n : Nat) (p : PortId) (data : Byte) (s : State) : Answer :=
  driveOutput n p (s.setPort n p fun q => { q with out := data })

/-- A direction write: nothing where the mask does not change (40 R107, R112). -/
def writeDdr (n : Nat) (p : PortId) (data : Byte) (s : State) : Answer :=
  if data = (s.port n p).ddr then .next s else driveOutput n p (s.setPort n p fun q => { q with ddr := data })

/-- A control write: C2 is moved first if the new value makes it an output, then the value is stored, then the aggregate
recomputed (40 R109, R114). -/
def writeCtl (n : Nat) (p : PortId) (data : Byte) (s : State) : Answer :=
  let d := ctlOfData data
  andThen (if c2Output d then moveC2 (driveFrom n s) n p (setC2 d) s else .next s) fun s1 =>
    updateIrq (driveFrom n s1) n p (s1.setPort n p fun q => { q with ctl := d })

/-- WR.DATA_A (40 R106): never a strobe. -/
def regWriteDataA (n : Nat) (data : Byte) (s : State) : Answer := writeOut n .a data s

/-- WR.DDR_A (40 R107). -/
def regWriteDdrA (n : Nat) (data : Byte) (s : State) : Answer := writeDdr n .a data s

/-- WR.CTL_A (40 R109). -/
def regWriteCtlA (n : Nat) (data : Byte) (s : State) : Answer := writeCtl n .a data s

/-- WR.DATA_B (40 R111): the byte is driven, then the write-strobe. -/
def regWriteDataB (n : Nat) (data : Byte) (s : State) : Answer :=
  andThen (writeOut n .b data s) fun s1 => strobeIfArmed n .b s1

/-- WR.DDR_B (40 R112). -/
def regWriteDdrB (n : Nat) (data : Byte) (s : State) : Answer := writeDdr n .b data s

/-- WR.CTL_B (40 R114). -/
def regWriteCtlB (n : Nat) (data : Byte) (s : State) : Answer := writeCtl n .b data s

/-! ### The access path (20 R62, 30 R81) -/

/-- The register operation a key selects for a read (30 R81). -/
def regRead (op : ReadOp) (n : Nat) (s : State) : ReadAnswer :=
  match op with
  | .ddrA => regReadDdrA n s
  | .dataA => regReadDataA n s
  | .ctlA => regReadCtlA n s
  | .ddrB => regReadDdrB n s
  | .dataB => regReadDataB n s
  | .ctlB => regReadCtlB n s

/-- The register operation a key selects for a write (30 R81). -/
def regWrite (op : WriteOp) (n : Nat) (data : Byte) (s : State) : Answer :=
  match op with
  | .ddrA => regWriteDdrA n data s
  | .dataA => regWriteDataA n data s
  | .ctlA => regWriteCtlA n data s
  | .ddrB => regWriteDdrB n data s
  | .dataB => regWriteDataB n data s
  | .ctlB => regWriteCtlB n data s

/-- The slot of chip `n` a raw offset reaches. -/
def State.slot (s : State) (n off : Nat) : Slot := slotAt (s.chip n).addressing off

/-- `ctl_P[2]` of the slot's port at the start of the access: the select bit of the key (30 R81). -/
def State.select (s : State) (n : Nat) (slot : Slot) : Bool := outputSelected (s.port n slot.port).ctl

/-- The key of a read of chip `n` at a raw offset (30 R81). -/
def State.readKeyAt (s : State) (n off : Nat) : ReadOp := readKey (s.slot n off) (s.select n (s.slot n off))

/-- The key of a write of chip `n` at a raw offset (30 R81). -/
def State.writeKeyAt (s : State) (n off : Nat) : WriteOp := writeKey (s.slot n off) (s.select n (s.slot n off))

/-- The read operation of the slot reached, with all its side effects (20 R62 steps 3, 4). -/
def readSlot (n off : Nat) (s : State) : ReadAnswer := regRead (s.readKeyAt n off) n s

/-- The write operation of the slot reached (20 R62 steps 4, 5). -/
def writeSlot (n off : Nat) (data : Byte) (s : State) : Answer := regWrite (s.writeKeyAt n off) n data s

/-- The byte of a read reaches an 8-bit bus. -/
def giveByte (r : State × Byte) : Answer := .next { r.1 with result := .byte r.2 }

/-- The byte of a read reaches a 16-bit bus on the lanes of a mode (20 R67). -/
def giveLanes (bus : BusMode) (r : State × Byte) : Answer := .next { r.1 with result := .word (readLanes bus r.2) }

/-- `MemRead(c, off, 1)` (20 R62) for a row whose own register operation is `own`: it is performed where the key is the row's,
and the one the key selects elsewhere (log 3). -/
def busRead (op : ReadOp) (own : Nat → State → ReadAnswer) (c : Int) (off : Nat) (s : State) : Answer :=
  match s.chipIndex c with
  | none => .next (drawOpenBus s)
  | some n =>
    if (s.chip n).addressing.bus = .b8 then
      andThen (if s.readKeyAt n off = op then own n s else readSlot n off s) giveByte
    else .refused .widthMismatch

/-- `MemWrite(c, off, 1, data)` (20 R62), likewise. -/
def busWrite (op : WriteOp) (own : Nat → Byte → State → Answer) (c : Int) (off : Nat) (data : Byte) (s : State) : Answer :=
  match s.chipIndex c with
  | none => .next s
  | some n =>
    if (s.chip n).addressing.bus = .b8 then
      if s.writeKeyAt n off = op then own n data s else writeSlot n off data s
    else .refused .widthMismatch

/-- `MemRead(c, off, 2)` (20 R62) for a row of lane mode `lane`, whose lane placement is `place`: the chip's mode decides
(log 4); a chip on the 8-bit bus refuses it (20 R71). -/
def busRead16 (lane : BusMode) (place : Byte → Word16) (c : Int) (off : Nat) (s : State) : Answer :=
  match s.chipIndex c with
  | none => .next (drawOpenBusWord s)
  | some n =>
    let bus := (s.chip n).addressing.bus
    if bus = .b8 then .refused .widthMismatch
    else
      andThen (readSlot n off s) fun r =>
        if bus = lane then .next { r.1 with result := .word (place r.2) } else giveLanes bus r

/-- `MemWrite(c, off, 2, w)` (20 R62), likewise: the lane is decided before any register is touched, and a dropped write has
no effect at all (20 R66). -/
def busWrite16 (lane : BusMode) (pick : AutosenseZero → Word16 → Option Byte) (c : Int) (off : Nat) (w : Word16) (s : State) :
    Answer :=
  match s.chipIndex c with
  | none => .next s
  | some n =>
    let bus := (s.chip n).addressing.bus
    if bus = .b8 then .refused .widthMismatch
    else
      match (if bus = lane then pick s.autosenseZero w else writeLane s.autosenseZero bus w) with
      | none => .next s
      | some d => writeSlot n off d s

/-! ### The rows of family 0 -/

/-- RD.DDR_A (40 R102). -/
def execRdDdrA (c : Int) (off : Nat) (s : State) : Answer := busRead .ddrA regReadDdrA c off s

/-- RD.DATA_A (40 R104). -/
def execRdDataA (c : Int) (off : Nat) (s : State) : Answer := busRead .dataA regReadDataA c off s

/-- RD.CTL_A (40 R108). -/
def execRdCtlA (c : Int) (off : Nat) (s : State) : Answer := busRead .ctlA regReadCtlA c off s

/-- RD.DDR_B (40 R103). -/
def execRdDdrB (c : Int) (off : Nat) (s : State) : Answer := busRead .ddrB regReadDdrB c off s

/-- RD.DATA_B (40 R105). -/
def execRdDataB (c : Int) (off : Nat) (s : State) : Answer := busRead .dataB regReadDataB c off s

/-- RD.CTL_B (40 R113). -/
def execRdCtlB (c : Int) (off : Nat) (s : State) : Answer := busRead .ctlB regReadCtlB c off s

/-- WR.DDR_A (40 R107). -/
def execWrDdrA (c : Int) (off : Nat) (data : Byte) (s : State) : Answer := busWrite .ddrA regWriteDdrA c off data s

/-- WR.DATA_A (40 R106). -/
def execWrDataA (c : Int) (off : Nat) (data : Byte) (s : State) : Answer := busWrite .dataA regWriteDataA c off data s

/-- WR.CTL_A (40 R109). -/
def execWrCtlA (c : Int) (off : Nat) (data : Byte) (s : State) : Answer := busWrite .ctlA regWriteCtlA c off data s

/-- WR.DDR_B (40 R112). -/
def execWrDdrB (c : Int) (off : Nat) (data : Byte) (s : State) : Answer := busWrite .ddrB regWriteDdrB c off data s

/-- WR.DATA_B (40 R111). -/
def execWrDataB (c : Int) (off : Nat) (data : Byte) (s : State) : Answer := busWrite .dataB regWriteDataB c off data s

/-- WR.CTL_B (40 R114). -/
def execWrCtlB (c : Int) (off : Nat) (data : Byte) (s : State) : Answer := busWrite .ctlB regWriteCtlB c off data s

/-! ### The rows of family 1 -/

/-- RD16.L (40 R115): the byte on bits 7:0. -/
def execRd16L (c : Int) (off : Nat) (s : State) : Answer := busRead16 .b16Lower (fun b => b.zeroExtend 16) c off s

/-- RD16.U (40 R116): the byte on bits 15:8. -/
def execRd16U (c : Int) (off : Nat) (s : State) : Answer := busRead16 .b16Upper (fun b => b ++ (0 : Byte)) c off s

/-- RD16.A (40 R117): the byte on both lanes. -/
def execRd16A (c : Int) (off : Nat) (s : State) : Answer := busRead16 .b16Auto (fun b => b ++ b) c off s

/-- WR16.L (40 R118): the low byte; the high byte is ignored. -/
def execWr16L (c : Int) (off : Nat) (data : Word16) (s : State) : Answer :=
  busWrite16 .b16Lower (fun _ w => some (lowByte w)) c off data s

/-- WR16.U (40 R119): the high byte; the low byte is ignored. -/
def execWr16U (c : Int) (off : Nat) (data : Word16) (s : State) : Answer :=
  busWrite16 .b16Upper (fun _ w => some (highByte w)) c off data s

/-- WR16.A (40 R120): the populated half; dropped where both are. -/
def execWr16A (c : Int) (off : Nat) (data : Word16) (s : State) : Answer := busWrite16 .b16Auto autosense c off data s

end Sys2Proof.Machine
end

