-- ==== Sys2Proof/Machine/CpuIrq.lean ====
section
/-! DEFINITION. The CPU interrupt adapter (44 R170 to R177). A CPU that does not exist makes every operation a no-op (44 R177). -/

namespace Sys2Proof.Machine

/-- ASSERT (44 R171). -/
def execAssertLine (i : Int) (kind : Kind) (s : State) : Answer := .next (setLevel i kind true s)

/-- CLEAR (44 R172): a pending pulse request stays. -/
def execClearLine (i : Int) (kind : Kind) (s : State) : Answer := .next (setLevel i kind false s)

/-- PULSE (44 R173). -/
def execPulse (i : Int) (kind : Kind) (s : State) : Answer := .next (setPulse i kind true s)

/-- TAKE (44 R175): the CPU runs and its request is pending, else there is no step (log 16). -/
def execTake (i : Int) (kind : Kind) (s : State) : Answer :=
  match s.cpuIndex i with
  | none => .next s
  | some n =>
    if (s.cpu n).wait ≠ .running then .refused .suspendedCpu
    else if pulseOf (s.cpu n) kind then .next (setPulse i kind false s)
    else .refused .noPulse

end Sys2Proof.Machine
end

