-- ==== Sys2Proof/Machine/EdgeLatch.lean ====
section
/-! DEFINITION. The control-line samples an agent presents (41 R130 to R134). -/

namespace Sys2Proof.Machine

/-- LINE.CA1 (41 R131). -/
def execLineCa1 (c : Int) (level : Bool) (s : State) : Answer := presentLine c .ca1 level s

/-- LINE.CA2 (41 R132). -/
def execLineCa2 (c : Int) (level : Bool) (s : State) : Answer := presentLine c .ca2 level s

/-- LINE.CB1 (41 R133). -/
def execLineCb1 (c : Int) (level : Bool) (s : State) : Answer := presentLine c .cb1 level s

/-- LINE.CB2 (41 R134). -/
def execLineCb2 (c : Int) (level : Bool) (s : State) : Answer := presentLine c .cb2 level s

end Sys2Proof.Machine
end

