-- ==== Sys2Proof/Machine/Lifecycle.lean ====
section
/-! DEFINITION. The lifecycle operations (45 R180 to R185). None drives or samples; none touches the scheduler, the adapter or
the trace (45 R185). -/

namespace Sys2Proof.Machine

/-- CONFIGURE (45 R180): `interface`, `addressing` and `configured` only. -/
def execConfigure (c : Int) (addressing : Addressing) (intf : Interface) (s : State) : Answer :=
  match s.chipIndex c with
  | none => .next s
  | some n =>
    .next { s with
      chips := s.chips.modify n fun ch => { ch with intf := intf, addressing := addressing, configured := true } }

/-- One slot of RESET_ALL (45 R182). -/
def resetChip (ch : Chip) : Chip := { ch with a := Port.zero, b := Port.zero }

/-- RESET_ALL (45 R182). -/
def execResetAll (s : State) : Answer := .next { s with chips := s.chips.map resetChip }

/-- One slot of UNCONFIGURE_ALL (45 R183). -/
def unconfigureChip (ch : Chip) : Chip :=
  { resetChip ch with intf := unbound, addressing := ⟨.standard, .b8⟩, configured := false }

/-- UNCONFIGURE_ALL (45 R183). -/
def execUnconfigureAll (s : State) : Answer := .next { s with chips := s.chips.map unconfigureChip }

end Sys2Proof.Machine
end

