-- ==== Sys2Proof/Machine/Scheduler.lean ====
section
/-! DEFINITION. The trigger and deferred-event scheduler (43 R150 to R163). An operation whose precondition fails has no step:
it is refused by name (log 16). -/

namespace Sys2Proof.Machine

/-- SCHED (43 R151). -/
def execSched (id : Int) (delay : Nat) (s : State) : Answer := .next (armTimeout id delay s)

/-- FIRE (43 R152). -/
def execFire (id : Int) (s : State) : Answer := .next (fireTrigger id s)

/-- What a CPU's own call needs: the CPU exists and runs (43 R153, R154, R155). -/
def whenRunning (i : Int) (f : Nat → State → Answer) (s : State) : Answer :=
  match s.cpuIndex i with
  | none => .refused .noSuchCpu
  | some n => if (s.cpu n).wait = .running then f n s else .refused .suspendedCpu

/-- The body of YIELD (43 R153). -/
def suspendOn (id : Int) (n : Nat) (s : State) : Answer :=
  .next { setWait n (.onTrigger id) s with waiters := pairInsert (id, n) s.waiters }

/-- YIELD (43 R153). -/
def execYieldOn (i : Int) (id : Int) (s : State) : Answer := whenRunning i (suspendOn id) s

/-- YIELDT (43 R154). -/
def execYieldT (i : Int) (deadline : Nat) (s : State) : Answer :=
  whenRunning i (fun n s => .next (setWait n (.untilTime deadline) s)) s

/-- The deadline of a timed wait, if the CPU is in one. -/
def deadlineOf (q : Cpu) : Option Nat :=
  match q.wait with
  | .untilTime t => some t
  | .running => none
  | .onTrigger _ => none

/-- The pending deadlines (43 R156): every pending timeout, and every timed wait. -/
def State.deadlines (s : State) : List Nat := s.timeout.map (·.2) ++ s.cpus.filterMap deadlineOf

/-- A CPU without its pulse requests (43 R156 step 2). -/
def dropPulses (q : Cpu) : Cpu := { q with pulseM := false, pulseF := false }

/-- ADV (43 R156): enabled only where no pending deadline is passed; pulse requests do not outlive the tick (44 R174). -/
def execAdv (dt : Nat) (s : State) : Answer :=
  if dt = 0 then .refused .zeroAdvance
  else if s.deadlines.all fun d => s.now + dt ≤ d then
    .next { s with now := s.now + dt, cpus := s.cpus.map dropPulses }
  else .refused .clockPastDeadline

/-- EXPIRE (43 R157). -/
def execExpire (id : Int) (s : State) : Answer :=
  match mapGet id s.timeout with
  | none => .refused .expireNotDue
  | some d => if d ≤ s.now then .next (fireTrigger id s) else .refused .expireNotDue

/-- WAKE (43 R158). -/
def execWake (i : Int) (s : State) : Answer :=
  match s.cpuIndex i with
  | none => .refused .noSuchCpu
  | some n =>
    match deadlineOf (s.cpu n) with
    | none => .refused .wakeNotDue
    | some t => if t ≤ s.now then .next (setWait n .running s) else .refused .wakeNotDue

end Sys2Proof.Machine
end

