-- ==== Sys2Proof/Machine/Dispatch.lean ====
section
/-! DEFINITION. The meaning of every operation: one arm per constructor of `Instr`. -/

namespace Sys2Proof.Machine

-- Applies operation `i` to the state, atomically and with every cascaded effect (20 R70, R72).
def exec (i : Instr) (s : State) : Host.Outcome State Fault Refusal :=
  match i with
  | .rdDdrA c off => Sys2Proof.Machine.execRdDdrA c off s
  | .rdDataA c off => Sys2Proof.Machine.execRdDataA c off s
  | .rdCtlA c off => Sys2Proof.Machine.execRdCtlA c off s
  | .rdDdrB c off => Sys2Proof.Machine.execRdDdrB c off s
  | .rdDataB c off => Sys2Proof.Machine.execRdDataB c off s
  | .rdCtlB c off => Sys2Proof.Machine.execRdCtlB c off s
  | .wrDdrA c off data => Sys2Proof.Machine.execWrDdrA c off data s
  | .wrDataA c off data => Sys2Proof.Machine.execWrDataA c off data s
  | .wrCtlA c off data => Sys2Proof.Machine.execWrCtlA c off data s
  | .wrDdrB c off data => Sys2Proof.Machine.execWrDdrB c off data s
  | .wrDataB c off data => Sys2Proof.Machine.execWrDataB c off data s
  | .wrCtlB c off data => Sys2Proof.Machine.execWrCtlB c off data s
  | .rd16L c off => Sys2Proof.Machine.execRd16L c off s
  | .rd16U c off => Sys2Proof.Machine.execRd16U c off s
  | .rd16A c off => Sys2Proof.Machine.execRd16A c off s
  | .wr16L c off data => Sys2Proof.Machine.execWr16L c off data s
  | .wr16U c off data => Sys2Proof.Machine.execWr16U c off data s
  | .wr16A c off data => Sys2Proof.Machine.execWr16A c off data s
  | .lineCa1 c level => Sys2Proof.Machine.execLineCa1 c level s
  | .lineCa2 c level => Sys2Proof.Machine.execLineCa2 c level s
  | .lineCb1 c level => Sys2Proof.Machine.execLineCb1 c level s
  | .lineCb2 c level => Sys2Proof.Machine.execLineCb2 c level s
  | .sched id delay => Sys2Proof.Machine.execSched id delay s
  | .fire id => Sys2Proof.Machine.execFire id s
  | .yieldOn who id => Sys2Proof.Machine.execYieldOn who id s
  | .yieldT who deadline => Sys2Proof.Machine.execYieldT who deadline s
  | .adv dt => Sys2Proof.Machine.execAdv dt s
  | .expire id => Sys2Proof.Machine.execExpire id s
  | .wake who => Sys2Proof.Machine.execWake who s
  | .assertLine who kind => Sys2Proof.Machine.execAssertLine who kind s
  | .clearLine who kind => Sys2Proof.Machine.execClearLine who kind s
  | .pulse who kind => Sys2Proof.Machine.execPulse who kind s
  | .take who kind => Sys2Proof.Machine.execTake who kind s
  | .configure c addressing intf => Sys2Proof.Machine.execConfigure c addressing intf s
  | .resetAll => Sys2Proof.Machine.execResetAll s
  | .unconfigureAll => Sys2Proof.Machine.execUnconfigureAll s

end Sys2Proof.Machine
end

