-- ==== Sys2Proof/Machine/Fetch.lean ====
section
/-! DEFINITION. Where the next operation comes from: the queue of presented operations (log 1), and who may present one. -/

namespace Sys2Proof.Machine

/-- Why an agent may not present an operation now: a virtual CPU presents operations only while it runs; "Routes, the
environment, the clock agent and the host are never suspended" (43 R155; the only per-agent restriction, 60 R210; log 17). -/
def State.barred (s : State) (who : Agent) : Option Refusal :=
  match who with
  | .cpu i =>
    match s.cpuIndex i with
    | none => some .noSuchCpu
    | some n => if (s.cpu n).wait = .running then none else some .suspendedCpu
  | .environment => none
  | .clock => none
  | .host => none

/-- The state with the queue's head taken. -/
def State.took (s : State) : State := { s with inbox := s.inbox.tail }

/-- An agent presents an operation: its bytes join the head of the queue, to be the very next one. -/
def State.presented (s : State) (who : Agent) (bytes : List Byte) : State := { s with inbox := ⟨who, bytes⟩ :: s.inbox }

end Sys2Proof.Machine
end

