-- ==== Sys2Proof/Machine/Step.lean ====
section
/-! DEFINITION. One step of the machine: the next presented operation is taken from the queue, decoded and applied. -/

namespace Sys2Proof.Machine

/-- One step (00 R13, R72 of 20_memory.md; log 1). With nothing presented the block is at rest: "no rule runs by itself", and
the state stays. An operation presented by an agent that may not act, or bytes that name no operation, have no step. -/
def step (s : State) : Host.Outcome State Fault Refusal :=
  match s.inbox with
  | [] => .next s
  | p :: _ =>
    match s.barred p.agent with
    | some r => .refused r
    | none =>
      match decode p.bytes with
      | .error e => .refused (.undecodable e)
      | .ok (i, _) => exec i s.took

/-- `s` with the operation of a table word presented next, by the host, which is never suspended (log 1). -/
def State.withFetchWord (s : State) (nbits w : Nat) : State := s.presented .host (tableBytes nbits w)

end Sys2Proof.Machine
end

