-- ==== Sys2Proof/Machine/Pseudo.lean ====
section
/-! DEFINITION. The pseudo-operations of 30 R88: "each is exactly the sequence shown, with no atomicity beyond that of its
members". -/

namespace Sys2Proof.Machine

/-- `SETDDR c, P, mask, ctl` on a chip of the addressing `m`: select the direction register, write the mask, select the
output register. -/
def setDdr (m : Addressing) (c : Int) (p : PortId) (mask ctl : Byte) : List Instr :=
  match p with
  | .a =>
    [.wrCtlA c (offsetOf m .ctlA) (ctl &&& 0xFB), .wrDdrA c (offsetOf m .dataA) mask,
      .wrCtlA c (offsetOf m .ctlA) (ctl ||| 0x04)]
  | .b =>
    [.wrCtlB c (offsetOf m .ctlB) (ctl &&& 0xFB), .wrDdrB c (offsetOf m .dataB) mask,
      .wrCtlB c (offsetOf m .ctlB) (ctl ||| 0x04)]

/-- `WDWAIT i, id, delay`: the watchdog wait. -/
def wdWait (i : Int) (id : Int) (delay : Nat) : List Instr := [.sched id delay, .yieldOn i id]

end Sys2Proof.Machine
end

