-- ==== Sys2Proof/Safety.lean ====
section
/-! DEFINITION. The terms the claims use: the ends of a run (00 R13), the invariants of the state (10 R36, R38), the wirings
(46 R193, R194), and what an operation leaves in a port. -/

namespace Sys2Proof.Machine

/-! ### Ends of a run (00 R13, 70 R239) -/

/-- No CPU is suspended, no timeout is pending and no pulse request is waiting (00 R13). -/
def State.settled (s : State) : Bool :=
  s.timeout.isEmpty && s.cpus.all fun q => q.wait == .running && !q.pulseM && !q.pulseF

/-- CPU `n` waits on a trigger with no timeout pending: only an explicit fire resumes it (43 R153, 70 R239). -/
def State.unguarded (s : State) (n : Nat) (id : Int) : Prop :=
  n < s.cpus.length ∧ (s.cpu n).wait = .onTrigger id ∧ mapGet id s.timeout = none

/-! ### Invariants -/

/-- A port's stored aggregate equals its aggregate (10 R36). -/
def portConsistent (q : Port) : Prop := q.irqState = aggregate q

/-- Every port of every chip is consistent (10 R36). -/
def State.aggregatesConsistent (s : State) : Prop := ∀ ch ∈ s.chips, portConsistent ch.a ∧ portConsistent ch.b

/-- A slot that was never configured since the last UNCONFIGURE_ALL has no binding and the all-zero addressing (10 R34,
45 R181, R183). -/
def State.unconfiguredBlank (s : State) : Prop :=
  ∀ ch ∈ s.chips, ch.configured = false → ch.intf = unbound ∧ ch.addressing = ⟨.standard, .b8⟩

/-- At most one pending deadline per trigger id (10 R38), in the canonical form: ids strictly rising (log 21). -/
def State.timeoutsCanonical (s : State) : Prop := s.timeout.Pairwise fun x y => x.1 < y.1

/-- The waiter sets in their canonical form: the pairs (id, cpu) strictly rising (log 21). -/
def State.waitersCanonical (s : State) : Prop := s.waiters.Pairwise fun x y => pairLt x y = true

/-- CPU `n` is in `waiters[id]` exactly when it exists and waits on `id` (10 R38, R40; 43 R153). -/
def State.waitersMatch (s : State) : Prop :=
  ∀ id n, (id, n) ∈ s.waiters ↔ n < s.cpus.length ∧ (s.cpu n).wait = .onTrigger id

/-- No pending timeout lies in the past: "time cannot jump over a deadline" (43 R156). -/
def State.timeoutsAhead (s : State) : Prop := ∀ e ∈ s.timeout, s.now ≤ e.2

/-- The invariants together. -/
structure State.Inv (s : State) : Prop where
  aggregates : s.aggregatesConsistent
  unconfigured : s.unconfiguredBlank
  timeouts : s.timeoutsCanonical
  waiters : s.waitersCanonical
  waits : s.waitersMatch
  ahead : s.timeoutsAhead

/-! ### Wirings (46 R193, R194) -/

/-- The action delivers a line sample to an existing chip: to which. -/
def lineTarget (nChips : Nat) : Action → Option Nat
  | .line c _ _ => indexIn nChips c
  | .assertLine .. | .clearLine .. | .pulse .. | .fire .. | .sched .. => none

/-- No route delivers a line sample to a chip: every routed action acts on the adapter or the scheduler. -/
def State.noLineRoutes (s : State) : Bool :=
  s.routes.all fun e => e.actions.all fun x => (lineTarget s.chips.length x).isNone

/-- The sinks bound by a chip (10 R32). -/
def sinksOf (ch : Chip) : List Nat :=
  ch.intf.a.byteSinks ++ ch.intf.a.levelSinks ++ ch.intf.b.byteSinks ++ ch.intf.b.levelSinks

/-- Every line sample that a sink of a chip leads to is for a chip of a higher rank: a wiring without a cycle, which cannot lead
back to a chip in progress (46 R193, 70 R246). With chips ranked by number, the wiring of the spec's handshake from chip 0 to
chip 1 is one (46 R196). -/
def State.upwardWiring (s : State) (rank : Nat → Nat) : Bool :=
  (List.range s.chips.length).all fun n =>
    (sinksOf (s.chip n)).all fun k =>
      s.routes.all fun e =>
        e.sink != k || e.actions.all fun x =>
          match lineTarget s.chips.length x with
          | none => true
          | some m => decide (rank n < rank m)

/-- A routed action on the adapter or the scheduler (46 R194); a line sample of a chip that does not exist is a no-op. -/
def plainAction (s : State) : Action → State
  | .line .. => s
  | .assertLine i kind => setLevel i kind true s
  | .clearLine i kind => setLevel i kind false s
  | .pulse i kind => setPulse i kind true s
  | .fire id => fireTrigger id s
  | .sched id delay => armTimeout id delay s

/-- A drive event under a wiring without line routes: it joins the trace, and its routed actions are performed (46 R192). -/
def State.emit (s : State) (e : Event) : State :=
  (routeOf e.sink e.value s.routes).foldl plainAction { s with trace := s.trace ++ [e] }

/-- Several drive events, in order. -/
def State.emitAll (s : State) (es : List Event) : State := es.foldl State.emit s

/-- The drive event on a binding: none on an absent one (46 R192). -/
def eventOn (b : Option Nat) (v : SinkValue) : List Event :=
  match b with
  | none => []
  | some k => [⟨k, v⟩]

/-- The drive event of `UpdateIrq`: where the aggregate changes, the bound line is driven with the OR of its participants'
stored aggregates in `chips` (42 R141, R142). -/
def irqEvent (old new : Bool) (b : Option Nat) (chips : List Chip) : List Event :=
  match b with
  | none => []
  | some k => if old = new then [] else [⟨k, .level (wireLevel k chips)⟩]

/-! ### What an operation leaves in a port -/

/-- A port after a control write (40 R109). -/
def afterCtlWrite (data : Byte) (q : Port) : Port :=
  let d := ctlOfData data
  let q1 := { q with ctl := d, outC2 := if c2Output d then setC2 d else q.outC2 }
  { q1 with irqState := aggregate q1 }

/-- A port after a data read has cleared its flags: the aggregate is false (40 R104 step 3). -/
def afterClear (q : Port) : Port := { q with irq1 := false, irq2 := false, irqState := false }

/-- A port after its strobe: C2 ends high with E-reset, low without (40 R110). -/
def afterStrobe (q : Port) : Port := { q with outC2 := strobeEReset q.ctl }

/-- The drive events of the strobe: 0 if C2 was high; then 1 with E-reset (40 R110). -/
def strobeEvents (b : Option Nat) (q : Port) : List Event :=
  (if q.outC2 then eventOn b (.level false) else []) ++ if strobeEReset q.ctl then eventOn b (.level true) else []

/-- A port after a sample of its C1 line (41 R131). -/
def afterC1 (v : Bool) (q : Port) : Port :=
  if armedEdge (c1LowToHigh q.ctl) q.inC1 v then
    let q1 := { q with irq1 := true }
    { q1 with irqState := aggregate q1, outC2 := restoredByC1 q.ctl || q.outC2, inC1 := v }
  else { q with inC1 := v }

/-- The drive events of a C1 restore: 1 if C2 was low (41 R131 steps 5, 6). -/
def restoreEvents (v : Bool) (b : Option Nat) (q : Port) : List Event :=
  if armedEdge (c1LowToHigh q.ctl) q.inC1 v && restoredByC1 q.ctl && !q.outC2 then eventOn b (.level true) else []

/-- A port after a sample of its C2 line (41 R132). -/
def afterC2 (v : Bool) (q : Port) : Port :=
  if c2Input q.ctl && armedEdge (c2LowToHigh q.ctl) q.inC2 v then
    let q1 := { q with irq2 := true }
    { q1 with irqState := aggregate q1, inC2 := v }
  else { q with inC2 := v }

/-! ### Which register operation a bus access performs (30 R81) -/

/-- The chip and the raw offset of a bus read, on either bus. -/
def readAccess : Instr → Option (Int × Nat)
  | .rdDdrA c off | .rdDataA c off | .rdCtlA c off | .rdDdrB c off | .rdDataB c off | .rdCtlB c off => some (c, off)
  | .rd16L c off | .rd16U c off | .rd16A c off => some (c, off)
  | .wrDdrA .. | .wrDataA .. | .wrCtlA .. | .wrDdrB .. | .wrDataB .. | .wrCtlB .. => none
  | .wr16L .. | .wr16U .. | .wr16A .. => none
  | .lineCa1 .. | .lineCa2 .. | .lineCb1 .. | .lineCb2 .. => none
  | .sched .. | .fire .. | .yieldOn .. | .yieldT .. | .adv .. | .expire .. | .wake .. => none
  | .assertLine .. | .clearLine .. | .pulse .. | .take .. => none
  | .configure .. | .resetAll | .unconfigureAll => none

/-- The chip and the raw offset of a bus write, on either bus. -/
def writeAccess : Instr → Option (Int × Nat)
  | .wrDdrA c off _ | .wrDataA c off _ | .wrCtlA c off _ | .wrDdrB c off _ | .wrDataB c off _ | .wrCtlB c off _ =>
    some (c, off)
  | .wr16L c off _ | .wr16U c off _ | .wr16A c off _ => some (c, off)
  | .rdDdrA .. | .rdDataA .. | .rdCtlA .. | .rdDdrB .. | .rdDataB .. | .rdCtlB .. => none
  | .rd16L .. | .rd16U .. | .rd16A .. => none
  | .lineCa1 .. | .lineCa2 .. | .lineCb1 .. | .lineCb2 .. => none
  | .sched .. | .fire .. | .yieldOn .. | .yieldT .. | .adv .. | .expire .. | .wake .. => none
  | .assertLine .. | .clearLine .. | .pulse .. | .take .. => none
  | .configure .. | .resetAll | .unconfigureAll => none

/-- The operation is a row of family 0: a bus access of one byte (30 R85). -/
def isByteAccess : Instr → Bool
  | .rdDdrA .. | .rdDataA .. | .rdCtlA .. | .rdDdrB .. | .rdDataB .. | .rdCtlB .. => true
  | .wrDdrA .. | .wrDataA .. | .wrCtlA .. | .wrDdrB .. | .wrDataB .. | .wrCtlB .. => true
  | .rd16L .. | .rd16U .. | .rd16A .. | .wr16L .. | .wr16U .. | .wr16A .. => false
  | .lineCa1 .. | .lineCa2 .. | .lineCb1 .. | .lineCb2 .. => false
  | .sched .. | .fire .. | .yieldOn .. | .yieldT .. | .adv .. | .expire .. | .wake .. => false
  | .assertLine .. | .clearLine .. | .pulse .. | .take .. => false
  | .configure .. | .resetAll | .unconfigureAll => false

/-- The operation is a control-line sample (30 R85 family 2). -/
def isLineSample : Instr → Bool
  | .lineCa1 .. | .lineCa2 .. | .lineCb1 .. | .lineCb2 .. => true
  | .rdDdrA .. | .rdDataA .. | .rdCtlA .. | .rdDdrB .. | .rdDataB .. | .rdCtlB .. => false
  | .wrDdrA .. | .wrDataA .. | .wrCtlA .. | .wrDdrB .. | .wrDataB .. | .wrCtlB .. => false
  | .rd16L .. | .rd16U .. | .rd16A .. | .wr16L .. | .wr16U .. | .wr16A .. => false
  | .sched .. | .fire .. | .yieldOn .. | .yieldT .. | .adv .. | .expire .. | .wake .. => false
  | .assertLine .. | .clearLine .. | .pulse .. | .take .. => false
  | .configure .. | .resetAll | .unconfigureAll => false

/-- The operation reads register `op` of chip `n`: it is a bus read of that chip whose key is `op`. -/
def State.reads (s : State) (i : Instr) (n : Nat) (op : ReadOp) : Prop :=
  ∃ c off, readAccess i = some (c, off) ∧ s.chipIndex c = some n ∧ s.readKeyAt n off = op

/-- The operation writes register `op` of chip `n`: it is a bus write of that chip whose key is `op`. -/
def State.writes (s : State) (i : Instr) (n : Nat) (op : WriteOp) : Prop :=
  ∃ c off, writeAccess i = some (c, off) ∧ s.chipIndex c = some n ∧ s.writeKeyAt n off = op

/-- The key of a data read of a port (40 R104, R105). -/
def dataReadOf : PortId → ReadOp
  | .a => .dataA
  | .b => .dataB

/-- The key of a direction read of a port (40 R102, R103). -/
def ddrReadOf : PortId → ReadOp
  | .a => .ddrA
  | .b => .ddrB

/-- The key of a control read of a port (40 R108, R113). -/
def ctlReadOf : PortId → ReadOp
  | .a => .ctlA
  | .b => .ctlB

/-- The key of a data write of a port (40 R106, R111). -/
def dataWriteOf : PortId → WriteOp
  | .a => .dataA
  | .b => .dataB

/-- The key of a direction write of a port (40 R107, R112). -/
def ddrWriteOf : PortId → WriteOp
  | .a => .ddrA
  | .b => .ddrB

/-- The key of a control write of a port (40 R109, R114). -/
def ctlWriteOf : PortId → WriteOp
  | .a => .ctlA
  | .b => .ctlB

/-- RESET_ALL or UNCONFIGURE_ALL: the operations that zero every chip (45 R182, R183). -/
def zeroesChips : Instr → Bool
  | .resetAll | .unconfigureAll => true
  | .rdDdrA .. | .rdDataA .. | .rdCtlA .. | .rdDdrB .. | .rdDataB .. | .rdCtlB .. => false
  | .wrDdrA .. | .wrDataA .. | .wrCtlA .. | .wrDdrB .. | .wrDataB .. | .wrCtlB .. => false
  | .rd16L .. | .rd16U .. | .rd16A .. | .wr16L .. | .wr16U .. | .wr16A .. => false
  | .lineCa1 .. | .lineCa2 .. | .lineCb1 .. | .lineCb2 .. => false
  | .sched .. | .fire .. | .yieldOn .. | .yieldT .. | .adv .. | .expire .. | .wake .. => false
  | .assertLine .. | .clearLine .. | .pulse .. | .take .. => false
  | .configure .. => false

/-- The operation's width, where it is a bus access of an existing chip, is the one the chip's mode fixes (20 R71). -/
def State.widthFits (s : State) (i : Instr) : Prop :=
  ∀ c off n, (readAccess i = some (c, off) ∨ writeAccess i = some (c, off)) → s.chipIndex c = some n →
    ((s.chip n).addressing.bus = .b8 ↔ isByteAccess i = true)

/-! ### Samples the environment answers (46 R191; log 10) -/

/-- The byte the next sample gives: the answer already chosen, else a free value. -/
def State.sampled (s : State) : Byte :=
  match s.answers with
  | x :: _ => x
  | [] => Config.envByte s.draws

/-- The state once that sample has been taken: nothing of the block itself changes. -/
def State.afterSample (s : State) : State :=
  match s.answers with
  | _ :: rest => { s with answers := rest }
  | [] => { s with draws := s.draws + 1 }

/-- The state once a sample of a binding has been taken: as before where the binding is absent. -/
def State.afterSampleOf (s : State) (b : Option Nat) : State :=
  match b with
  | none => s
  | some _ => s.afterSample

/-- The byte a data read latches: the sample where the binding is present, else the last one (40 R104 step 1). -/
def State.latched (s : State) (b : Option Nat) (old : Byte) : Byte :=
  match b with
  | none => old
  | some _ => s.sampled

/-- A port after a data read that latched `x`: the strobe is port A's only (40 R104, R105). -/
def afterDataRead (p : PortId) (x : Byte) (q : Port) : Port :=
  let q1 := afterClear { q with inp := x }
  match p with
  | .a => if strobes q.ctl then afterStrobe q1 else q1
  | .b => q1

/-- The drive events of a data read after the line's own (40 R104 step 4). -/
def dataReadStrobe (p : PortId) (b : Option Nat) (q : Port) : List Event :=
  match p with
  | .a => if strobes q.ctl then strobeEvents b q else []
  | .b => []

/-- A port after a data write: the strobe is port B's only (40 R106, R111). -/
def afterDataWrite (p : PortId) (data : Byte) (q : Port) : Port :=
  let q1 := { q with out := data }
  match p with
  | .a => q1
  | .b => if strobes q.ctl then afterStrobe q1 else q1

/-- The drive event of an output port: none while every pin is an input (40 R106 step 2, R107 step 3). -/
def outputEvents (b : Option Nat) (q : Port) : List Event :=
  if q.ddr = 0x00 then [] else eventOn b (.byte (q.out &&& q.ddr))

/-- The drive event of a control write on C2: the set/reset level, where it is an output and moves (40 R109 steps 2 to 4). -/
def ctlWriteEvents (data : Byte) (b : Option Nat) (q : Port) : List Event :=
  let d := ctlOfData data
  if c2Output d && q.outC2 != setC2 d then eventOn b (.level (setC2 d)) else []

/-! ### What a bus access leaves, under a wiring without line routes -/

/-- The drive events of a data write (40 R106, R111). -/
def State.dataWriteEvents (s : State) (n : Nat) (p : PortId) (data : Byte) : List Event :=
  let q := s.port n p
  let b := s.pins n p
  outputEvents b.outPort { q with out := data } ++
    match p with
    | .a => []
    | .b => if strobes q.ctl then strobeEvents b.outC2 q else []

/-- The state after a data write of port `p` of chip `n` (40 R106, R111). -/
def State.dataWritten (s : State) (n : Nat) (p : PortId) (data : Byte) : State :=
  (s.setPort n p (afterDataWrite p data)).emitAll (s.dataWriteEvents n p data)

/-- The state of a data read before its drives: the sample taken, port `p` of chip `n` as the read leaves it (40 R104, R105). -/
def State.dataLatched (s : State) (n : Nat) (p : PortId) : State :=
  let b := s.pins n p
  (s.afterSampleOf b.inPort).setPort n p (afterDataRead p (s.latched b.inPort (s.port n p).inp))

/-- The drive events of a data read: the interrupt line's, then the strobe's (40 R104 steps 3, 4). -/
def State.dataReadEvents (s : State) (n : Nat) (p : PortId) : List Event :=
  let q := s.port n p
  let b := s.pins n p
  irqEvent q.irqState false b.irq (s.dataLatched n p).chips ++ dataReadStrobe p b.outC2 q

/-- The state after a data read of port `p` of chip `n` (40 R104, R105), what the bus master got apart. -/
def State.dataRead (s : State) (n : Nat) (p : PortId) : State :=
  (s.dataLatched n p).emitAll (s.dataReadEvents n p)

/-- The state after a direction write of port `p` of chip `n` (40 R107, R112). -/
def State.ddrWritten (s : State) (n : Nat) (p : PortId) (data : Byte) : State :=
  if data = (s.port n p).ddr then s
  else
    (s.setPort n p fun q => { q with ddr := data }).emitAll
      (outputEvents (s.pins n p).outPort { s.port n p with ddr := data })

/-- The drive event of the aggregate after a control write, in the state that the write has stored (40 R109 step 7). -/
def State.ctlIrqEvents (s : State) (n : Nat) (p : PortId) (data : Byte) : List Event :=
  irqEvent (s.port n p).irqState (afterCtlWrite data (s.port n p)).irqState (s.pins n p).irq
    (s.setPort n p (afterCtlWrite data)).chips

/-- The state after a control write of port `p` of chip `n` (40 R109, R114). -/
def State.ctlWritten (s : State) (n : Nat) (p : PortId) (data : Byte) : State :=
  (s.setPort n p (afterCtlWrite data)).emitAll
    (ctlWriteEvents data (s.pins n p).outC2 (s.port n p) ++ s.ctlIrqEvents n p data)

/-- A port after the samples of a control read: C1's if its source is bound, then C2's (40 R108 steps 1, 2). -/
def State.portSampled (s : State) (n : Nat) (p : PortId) : Port :=
  let b := s.pins n p
  let s1 := s.afterSampleOf b.inC1
  let q1 := match b.inC1 with
    | none => s.port n p
    | some _ => afterC1 (s.sampled != 0) (s.port n p)
  match b.inC2 with
  | none => q1
  | some _ => afterC2 (s1.sampled != 0) q1

/-- The byte a data read of port `p` of chip `n` returns (40 R104 step 2). -/
def State.dataByte (s : State) (n : Nat) (p : PortId) : Byte :=
  let q := s.port n p
  (q.out &&& q.ddr) ||| (s.latched (s.pins n p).inPort q.inp &&& ~~~q.ddr)

/-! ### The rows of the two bus families -/

/-- The six byte reads of one chip and offset. -/
def byteReads (c : Int) (off : Nat) : List Instr :=
  [.rdDdrA c off, .rdDataA c off, .rdCtlA c off, .rdDdrB c off, .rdDataB c off, .rdCtlB c off]

/-- The six byte writes. -/
def byteWrites (c : Int) (off : Nat) (data : Byte) : List Instr :=
  [.wrDdrA c off data, .wrDataA c off data, .wrCtlA c off data, .wrDdrB c off data, .wrDataB c off data, .wrCtlB c off data]

/-- The three word reads. -/
def wordReads (c : Int) (off : Nat) : List Instr := [.rd16L c off, .rd16U c off, .rd16A c off]

/-- The three word writes. -/
def wordWrites (c : Int) (off : Nat) (w : Word16) : List Instr := [.wr16L c off w, .wr16U c off w, .wr16A c off w]

/-- The four line samples. -/
def lineSamples (c : Int) (v : Bool) : List Instr := [.lineCa1 c v, .lineCa2 c v, .lineCb1 c v, .lineCb2 c v]

/-- The sample of the C1 line of a port. -/
def lineC1Of : PortId → Int → Bool → Instr
  | .a => .lineCa1
  | .b => .lineCb1

/-- The sample of the C2 line of a port. -/
def lineC2Of : PortId → Int → Bool → Instr
  | .a => .lineCa2
  | .b => .lineCb2

/-- The rows of one port: direction read, data read, control read. -/
def rdDdrOf : PortId → Int → Nat → Instr
  | .a => .rdDdrA
  | .b => .rdDdrB

def rdDataOf : PortId → Int → Nat → Instr
  | .a => .rdDataA
  | .b => .rdDataB

def rdCtlOf : PortId → Int → Nat → Instr
  | .a => .rdCtlA
  | .b => .rdCtlB

/-- The rows of one port: direction write, data write, control write. -/
def wrDdrOf : PortId → Int → Nat → Byte → Instr
  | .a => .wrDdrA
  | .b => .wrDdrB

def wrDataOf : PortId → Int → Nat → Byte → Instr
  | .a => .wrDataA
  | .b => .wrDataB

def wrCtlOf : PortId → Int → Nat → Byte → Instr
  | .a => .wrCtlA
  | .b => .wrCtlB

/-- The data slot and the control slot of a port (20 R61). -/
def dataSlotOf : PortId → Slot
  | .a => .dataA
  | .b => .dataB

def ctlSlotOf : PortId → Slot
  | .a => .ctlA
  | .b => .ctlB

/-- A byte access of chip `n` that reaches the data slot of port `p`, with control bit 2 at `select` (30 R81). -/
structure State.AtData (s : State) (c : Int) (off n : Nat) (p : PortId) (select : Bool) : Prop where
  chip : s.chipIndex c = some n
  bus : (s.chip n).addressing.bus = .b8
  slot : slotAt (s.chip n).addressing off = dataSlotOf p
  select : outputSelected (s.port n p).ctl = select

/-- A byte access of chip `n` that reaches the control slot of port `p` (30 R81). -/
structure State.AtCtl (s : State) (c : Int) (off n : Nat) (p : PortId) : Prop where
  chip : s.chipIndex c = some n
  bus : (s.chip n).addressing.bus = .b8
  slot : slotAt (s.chip n).addressing off = ctlSlotOf p

/-- `t` is what the samples of a control read of port `p` leave: for each line whose source is bound, C1 first, exactly what a LINE
operation with the environment's answer leaves (40 R108 steps 1, 2; 41 R130). -/
def State.ctlSampled (s : State) (c : Int) (n : Nat) (p : PortId) (t : State) : Prop :=
  ∃ s1 : State,
    ((s.pins n p).inC1 = none → s1 = s) ∧
    ((s.pins n p).inC1 ≠ none → exec (lineC1Of p c (s.sampled != 0)) s.afterSample = .next s1) ∧
    ((s.pins n p).inC2 = none → t = s1) ∧
    ((s.pins n p).inC2 ≠ none → exec (lineC2Of p c (s1.sampled != 0)) s1.afterSample = .next t)

/-- The byte that a bus write brings to a register of chip `n`: the data of a byte access, the lane's of a word access, none where
the lane rule drops the word (20 R66). -/
def State.byteWritten (s : State) (n : Nat) : Instr → Option Byte
  | .wrDdrA _ _ d | .wrDataA _ _ d | .wrCtlA _ _ d | .wrDdrB _ _ d | .wrDataB _ _ d | .wrCtlB _ _ d => some d
  | .wr16L _ _ w | .wr16U _ _ w | .wr16A _ _ w => writeLane s.autosenseZero (s.chip n).addressing.bus w
  | .rdDdrA .. | .rdDataA .. | .rdCtlA .. | .rdDdrB .. | .rdDataB .. | .rdCtlB .. => none
  | .rd16L .. | .rd16U .. | .rd16A .. => none
  | .lineCa1 .. | .lineCa2 .. | .lineCb1 .. | .lineCb2 .. => none
  | .sched .. | .fire .. | .yieldOn .. | .yieldT .. | .adv .. | .expire .. | .wake .. => none
  | .assertLine .. | .clearLine .. | .pulse .. | .take .. => none
  | .configure .. | .resetAll | .unconfigureAll => none

/-- What a read of chip `n` gives the bus master: the byte itself, or the byte on the lane of the chip's mode (20 R62, R67). -/
def State.given (s : State) (n : Nat) (b : Byte) : BusResult :=
  match (s.chip n).addressing.bus with
  | .b8 => .byte b
  | .b16Lower => .word (0x00#8 ++ b)
  | .b16Upper => .word (b ++ 0x00#8)
  | .b16Auto => .word (b ++ b)

/-- The port an operation acts on: the slot's for a bus access, the line's for a line sample. -/
def State.target (s : State) (i : Instr) : Option (Nat × PortId) :=
  match i with
  | .rdDdrA c off | .rdDataA c off | .rdCtlA c off | .rdDdrB c off | .rdDataB c off | .rdCtlB c off =>
    (s.chipIndex c).map fun n => (n, (s.slot n off).port)
  | .rd16L c off | .rd16U c off | .rd16A c off => (s.chipIndex c).map fun n => (n, (s.slot n off).port)
  | .wrDdrA c off _ | .wrDataA c off _ | .wrCtlA c off _ | .wrDdrB c off _ | .wrDataB c off _ | .wrCtlB c off _ =>
    (s.chipIndex c).map fun n => (n, (s.slot n off).port)
  | .wr16L c off _ | .wr16U c off _ | .wr16A c off _ => (s.chipIndex c).map fun n => (n, (s.slot n off).port)
  | .lineCa1 c _ | .lineCa2 c _ => (s.chipIndex c).map fun n => (n, .a)
  | .lineCb1 c _ | .lineCb2 c _ => (s.chipIndex c).map fun n => (n, .b)
  | .sched .. | .fire .. | .yieldOn .. | .yieldT .. | .adv .. | .expire .. | .wake .. => none
  | .assertLine .. | .clearLine .. | .pulse .. | .take .. => none
  | .configure .. | .resetAll | .unconfigureAll => none

/-- Several operations, one after the other, each answering a next state. -/
def execAll : List Instr → State → Answer
  | [], s => .next s
  | i :: rest, s => andThen (exec i s) (execAll rest)

/-! ### Drives under a wiring with line routes (46 R192, R194) -/

/-- The operation that a routed action performs (46 R194). -/
def Action.op : Action → Instr
  | .line c .ca1 v => .lineCa1 c v
  | .line c .ca2 v => .lineCa2 c v
  | .line c .cb1 v => .lineCb1 c v
  | .line c .cb2 v => .lineCb2 c v
  | .assertLine i kind => .assertLine i kind
  | .clearLine i kind => .clearLine i kind
  | .pulse i kind => .pulse i kind
  | .fire id => .fire id
  | .sched id delay => .sched id delay

/-- Drive events in order: each joins the trace, and each of its routed actions is performed, to completion, as the operation it
is, before anything else happens (46 R192). -/
def performDrives : List Event → State → Answer
  | [], s => .next s
  | e :: rest, s =>
    andThen (execAll ((routeOf e.sink e.value s.routes).map Action.op) { s with trace := s.trace ++ [e] }) (performDrives rest)

end Sys2Proof.Machine
end

