-- ==== Sys2Proof/Certificates/Slice0/Obligations.lean ====
section
/-! DEFINITION. The statements for the provers. Each docstring names the rules it rests on; where a clause rests on a decision of
the spec (D<n> of spec/92_eei_decisions.md) or on a choice of the model (log <n>), it says so. -/

section

open Sys2Proof Sys2Proof.Machine

/-! ### Operations as bytes, and the step -/

/-- Decoding the bytes of a well-formed operation gives the operation and what follows it (30 R85). The operand bytes are the
model's own (log 2). -/
def Obligations.DecodeEncodeRoundTrip : Prop :=
  ∀ (i : Instr) (tail : List Byte), i.wf = true → decode (encode i ++ tail) = .ok (i, tail)

/-- The codes that 30 R86 lists, and no others, name no operation. -/
def Obligations.UnlistedCodesInvalid : Prop :=
  ∀ (op : Byte) (bs : List Byte),
    decode (op :: bs) = .error (.invalidCode op) ↔
      op = 0x10 ∨ (0x14 ≤ op ∧ op ≤ 0x18) ∨ (0x1C ≤ op ∧ op ≤ 0x1F) ∨ (0x24 ≤ op ∧ op ≤ 0x2F) ∨
        (0x37 ≤ op ∧ op ≤ 0x3F) ∨ (0x48 ≤ op ∧ op ≤ 0x4F) ∨ 0x53 ≤ op

/-- One written-out operation of each family decodes to the operation it stands for (30 R85; operand bytes: log 2). -/
def Obligations.SpecCodesDecode : Prop :=
  decode [0x01, 0x06, 0x02] = .ok (.rdDataA 3 2, []) ∧
  decode [0x03, 0x00, 0x01] = .ok (.rdCtlA 0 1, []) ∧
  decode [0x0D, 0x02, 0x02, 0x55] = .ok (.wrDataB 1 2 0x55, []) ∧
  decode [0x13, 0x02, 0x04] = .ok (.rd16A 1 4, []) ∧
  decode [0x1A, 0x02, 0x00, 0xAB, 0x12] = .ok (.wr16U 1 0 0x12AB, []) ∧
  decode [0x22, 0x02, 0x01] = .ok (.lineCb1 1 true, []) ∧
  decode [0x30, 0x0E, 0x64] = .ok (.sched 7 100, []) ∧
  decode [0x41, 0x04] = .ok (.assertLine 2 .fast, []) ∧
  decode [0x51] = .ok (.resetAll, [])

/-- One step: with nothing presented the block is at rest (00 R13); the next presented operation, of an agent that may act,
is decoded and applied with the rest of the queue left; bytes that name no operation have no step (30 R86). How operations are
presented is the model's own (log 1). -/
def Obligations.StepRunsPresented : Prop :=
  ∀ s : State,
    (s.inbox = [] → step s = .next s) ∧
    (∀ who bytes rest, s.inbox = ⟨who, bytes⟩ :: rest → s.barred who = none →
      (∀ i tail, decode bytes = .ok (i, tail) → step s = exec i { s with inbox := rest }) ∧
      (∀ e, decode bytes = .error e → step s = .refused (.undecodable e))) ∧
    (∀ i, i.wf = true → step (s.presented .host (encode i)) = exec i s)

/-- An operation presented by a suspended CPU, or by a CPU that does not exist, has no step (43 R155, 60 R201; log 17); the other
agents are never barred. -/
def Obligations.SuspendedCpuHasNoStep : Prop :=
  ∀ (s : State) (bytes : List Byte) (rest : List Presented),
    (∀ i : Int, s.inbox = ⟨.cpu i, bytes⟩ :: rest →
      (s.cpuIndex i = none → step s = .refused .noSuchCpu) ∧
      (∀ n, s.cpuIndex i = some n → (s.cpu n).wait ≠ .running → step s = .refused .suspendedCpu)) ∧
    (∀ i n, s.cpuIndex i = some n → (s.cpu n).wait = .running → s.barred (.cpu i) = none) ∧
    s.barred .environment = none ∧ s.barred .clock = none ∧ s.barred .host = none

/-! ### Power-on -/

/-- Every field at power-on (10 R47; the decisions D7, D9, D27 of the spec). The numbers of chips and of CPUs, and the model's own
fields, are not stated (log 6, log 7, log 12). -/
def Obligations.PowerOnValues : Prop :=
  (∀ ch ∈ State.reset.chips,
    (∀ p, (portOf ch p).ddr = 0x00 ∧ (portOf ch p).out = 0x00 ∧ (portOf ch p).inp = 0x00 ∧ (portOf ch p).ctl = 0b000000 ∧
      (portOf ch p).inC1 = false ∧ (portOf ch p).inC2 = false ∧ (portOf ch p).outC2 = false ∧ (portOf ch p).irq1 = false ∧
      (portOf ch p).irq2 = false ∧ (portOf ch p).irqState = false ∧
      pinsOf ch p = ⟨none, none, none, none, none, none⟩) ∧
    ch.addressing = ⟨.standard, .b8⟩ ∧ ch.configured = false) ∧
  State.reset.timeout = [] ∧ State.reset.waiters = [] ∧ State.reset.now = 0 ∧
  (∀ q ∈ State.reset.cpus,
    q.lineM = false ∧ q.lineF = false ∧ q.pulseM = false ∧ q.pulseF = false ∧ q.wait = .running) ∧
  State.reset.trace = []

/-- The power-on state meets every invariant (10 R36: "The reset values of rules R24, R30 and R31 satisfy it"). -/
def Obligations.ResetMeetsInvariants : Prop := State.reset.Inv

/-! ### Control bits, offsets, lanes, keys -/

/-- The control predicates by bit, the aggregate (42 R140) and the control view (10 R25). The positions of bits 0, 1, 3, 4, 5 are
PRESUMED (log 18; D4). -/
def Obligations.ControlFields : Prop :=
  ∀ (v : Ctl) (q : Port),
    outputSelected v = v.getLsbD 2 ∧ irq1Enabled v = v.getLsbD 0 ∧ c1LowToHigh v = v.getLsbD 1 ∧
    irq2Enabled v = v.getLsbD 3 ∧ strobeEReset v = v.getLsbD 3 ∧ setC2 v = v.getLsbD 3 ∧ c2LowToHigh v = v.getLsbD 4 ∧
    c2StrobeMode v = !v.getLsbD 4 ∧ c2Output v = v.getLsbD 5 ∧ c2Input v = !v.getLsbD 5 ∧
    aggregate q = ((q.irq1 && irq1Enabled q.ctl) || (q.irq2 && irq2Enabled q.ctl)) ∧
    (ctlView q).getLsbD 7 = q.irq1 ∧ (ctlView q).getLsbD 6 = (q.irq2 && c2Input q.ctl) ∧
    (∀ k < 6, (ctlView q).getLsbD k = q.ctl.getLsbD k)

/-- Offset decoding: the halving first (16-bit modes only), the reduction second, the swap last; the slots repeat every 4 offsets
in 8-bit mode and every 8 in a 16-bit mode, where offsets 2k and 2k+1 agree (20 R64). -/
def Obligations.OffsetDecoding : Prop :=
  ∀ (ordering : SlotOrdering) (bus : BusMode) (off : Nat),
    (bus = .b8 →
      decodeOffset ⟨ordering, bus⟩ off = (if ordering = .alternate then swap12 (off % 4) else off % 4) ∧
      decodeOffset ⟨ordering, bus⟩ (off + 4) = decodeOffset ⟨ordering, bus⟩ off) ∧
    (bus ≠ .b8 →
      decodeOffset ⟨ordering, bus⟩ off = (if ordering = .alternate then swap12 (off / 2 % 4) else off / 2 % 4) ∧
      decodeOffset ⟨ordering, bus⟩ (off + 8) = decodeOffset ⟨ordering, bus⟩ off ∧
      decodeOffset ⟨ordering, bus⟩ (2 * off + 1) = decodeOffset ⟨ordering, bus⟩ (2 * off)) ∧
    decodeOffset ⟨ordering, bus⟩ off < 4

/-- Swap12, and the raw-to-register map of 20 R65 under SLOT_ORDER (PRESUMED, log 19; D3), on the 8-bit bus and in the three 16-bit
modes, whose offsets are halved first (20 R64). -/
def Obligations.RegisterMap : Prop :=
  swap12 0 = 0 ∧ swap12 1 = 2 ∧ swap12 2 = 1 ∧ swap12 3 = 3 ∧
  (∀ off : Nat,
    (off % 4 = 0 → slotAt ⟨.standard, .b8⟩ off = .dataA ∧ slotAt ⟨.alternate, .b8⟩ off = .dataA) ∧
    (off % 4 = 1 → slotAt ⟨.standard, .b8⟩ off = .ctlA ∧ slotAt ⟨.alternate, .b8⟩ off = .dataB) ∧
    (off % 4 = 2 → slotAt ⟨.standard, .b8⟩ off = .dataB ∧ slotAt ⟨.alternate, .b8⟩ off = .ctlA) ∧
    (off % 4 = 3 → slotAt ⟨.standard, .b8⟩ off = .ctlB ∧ slotAt ⟨.alternate, .b8⟩ off = .ctlB)) ∧
  ∀ bus ∈ [BusMode.b16Lower, .b16Upper, .b16Auto], ∀ off : Nat,
    (off / 2 % 4 = 0 → slotAt ⟨.standard, bus⟩ off = .dataA ∧ slotAt ⟨.alternate, bus⟩ off = .dataA) ∧
    (off / 2 % 4 = 1 → slotAt ⟨.standard, bus⟩ off = .ctlA ∧ slotAt ⟨.alternate, bus⟩ off = .dataB) ∧
    (off / 2 % 4 = 2 → slotAt ⟨.standard, bus⟩ off = .dataB ∧ slotAt ⟨.alternate, bus⟩ off = .ctlA) ∧
    (off / 2 % 4 = 3 → slotAt ⟨.standard, bus⟩ off = .ctlB ∧ slotAt ⟨.alternate, bus⟩ off = .ctlB)

/-- The lanes of the 16-bit bus: writes (20 R66; a word of zeros: AUTOSENSE_ZERO, D19, log 8) and reads (20 R67; D18). -/
def Obligations.BusLanes : Prop :=
  ∀ (zero : AutosenseZero) (lo hi : Byte),
    lowByte (hi ++ lo) = lo ∧ highByte (hi ++ lo) = hi ∧
    writeLane zero .b16Lower (hi ++ lo) = some lo ∧ writeLane zero .b16Upper (hi ++ lo) = some hi ∧
    (lo ≠ 0 → hi = 0 → writeLane zero .b16Auto (hi ++ lo) = some lo) ∧
    (lo = 0 → hi ≠ 0 → writeLane zero .b16Auto (hi ++ lo) = some hi) ∧
    (lo ≠ 0 → hi ≠ 0 → writeLane zero .b16Auto (hi ++ lo) = none) ∧
    (lo = 0 → hi = 0 → writeLane .writeZero .b16Auto (hi ++ lo) = some 0x00 ∧ writeLane .drop .b16Auto (hi ++ lo) = none) ∧
    readLanes .b16Lower lo = 0x00#8 ++ lo ∧ readLanes .b16Upper lo = lo ++ 0x00#8 ∧ readLanes .b16Auto lo = lo ++ lo

/-- A bus access performs the register operation its key selects, whichever row of its family presents it (30 R81, 20 R62;
that the key decides where a row's own code says otherwise is DEDUCED, log 3, log 4). -/
def Obligations.AccessFollowsKey : Prop :=
  ∀ (s : State) (c : Int) (off n : Nat), s.chipIndex c = some n →
    s.readKeyAt n off =
      (match slotAt (s.chip n).addressing off with
        | .dataA => if outputSelected (s.chip n).a.ctl then .dataA else .ddrA
        | .ctlA => .ctlA
        | .dataB => if outputSelected (s.chip n).b.ctl then .dataB else .ddrB
        | .ctlB => .ctlB) ∧
    s.writeKeyAt n off =
      (match slotAt (s.chip n).addressing off with
        | .dataA => if outputSelected (s.chip n).a.ctl then .dataA else .ddrA
        | .ctlA => .ctlA
        | .dataB => if outputSelected (s.chip n).b.ctl then .dataB else .ddrB
        | .ctlB => .ctlB) ∧
    ((s.chip n).addressing.bus = .b8 →
      (∀ i ∈ byteReads c off, exec i s = andThen (readSlot n off s) giveByte) ∧
      (∀ data, ∀ i ∈ byteWrites c off data, exec i s = writeSlot n off data s)) ∧
    ((s.chip n).addressing.bus ≠ .b8 →
      (∀ i ∈ wordReads c off, exec i s = andThen (readSlot n off s) (giveLanes (s.chip n).addressing.bus)) ∧
      (∀ w, ∀ i ∈ wordWrites c off w,
        exec i s =
          match writeLane s.autosenseZero (s.chip n).addressing.bus w with
          | none => .next s
          | some d => writeSlot n off d s))

/-! ### Bus access, 8 bits -/

/-- A read of the direction register: the mask, and nothing changes but what the bus master holds (40 R102, R103). -/
def Obligations.ReadDirection : Prop :=
  ∀ (s : State) (c : Int) (off n : Nat) (p : PortId), s.AtData c off n p false →
    exec (rdDdrOf p c off) s = .next { s with result := .byte (s.port n p).ddr }

/-- A data read, under a wiring without line routes: the byte, the sample, both flags cleared, the aggregate and its line event,
on port A the strobe; nothing else changes (40 R104, R105, R110; the strobe's restore is the decision D11). -/
def Obligations.ReadData : Prop :=
  ∀ (s : State) (c : Int) (off n : Nat) (p : PortId), s.AtData c off n p true → s.noLineRoutes = true →
    exec (rdDataOf p c off) s = .next { s.dataRead n p with result := .byte (s.dataByte n p) }

/-- A data write, under a wiring without line routes: the raw byte stored, the masked byte driven unless every pin is an input, on
port B then the strobe; nothing else changes (40 R106, R111, R110). -/
def Obligations.WriteData : Prop :=
  ∀ (s : State) (c : Int) (off n : Nat) (p : PortId) (data : Byte), s.AtData c off n p true → s.noLineRoutes = true →
    exec (wrDataOf p c off data) s = .next (s.dataWritten n p data)

/-- A direction write, under a wiring without line routes: nothing where the mask does not change; else the mask stored and the
port driven under the new mask unless it is 0 (40 R107, R112; D39). -/
def Obligations.WriteDirection : Prop :=
  ∀ (s : State) (c : Int) (off n : Nat) (p : PortId) (data : Byte), s.AtData c off n p false → s.noLineRoutes = true →
    exec (wrDdrOf p c off data) s = .next (s.ddrWritten n p data)

/-- A control read: with no line bound, the view and nothing else; with a line bound, exactly what a LINE operation with the
environment's answer does, C1 first, then the view (40 R108, R113; the order is the decision D13, non-zero as 1 is D41). -/
def Obligations.ReadControl : Prop :=
  ∀ (s : State) (c : Int) (off n : Nat) (p : PortId), s.AtCtl c off n p →
    ((s.pins n p).inC1 = none → (s.pins n p).inC2 = none →
      exec (rdCtlOf p c off) s = .next { s with result := .byte (ctlView (s.port n p)) }) ∧
    (∀ t, s.ctlSampled c n p t → exec (rdCtlOf p c off) s = .next { t with result := .byte (ctlView (t.port n p)) })

/-- A control write, under a wiring without line routes: six bits stored, C2 moved to the set/reset level where the new value makes
it an output, the aggregate and its line event; the flags stay (40 R109, R114; D12). -/
def Obligations.WriteControl : Prop :=
  ∀ (s : State) (c : Int) (off n : Nat) (p : PortId) (data : Byte), s.AtCtl c off n p → s.noLineRoutes = true →
    exec (wrCtlOf p c off data) s = .next (s.ctlWritten n p data)

/-- A chip index outside the array, a negative one included: no mutation, no drive, no sample; a read gives the master a free byte
or word (20 R63; 41 R130; 45 R180; the free value is D10, log 11). -/
def Obligations.OutOfRangeChip : Prop :=
  ∀ (s : State) (c : Int), c < 0 ∨ (s.chips.length : Int) ≤ c →
    (∀ off, ∀ i ∈ byteReads c off,
      exec i s = .next { s with result := .byte (Config.openBus s.draws), draws := s.draws + 1 }) ∧
    (∀ off, ∀ i ∈ wordReads c off,
      exec i s = .next { s with result := .word (Config.openBusWord s.draws), draws := s.draws + 1 }) ∧
    (∀ off data, ∀ i ∈ byteWrites c off data, exec i s = .next s) ∧
    (∀ off w, ∀ i ∈ wordWrites c off w, exec i s = .next s) ∧
    (∀ v, ∀ i ∈ lineSamples c v, exec i s = .next s) ∧
    (∀ m f, exec (.configure c m f) s = .next s)

/-- A byte access to a chip on a 16-bit bus, and a word access to a chip on the 8-bit bus, have no step (20 R71; D20, log 15). -/
def Obligations.WidthMismatchRefused : Prop :=
  ∀ (s : State) (c : Int) (off n : Nat), s.chipIndex c = some n →
    ((s.chip n).addressing.bus ≠ .b8 →
      (∀ i ∈ byteReads c off, exec i s = .refused .widthMismatch) ∧
      (∀ data, ∀ i ∈ byteWrites c off data, exec i s = .refused .widthMismatch)) ∧
    ((s.chip n).addressing.bus = .b8 →
      (∀ i ∈ wordReads c off, exec i s = .refused .widthMismatch) ∧
      (∀ w, ∀ i ∈ wordWrites c off w, exec i s = .refused .widthMismatch))

/-! ### Bus access, 16 bits -/

/-- The three 16-bit reads perform the read operation of the slot reached, with all its side effects, and place its byte on the
lane of the chip's mode. On each of the slots they complete: with the direction mask, with a data read (under a wiring without line
routes), with the control view, the bound lines sampled before it (40 R115, R116, R117; where a read's byte stands is D18). -/
def Obligations.Read16 : Prop :=
  ∀ (s : State) (c : Int) (off n : Nat), s.chipIndex c = some n →
    ∀ row ∈ [(BusMode.b16Lower, Instr.rd16L c off, fun b : Byte => (0x00#8 ++ b : Word16)),
        (BusMode.b16Upper, Instr.rd16U c off, fun b : Byte => (b ++ 0x00#8 : Word16)),
        (BusMode.b16Auto, Instr.rd16A c off, fun b : Byte => (b ++ b : Word16))],
      (s.chip n).addressing.bus = row.1 →
        (∀ t b, readSlot n off s = .next (t, b) → exec row.2.1 s = .next { t with result := .word (row.2.2 b) }) ∧
        (∀ p, slotAt (s.chip n).addressing off = dataSlotOf p →
          (outputSelected (s.port n p).ctl = false →
            exec row.2.1 s = .next { s with result := .word (row.2.2 (s.port n p).ddr) }) ∧
          (outputSelected (s.port n p).ctl = true → s.noLineRoutes = true →
            exec row.2.1 s = .next { s.dataRead n p with result := .word (row.2.2 (s.dataByte n p)) })) ∧
        (∀ p, slotAt (s.chip n).addressing off = ctlSlotOf p →
          ((s.pins n p).inC1 = none → (s.pins n p).inC2 = none →
            exec row.2.1 s = .next { s with result := .word (row.2.2 (ctlView (s.port n p))) }) ∧
          (∀ t, s.ctlSampled c n p t → exec row.2.1 s = .next { t with result := .word (row.2.2 (ctlView (t.port n p))) }))

/-- The three 16-bit writes: the row, the mode it is for, the byte it brings and when it brings that one. They apply the write
operation of the slot reached with that byte; on each of the slots they complete, under a wiring without line routes, as the data
write, the direction write, the control write of the 8-bit bus. Autosense drops a word with both halves populated, and a word of
zeros as AUTOSENSE_ZERO says (40 R118, R119, R120; D19, log 8). -/
def Obligations.Write16 : Prop :=
  ∀ (s : State) (c : Int) (off n : Nat) (lo hi : Byte), s.chipIndex c = some n →
    (∀ row ∈ [(BusMode.b16Lower, Instr.wr16L c off (hi ++ lo), lo, True),
        (BusMode.b16Upper, Instr.wr16U c off (hi ++ lo), hi, True),
        (BusMode.b16Auto, Instr.wr16A c off (hi ++ lo), lo, lo ≠ 0 ∧ hi = 0),
        (BusMode.b16Auto, Instr.wr16A c off (hi ++ lo), hi, lo = 0 ∧ hi ≠ 0),
        (BusMode.b16Auto, Instr.wr16A c off (hi ++ lo), 0x00, lo = 0 ∧ hi = 0 ∧ s.autosenseZero = .writeZero)],
      (s.chip n).addressing.bus = row.1 → row.2.2.2 →
        exec row.2.1 s = writeSlot n off row.2.2.1 s ∧
        (s.noLineRoutes = true → ∀ p,
          (slotAt (s.chip n).addressing off = dataSlotOf p → outputSelected (s.port n p).ctl = true →
            exec row.2.1 s = .next (s.dataWritten n p row.2.2.1)) ∧
          (slotAt (s.chip n).addressing off = dataSlotOf p → outputSelected (s.port n p).ctl = false →
            exec row.2.1 s = .next (s.ddrWritten n p row.2.2.1)) ∧
          (slotAt (s.chip n).addressing off = ctlSlotOf p → exec row.2.1 s = .next (s.ctlWritten n p row.2.2.1)))) ∧
    ((s.chip n).addressing.bus = .b16Auto →
      (lo ≠ 0 → hi ≠ 0 → exec (.wr16A c off (hi ++ lo)) s = .next s) ∧
      (lo = 0 → hi = 0 → s.autosenseZero = .drop → exec (.wr16A c off (hi ++ lo)) s = .next s))

/-! ### Control-line samples -/

/-- A sample of a C1 line, under a wiring without line routes: on the armed transition the flag, the aggregate and its line event,
and a strobe's restore; the sample is stored; nothing else changes (41 R131, R133; the restore's condition is D15). -/
def Obligations.SampleC1 : Prop :=
  ∀ (s : State) (c : Int) (n : Nat) (p : PortId) (v : Bool), s.chipIndex c = some n → s.noLineRoutes = true →
    exec (lineC1Of p c v) s =
      .next ((s.setPort n p (afterC1 v)).emitAll
        (irqEvent (s.port n p).irqState (afterC1 v (s.port n p)).irqState (s.pins n p).irq (s.setPort n p (afterC1 v)).chips ++
          restoreEvents v (s.pins n p).outC2 (s.port n p)))

/-- A sample of a C2 line, under a wiring without line routes: on the armed transition of an input the flag, the aggregate and its
line event; the sample is stored, also when C2 is an output; nothing else changes (41 R132, R134; D14). -/
def Obligations.SampleC2 : Prop :=
  ∀ (s : State) (c : Int) (n : Nat) (p : PortId) (v : Bool), s.chipIndex c = some n → s.noLineRoutes = true →
    exec (lineC2Of p c v) s =
      .next ((s.setPort n p (afterC2 v)).emitAll
        (irqEvent (s.port n p).irqState (afterC2 v (s.port n p)).irqState (s.pins n p).irq (s.setPort n p (afterC2 v)).chips))

/-! ### Bus accesses and line samples under any wiring -/

/-- Under any wiring, every bus access that completes, of either width, leaves in its own port exactly what its rule says, and a
read gives its byte: "nothing that steps 3 and 4 cause (a wire-OR drive, a strobe, their routes) changes the byte returned"; a write
whose word the lane rule drops does nothing (40 R102 to R120; 20 R66). -/
def Obligations.OwnPortUnderAnyWiring : Prop :=
  ∀ (s t : State) (i : Instr) (n : Nat) (p : PortId), exec i s = .next t →
    (s.reads i n (ddrReadOf p) → t.port n p = s.port n p ∧ t.result = s.given n (s.port n p).ddr) ∧
    (s.reads i n (dataReadOf p) →
      t.port n p = afterDataRead p (s.latched (s.pins n p).inPort (s.port n p).inp) (s.port n p) ∧
      t.result = s.given n (s.dataByte n p)) ∧
    (s.reads i n (ctlReadOf p) → t.port n p = s.portSampled n p ∧ t.result = s.given n (ctlView (s.portSampled n p))) ∧
    (∀ data, s.byteWritten n i = some data →
      (s.writes i n (dataWriteOf p) → t.port n p = afterDataWrite p data (s.port n p)) ∧
      (s.writes i n (ddrWriteOf p) → t.port n p = { s.port n p with ddr := data }) ∧
      (s.writes i n (ctlWriteOf p) → t.port n p = afterCtlWrite data (s.port n p))) ∧
    (∀ op, s.writes i n op → s.byteWritten n i = none → t = s)

/-- Under any wiring, a line sample that completes stores its sample, clears no flag, lowers no aggregate that its flags support,
and leaves `ctl`, `ddr`, `out`, `in` of its port and every field of the other port as they were (41 R135). -/
def Obligations.LineSampleLaws : Prop :=
  ∀ (s t : State) (c : Int) (n : Nat) (p : PortId) (v : Bool), s.chipIndex c = some n →
    (exec (lineC1Of p c v) s = .next t → t.port n p = afterC1 v (s.port n p) ∧ (t.port n p).inC1 = v) ∧
    (exec (lineC2Of p c v) s = .next t → t.port n p = afterC2 v (s.port n p) ∧ (t.port n p).inC2 = v) ∧
    (∀ i, i = lineC1Of p c v ∨ i = lineC2Of p c v → exec i s = .next t →
      ((s.port n p).irq1 = true → (t.port n p).irq1 = true) ∧ ((s.port n p).irq2 = true → (t.port n p).irq2 = true) ∧
      (portConsistent (s.port n p) → (s.port n p).irqState = true → (t.port n p).irqState = true) ∧
      (t.port n p).ctl = (s.port n p).ctl ∧ (t.port n p).ddr = (s.port n p).ddr ∧ (t.port n p).out = (s.port n p).out ∧
      (t.port n p).inp = (s.port n p).inp ∧ ∀ p' ≠ p, t.port n p' = s.port n p')

/-- A bus access or a line sample of one port leaves the other port of its chip alone, under any wiring, and every other chip
where no route delivers a line sample (40 R121 (b), 41 R135 (c)). -/
def Obligations.OtherPortUntouched : Prop :=
  ∀ (s t : State) (i : Instr) (n : Nat) (p : PortId), s.target i = some (n, p) → exec i s = .next t →
    (∀ p' ≠ p, t.port n p' = s.port n p') ∧ (s.noLineRoutes = true → ∀ m ≠ n, t.chip m = s.chip m)

/-- "flag bits are cleared strictly by a data-register read of the same port": whatever operation completes, under any wiring, a
set flag stays set, unless the operation is a data read of its port or one of the two lifecycle operations that zero every chip;
those clear both flags of the port (10 R37). -/
def Obligations.FlagsClearedByDataReadOnly : Prop :=
  ∀ (s t : State) (i : Instr) (n : Nat) (p : PortId), exec i s = .next t →
    (zeroesChips i = false → ¬ s.reads i n (dataReadOf p) →
      ((s.port n p).irq1 = true → (t.port n p).irq1 = true) ∧ ((s.port n p).irq2 = true → (t.port n p).irq2 = true)) ∧
    (zeroesChips i = true ∨ s.reads i n (dataReadOf p) → (t.port n p).irq1 = false ∧ (t.port n p).irq2 = false)

/-- Who writes each register of a port, under any wiring: the direction register a direction write of the port, the output register
a data write, the control register a control write, the input latch a data read with the source bound; and the two lifecycle
operations that zero every chip (10 R21 to R24). -/
def Obligations.RegisterWriters : Prop :=
  ∀ (s t : State) (i : Instr) (n : Nat) (p : PortId), exec i s = .next t → zeroesChips i = false →
    ((t.port n p).ddr ≠ (s.port n p).ddr → s.writes i n (ddrWriteOf p)) ∧
    ((t.port n p).out ≠ (s.port n p).out → s.writes i n (dataWriteOf p)) ∧
    ((t.port n p).ctl ≠ (s.port n p).ctl → s.writes i n (ctlWriteOf p)) ∧
    ((t.port n p).inp ≠ (s.port n p).inp → s.reads i n (dataReadOf p) ∧ (s.pins n p).inPort ≠ none)

/-- A control write followed at once by a control read of the same port, no line bound, under any wiring (40 R121 (c)). -/
def Obligations.ControlWriteThenRead : Prop :=
  ∀ (s t : State) (c : Int) (off n : Nat) (p : PortId) (data : Byte), s.AtCtl c off n p →
    (s.pins n p).inC1 = none → (s.pins n p).inC2 = none → exec (wrCtlOf p c off data) s = .next t →
    exec (rdCtlOf p c off) t =
      .next { t with
        result := .byte (BitVec.ofBool (s.port n p).irq1 ++
          BitVec.ofBool ((s.port n p).irq2 && c2Input (ctlOfData data)) ++ ctlOfData data) }

/-- The pseudo-operation SETDDR from any state of an 8-bit chip, under a wiring without line routes: the mask stored, the output
register selected, the output register, the input latch, the flags and the other port as they were (30 R88, 70 R233). -/
def Obligations.SetDdrSequence : Prop :=
  ∀ (s : State) (c : Int) (n : Nat) (p : PortId) (mask ctl : Byte), s.chipIndex c = some n →
    (s.chip n).addressing.bus = .b8 → s.noLineRoutes = true →
    ∃ t, execAll (setDdr (s.chip n).addressing c p mask ctl) s = .next t ∧
      (t.port n p).ddr = mask ∧ (t.port n p).ctl = ctlOfData (ctl ||| 0x04) ∧ outputSelected (t.port n p).ctl = true ∧
      (t.port n p).out = (s.port n p).out ∧ (t.port n p).inp = (s.port n p).inp ∧
      (t.port n p).irq1 = (s.port n p).irq1 ∧ (t.port n p).irq2 = (s.port n p).irq2 ∧
      ∀ p' ≠ p, t.port n p' = s.port n p'

/-! ### Invariants that every step keeps -/

/-- After every step every stored aggregate is the function of its port's flags and control bits that 10 R36 states, under any
wiring. -/
def Obligations.AggregatesKept : Prop :=
  ∀ s t : State, step s = .next t → s.aggregatesConsistent → t.aggregatesConsistent

/-- After every step there is at most one deadline per trigger, and a CPU is in a trigger's waiter set exactly when it waits on that
trigger (10 R38, R40; 43 R152, R153); both maps keep their canonical form (log 21). -/
def Obligations.SchedulerMapsKept : Prop :=
  ∀ s t : State, step s = .next t →
    (s.timeoutsCanonical → t.timeoutsCanonical) ∧ (s.waitersCanonical → t.waitersCanonical) ∧
    (s.waitersMatch → t.waitersMatch)

/-- "time cannot jump over a deadline": after every step no pending timeout lies in the past (43 R156). -/
def Obligations.TimeoutsAheadKept : Prop :=
  ∀ s t : State, step s = .next t → s.timeoutsAhead → t.timeoutsAhead

/-- Bindings, addressing and `configured` change by CONFIGURE and UNCONFIGURE_ALL only (10 R32, R33, R34); an unconfigured slot
stays without bindings and with the all-zero addressing (45 R183; D9). -/
def Obligations.BindingsByLifecycleOnly : Prop :=
  ∀ (s t : State) (i : Instr), exec i s = .next t →
    ((∀ c m f, i ≠ .configure c m f) → i ≠ .unconfigureAll → ∀ n,
      (t.chip n).intf = (s.chip n).intf ∧ (t.chip n).addressing = (s.chip n).addressing ∧
      (t.chip n).configured = (s.chip n).configured) ∧
    (s.unconfiguredBlank → t.unconfiguredBlank)

/-- No step changes the number of chips or of CPUs, ROUTE or AUTOSENSE_ZERO (46 R197, 10 R20); time moves by ADV only, by its
operand (43 R150, 10 R39). -/
def Obligations.ParametersAndTime : Prop :=
  (∀ s t : State, step s = .next t →
    t.chips.length = s.chips.length ∧ t.cpus.length = s.cpus.length ∧ t.routes = s.routes ∧
    t.autosenseZero = s.autosenseZero) ∧
  (∀ (s t : State) (i : Instr), exec i s = .next t →
    t.now = s.now + match i with | .adv dt => dt | _ => 0)

/-- The trace only grows, under any wiring, and only bus accesses and line samples of an existing chip make it grow (10 R41;
45 R185). -/
def Obligations.TraceGrows : Prop :=
  ∀ (s t : State) (i : Instr), exec i s = .next t →
    s.trace <+: t.trace ∧ (s.target i = none → t.trace = s.trace)

/-! ### The wire-OR and the routes -/

/-- A line's level: true exactly when some port of some configured chip bound to it has its aggregate true (42 R142; that equal
identifiers are one line is D17). -/
def Obligations.WireOrLevel : Prop :=
  ∀ (k : Nat) (chips : List Chip),
    wireLevel k chips = true ↔
      ∃ ch ∈ chips, ∃ p, ch.configured = true ∧ (pinsOf ch p).irq = some k ∧ (portOf ch p).irqState = true

/-- The source's test of the composition: two chips on one line, one flag raised, then the other, then each cleared by its data
read: four drive events, of which exactly the last carries `false` (42 R144). -/
def Obligations.SharedLineSequence : Prop :=
  ∀ (s : State) (k : Nat) (c d : Int) (n m offn offm : Nat), n ≠ m → s.noLineRoutes = true →
    wireLevel k s.chips = false →
    (∀ x ∈ [(c, n, offn), (d, m, offm)],
      s.AtData x.1 x.2.2 x.2.1 .a true ∧ (s.chip x.2.1).configured = true ∧ (s.pins x.2.1 .a).irq = some k ∧
      irq1Enabled (s.port x.2.1 .a).ctl = true ∧ c1LowToHigh (s.port x.2.1 .a).ctl = true ∧
      c2Input (s.port x.2.1 .a).ctl = true ∧ (s.port x.2.1 .a).irqState = false ∧ (s.port x.2.1 .a).inC1 = false) →
    ∃ t1 t2 t3 t4, exec (.lineCa1 c true) s = .next t1 ∧ exec (.lineCa1 d true) t1 = .next t2 ∧
      exec (.rdDataA c offn) t2 = .next t3 ∧ exec (.rdDataA d offm) t3 = .next t4 ∧
      t4.trace = s.trace ++ [⟨k, .level true⟩, ⟨k, .level true⟩, ⟨k, .level true⟩, ⟨k, .level false⟩]

/-- Re-entry has no step: a line sample delivered to a chip with an operation in progress is refused, however deep the delivery
stands; so is every drive that reaches one, whatever actions come first; and so is a data write whose sink routes, after actions on
the adapter and the scheduler, to a line sample of its own chip (46 R193; D23, log 14). -/
def Obligations.RouteBackRefused : Prop :=
  (∀ (fuel : Nat) (busy : List Nat) (s : State) (c : Int) (n : Nat) (l : Line) (v : Bool), s.chipIndex c = some n → n ∈ busy →
    deliverLine fuel busy c l v s = .refused .reentrantRoute) ∧
  (∀ (fuel : Nat) (busy : List Nat) (s t : State) (k : Nat) (w : SinkValue) (before after : List Action) (c : Int) (n : Nat)
      (l : Line) (v : Bool),
    routeOf k w s.routes = before ++ .line c l v :: after → n ∈ busy →
    performActions (deliverLine fuel busy) before { s with trace := s.trace ++ [⟨k, w⟩] } = .next t → t.chipIndex c = some n →
    driveWith (deliverLine fuel busy) (some k) w s = .refused .reentrantRoute) ∧
  (∀ (s : State) (c back : Int) (off n k : Nat) (p : PortId) (data : Byte) (l : Line) (v : Bool) (before after : List Action),
    s.AtData c off n p true → (s.port n p).ddr ≠ 0 → (s.pins n p).outPort = some k → s.chipIndex back = some n →
    routeOf k (.byte (data &&& (s.port n p).ddr)) s.routes = before ++ .line back l v :: after →
    (∀ x ∈ before, lineTarget s.chips.length x = none) →
    exec (wrDataOf p c off data) s = .refused .reentrantRoute)

/-- The nesting of line samples is at most N_CHIPS deep: a larger allowance than the model gives a presented line sample, or the
drives of an operation on a chip, changes nothing (46 R193). -/
def Obligations.NestingBounded : Prop :=
  (∀ (fuel : Nat) (s : State) (c : Int) (l : Line) (v : Bool), s.chips.length + 1 ≤ fuel →
    deliverLine fuel [] c l v s = presentLine c l v s) ∧
  (∀ (fuel n : Nat) (s : State) (b : Option Nat) (v : SinkValue), n < s.chips.length → s.chips.length ≤ fuel →
    driveWith (deliverLine fuel [n]) b v s = driveFrom n s b v s)

/-- Under every wiring without a cycle, every bus access of the right width and every line sample completes (46 R193, R196; 60 R200:
no operation faults). -/
def Obligations.UpwardWiringCompletes : Prop :=
  ∀ (rank : Nat → Nat) (s : State) (i : Instr), s.upwardWiring rank = true → s.widthFits i →
    readAccess i ≠ none ∨ writeAccess i ≠ none ∨ isLineSample i = true → ∃ t, exec i s = .next t

/-- Under every wiring without a cycle, and on either bus, a bus access drives exactly its rule's events, in the rule's order, each
with its routed actions performed as the operations they are: a routed LINE samples its chip (46 R192, R194; 40 R104 to R120). The
C2 event of a control write comes before its value is stored (40 R109; D12). That re-entry has no step is D23 (log 14). -/
def Obligations.RoutedBusDrives : Prop :=
  ∀ (rank : Nat → Nat) (s : State) (i : Instr) (n : Nat) (p : PortId), s.upwardWiring rank = true → s.widthFits i →
    (s.reads i n (dataReadOf p) →
      exec i s = andThen (performDrives (s.dataReadEvents n p) (s.dataLatched n p)) fun t =>
        .next { t with result := s.given n (s.dataByte n p) }) ∧
    (∀ data, s.byteWritten n i = some data →
      (s.writes i n (dataWriteOf p) →
        exec i s = performDrives (s.dataWriteEvents n p data) (s.setPort n p (afterDataWrite p data))) ∧
      (s.writes i n (ddrWriteOf p) → data ≠ (s.port n p).ddr →
        exec i s = performDrives (outputEvents (s.pins n p).outPort { s.port n p with ddr := data })
          (s.setPort n p fun q => { q with ddr := data })) ∧
      (s.writes i n (ctlWriteOf p) →
        exec i s = andThen (performDrives (ctlWriteEvents data (s.pins n p).outC2 (s.port n p)) s) fun t =>
          performDrives (t.ctlIrqEvents n p data) (t.setPort n p (afterCtlWrite data))))

/-- Under every wiring without a cycle, a line sample drives exactly its rule's events, each with its routed actions performed as the
operations they are, line samples of further chips included (46 R192, R194; 41 R131 to R134; D14, D15, D23). -/
def Obligations.RoutedLineDrives : Prop :=
  ∀ (rank : Nat → Nat) (s : State) (c : Int) (n : Nat) (p : PortId) (v : Bool), s.upwardWiring rank = true →
    s.chipIndex c = some n →
    exec (lineC1Of p c v) s =
      performDrives
        (irqEvent (s.port n p).irqState (afterC1 v (s.port n p)).irqState (s.pins n p).irq (s.setPort n p (afterC1 v)).chips ++
          restoreEvents v (s.pins n p).outC2 (s.port n p))
        (s.setPort n p (afterC1 v)) ∧
    exec (lineC2Of p c v) s =
      performDrives
        (irqEvent (s.port n p).irqState (afterC2 v (s.port n p)).irqState (s.pins n p).irq (s.setPort n p (afterC2 v)).chips)
        (s.setPort n p (afterC2 v))

/-- The wiring of the handshake, which 46 R196 gives as an illustration (D23). Signal: a data write on chip X, whose sink pulses CB1 of chip Y, armed for a fall and
enabled, sets Y's flag and aggregate and raises the maskable line of the CPU that Y's interrupt line is routed to, all inside the
write. Acknowledge: the data read of Y's port B, no other participant asserting the line, drops that CPU's line and fires the
trigger. -/
def Obligations.HandshakeRouting : Prop :=
  (∀ (s : State) (x y i : Int) (off n m j kx ky : Nat) (data : Byte), n ≠ m →
    s.AtData x off n .b true → (s.port n .b).ddr ≠ 0 → strobes (s.port n .b).ctl = false → (s.pins n .b).outPort = some kx →
    s.chipIndex y = some m → (s.chip m).configured = true → (s.pins m .b).irq = some ky →
    irq1Enabled (s.port m .b).ctl = true → c1LowToHigh (s.port m .b).ctl = false → restoredByC1 (s.port m .b).ctl = false →
    (s.port m .b).irqState = false → s.cpuIndex i = some j →
    routeOf kx (.byte (data &&& (s.port n .b).ddr)) s.routes = [.line y .cb1 true, .line y .cb1 false] →
    routeOf ky (.level true) s.routes = [.assertLine i .maskable] →
    exec (.wrDataB x off data) s =
      .next { ((s.setPort n .b fun q => { q with out := data }).setPort m .b fun q =>
            { q with irq1 := true, irqState := true, inC1 := false }).setCpu j fun q => { q with lineM := true } with
        trace := s.trace ++ [⟨kx, .byte (data &&& (s.port n .b).ddr)⟩, ⟨ky, .level true⟩] }) ∧
  (∀ (s : State) (y i id : Int) (off m j ky : Nat),
    s.AtData y off m .b true → (s.pins m .b).irq = some ky → (s.port m .b).irqState = true →
    wireLevel ky (s.setPort m .b fun q => { q with irqState := false }).chips = false → s.cpuIndex i = some j →
    routeOf ky (.level false) s.routes = [.clearLine i .maskable, .fire id] →
    ∃ t, exec (.rdDataB y off) s = .next t ∧ (t.port m .b).irq1 = false ∧ (t.port m .b).irqState = false ∧
      t.trace = s.trace ++ [⟨ky, .level false⟩] ∧ (t.cpu j).lineM = false ∧
      (∀ k, (id, k) ∈ s.waiters → k < s.cpus.length → (t.cpu k).wait = .running) ∧ mapGet id t.timeout = none)

/-! ### The scheduler -/

/-- SCHED: the deadline of the trigger is now plus the delay, any old one forgotten; nothing else changes (43 R151; that a delay of
0 fires nothing yet is D28). -/
def Obligations.Schedule : Prop :=
  ∀ (s : State) (id : Int) (delay : Nat), ∃ t, exec (.sched id delay) s = .next t ∧
    mapGet id t.timeout = some (s.now + delay) ∧ (∀ id' ≠ id, mapGet id' t.timeout = mapGet id' s.timeout) ∧
    t = { s with timeout := t.timeout }

/-- FIRE: every waiter of the trigger runs again, its waiter set and its timeout are gone, nothing else changes; a second FIRE
changes nothing (43 R152). -/
def Obligations.FireResumesWaiters : Prop :=
  ∀ (s : State) (id : Int), ∃ t, exec (.fire id) s = .next t ∧
    (∀ n, t.cpu n = if (id, n) ∈ s.waiters ∧ n < s.cpus.length then { s.cpu n with wait := .running } else s.cpu n) ∧
    t.cpus.length = s.cpus.length ∧
    (∀ id' n, (id', n) ∈ t.waiters ↔ (id', n) ∈ s.waiters ∧ id' ≠ id) ∧
    (∀ id', mapGet id' t.timeout = if id' = id then none else mapGet id' s.timeout) ∧
    t = { s with cpus := t.cpus, waiters := t.waiters, timeout := t.timeout } ∧
    exec (.fire id) t = .next t

/-- YIELD and YIELDT suspend the calling CPU, on the trigger or until the time, and change nothing else; a CPU that is suspended or
does not exist has no such step (43 R153, R154, R155; D30, D31, log 16). -/
def Obligations.YieldSuspends : Prop :=
  ∀ (s : State) (i id : Int) (time : Nat),
    (∀ n, s.cpuIndex i = some n → (s.cpu n).wait = .running →
      (∃ t, exec (.yieldOn i id) s = .next t ∧
        t.cpus = (s.setCpu n fun q => { q with wait := .onTrigger id }).cpus ∧
        (∀ x, x ∈ t.waiters ↔ x = (id, n) ∨ x ∈ s.waiters) ∧ t = { s with cpus := t.cpus, waiters := t.waiters }) ∧
      exec (.yieldT i time) s = .next (s.setCpu n fun q => { q with wait := .untilTime time })) ∧
    (∀ n, s.cpuIndex i = some n → (s.cpu n).wait ≠ .running →
      exec (.yieldOn i id) s = .refused .suspendedCpu ∧ exec (.yieldT i time) s = .refused .suspendedCpu) ∧
    (s.cpuIndex i = none → exec (.yieldOn i id) s = .refused .noSuchCpu ∧ exec (.yieldT i time) s = .refused .noSuchCpu)

/-- ADV: where no pending deadline is passed, time moves by the operand and every pulse request is gone, nothing else changes; where
one is passed there is no step (43 R156, 44 R174; D27, D32, log 16, log 22). -/
def Obligations.AdvanceTime : Prop :=
  ∀ (s : State) (dt : Nat), 1 ≤ dt →
    ((∀ e ∈ s.timeout, s.now + dt ≤ e.2) → (∀ q ∈ s.cpus, ∀ time, q.wait = .untilTime time → s.now + dt ≤ time) →
      exec (.adv dt) s =
        .next { s with now := s.now + dt, cpus := s.cpus.map fun q => { q with pulseM := false, pulseF := false } }) ∧
    (∀ e ∈ s.timeout, e.2 < s.now + dt → exec (.adv dt) s = .refused .clockPastDeadline) ∧
    (∀ q ∈ s.cpus, ∀ time, q.wait = .untilTime time → time < s.now + dt → exec (.adv dt) s = .refused .clockPastDeadline)

/-- EXPIRE: a timeout that is due fires its trigger, which also removes it; WAKE: a timed wait that is due ends, and nothing else
changes; neither has a step before (43 R157, R158; D29, D31, log 16). -/
def Obligations.ExpireAndWake : Prop :=
  ∀ (s : State) (id i : Int) (n : Nat),
    (∀ d, mapGet id s.timeout = some d → d ≤ s.now →
      ∃ t, exec (.expire id) s = .next t ∧ exec (.fire id) s = .next t ∧ mapGet id t.timeout = none) ∧
    (∀ d, mapGet id s.timeout = some d → s.now < d → exec (.expire id) s = .refused .expireNotDue) ∧
    (mapGet id s.timeout = none → exec (.expire id) s = .refused .expireNotDue) ∧
    (s.cpuIndex i = some n →
      (∀ time, (s.cpu n).wait = .untilTime time → time ≤ s.now →
        exec (.wake i) s = .next (s.setCpu n fun q => { q with wait := .running })) ∧
      (∀ time, (s.cpu n).wait = .untilTime time → s.now < time → exec (.wake i) s = .refused .wakeNotDue) ∧
      ((s.cpu n).wait = .running → exec (.wake i) s = .refused .wakeNotDue) ∧
      (∀ id', (s.cpu n).wait = .onTrigger id' → exec (.wake i) s = .refused .wakeNotDue)) ∧
    (s.cpuIndex i = none → exec (.wake i) s = .refused .noSuchCpu)

/-- The watchdog wait: a running CPU that arms a timeout and yields on it is resumed, at an explicit fire or at exactly the
deadline, whichever is first, and exactly once: after the one the other finds nothing; time cannot pass the deadline before
(43 R159, R162; 30 R88 WDWAIT). -/
def Obligations.WatchdogResumesOnce : Prop :=
  ∀ (s : State) (i id : Int) (n delay : Nat), s.timeoutsCanonical → s.cpuIndex i = some n → (s.cpu n).wait = .running →
    1 ≤ delay → (∀ e ∈ s.timeout, e.1 ≠ id → s.now + delay ≤ e.2) →
    (∀ q ∈ s.cpus, ∀ time, q.wait = .untilTime time → s.now + delay ≤ time) →
    ∃ w, execAll (wdWait i id delay) s = .next w ∧ (w.cpu n).wait = .onTrigger id ∧ w.now = s.now ∧
      (∃ u t, exec (.adv delay) w = .next u ∧ (u.cpu n).wait = .onTrigger id ∧ exec (.expire id) u = .next t ∧
        (t.cpu n).wait = .running ∧ t.now = s.now + delay ∧ exec (.expire id) t = .refused .expireNotDue ∧
        exec (.fire id) t = .next t) ∧
      (∀ d, 1 ≤ d → d ≤ delay → ∃ u t, exec (.adv d) w = .next u ∧ (u.cpu n).wait = .onTrigger id ∧
        exec (.fire id) u = .next t ∧ (t.cpu n).wait = .running ∧ t.now = s.now + d ∧
        exec (.expire id) t = .refused .expireNotDue) ∧
      (∀ d, delay < d → exec (.adv d) w = .refused .clockPastDeadline)

/-- How a CPU's wait changes, under any wiring: only its own YIELD or YIELDT suspends it, only WAKE ends a timed wait, and then at
its time at the earliest; a wait on a trigger ends in running. No interrupt resumes a CPU (60 R215; 43 R153). -/
def Obligations.WaitsChange : Prop :=
  ∀ (s t : State) (i : Instr) (n : Nat), s.waitersMatch → exec i s = .next t → (t.cpu n).wait ≠ (s.cpu n).wait →
    (∃ j id, i = .yieldOn j id ∧ s.cpuIndex j = some n ∧ (s.cpu n).wait = .running ∧ (t.cpu n).wait = .onTrigger id) ∨
    (∃ j time, i = .yieldT j time ∧ s.cpuIndex j = some n ∧ (s.cpu n).wait = .running ∧
      (t.cpu n).wait = .untilTime time) ∨
    (∃ j time, i = .wake j ∧ s.cpuIndex j = some n ∧ (s.cpu n).wait = .untilTime time ∧ time ≤ s.now ∧
      (t.cpu n).wait = .running) ∨
    (∃ id, (s.cpu n).wait = .onTrigger id ∧ (t.cpu n).wait = .running ∧ ∀ j k, i ≠ .assertLine j k ∧ i ≠ .pulse j k)

/-! ### The CPU interrupt adapter -/

/-- ASSERT sets the level-held line of its kind, PULSE the request of its kind; nothing else changes (44 R171, R173). -/
def Obligations.AssertAndPulse : Prop :=
  ∀ (s : State) (i : Int) (n : Nat), s.cpuIndex i = some n →
    exec (.assertLine i .maskable) s = .next (s.setCpu n fun q => { q with lineM := true }) ∧
    exec (.assertLine i .fast) s = .next (s.setCpu n fun q => { q with lineF := true }) ∧
    exec (.pulse i .maskable) s = .next (s.setCpu n fun q => { q with pulseM := true }) ∧
    exec (.pulse i .fast) s = .next (s.setCpu n fun q => { q with pulseF := true })

/-- CLEAR resets the line of its kind and leaves a pulse request; TAKE consumes the request of a running CPU, and has no step
without a request or on a suspended CPU (44 R172, R175; D32, D33, log 16). -/
def Obligations.ClearAndTake : Prop :=
  ∀ (s : State) (i : Int) (n : Nat), s.cpuIndex i = some n →
    exec (.clearLine i .maskable) s = .next (s.setCpu n fun q => { q with lineM := false }) ∧
    exec (.clearLine i .fast) s = .next (s.setCpu n fun q => { q with lineF := false }) ∧
    ((s.cpu n).wait = .running →
      ((s.cpu n).pulseM = true → exec (.take i .maskable) s = .next (s.setCpu n fun q => { q with pulseM := false })) ∧
      ((s.cpu n).pulseF = true → exec (.take i .fast) s = .next (s.setCpu n fun q => { q with pulseF := false })) ∧
      ((s.cpu n).pulseM = false → exec (.take i .maskable) s = .refused .noPulse) ∧
      ((s.cpu n).pulseF = false → exec (.take i .fast) s = .refused .noPulse)) ∧
    ((s.cpu n).wait ≠ .running → ∀ k, exec (.take i k) s = .refused .suspendedCpu)

/-- A second ASSERT, CLEAR or PULSE right after the first changes nothing (44 R176). -/
def Obligations.AdapterIdempotent : Prop :=
  ∀ (s t : State) (i : Int) (k : Kind), ∀ op ∈ [Instr.assertLine i k, .clearLine i k, .pulse i k],
    exec op s = .next t → exec op t = .next t

/-- A CPU index outside the array makes ASSERT, CLEAR, PULSE and TAKE no-ops (44 R177; D34). -/
def Obligations.OutOfRangeCpu : Prop :=
  ∀ (s : State) (i : Int) (k : Kind), i < 0 ∨ (s.cpus.length : Int) ≤ i →
    ∀ op ∈ [Instr.assertLine i k, .clearLine i k, .pulse i k, .take i k], exec op s = .next s

/-- A pulse request stays, under any wiring, until a TAKE of that CPU and kind or an ADV (44 R174; D32). -/
def Obligations.PulseLifetime : Prop :=
  ∀ (s t : State) (i : Instr) (n : Nat) (k : Kind), exec i s = .next t → pulseOf (s.cpu n) k = true →
    pulseOf (t.cpu n) k = true ∨ (∃ j, i = .take j k ∧ s.cpuIndex j = some n) ∨ (∃ dt, i = .adv dt)

/-! ### Lifecycle -/

/-- CONFIGURE writes `interface`, `addressing`, `configured` of its slot and nothing else (45 R180; D8). -/
def Obligations.Configure : Prop :=
  ∀ (s : State) (c : Int) (n : Nat) (m : Addressing) (f : Interface), s.chipIndex c = some n →
    exec (.configure c m f) s =
      .next { s with
        chips := s.chips.modify n fun ch => { ch with intf := f, addressing := m, configured := true } }

/-- RESET_ALL zeroes the registers, flags, aggregates and line memories of every slot and keeps its configuration; UNCONFIGURE_ALL
clears that too; neither touches anything else (45 R182, R183, R185; D9, D35). -/
def Obligations.ResetAndUnconfigure : Prop :=
  ∀ (s : State) (zero : Port),
    zero = ⟨0x00, 0x00, 0x00, 0b000000, false, false, false, false, false, false⟩ →
    exec .resetAll s = .next { s with chips := s.chips.map fun ch => { ch with a := zero, b := zero } } ∧
    exec .unconfigureAll s =
      .next { s with
        chips := s.chips.map fun _ => ⟨zero, zero, ⟨⟨none, none, none, none, none, none⟩, ⟨none, none, none, none, none, none⟩⟩,
          ⟨.standard, .b8⟩, false⟩ }

/-- "Reset idempotence": after RESET_ALL every stored aggregate is false and every direction register reads 0, and a second
RESET_ALL changes nothing (45 R182, 10 R47). -/
def Obligations.ResetIdempotence : Prop :=
  ∀ s : State, ∃ t, exec .resetAll s = .next t ∧ exec .resetAll t = .next t ∧
    ∀ (c : Int) (n : Nat) (p : PortId), s.chipIndex c = some n →
      (t.port n p).irqState = false ∧
      ((s.chip n).addressing.bus = .b8 → ∀ off, slotAt (s.chip n).addressing off = dataSlotOf p →
        exec (rdDdrOf p c off) t = .next { t with result := .byte 0x00 })

end
end

