-- ==== Sys2Proof/Laws/Decode.lean ====
section
/-! SUPPORT. Every operand reads back what was written of it (log 2). -/

namespace Sys2Proof

theorem readNat_natBytes (fuel n : Nat) (tail : List Byte) (h : n ≤ fuel) :
    readNat (natBytes fuel n ++ tail) = some (n, tail) := by
  induction fuel generalizing n with
  | zero =>
    have : n = 0 := by omega
    subst this
    simp [natBytes, readNat]
  | succ fuel ih =>
    simp only [natBytes]
    split
    · next hn =>
      have : n % 256 = n := by omega
      simp [readNat, BitVec.toNat_ofNat, this, hn]
    · next hn =>
      have h1 : ¬ (128 + n % 128) % 256 < 128 := by omega
      have h2 : (128 + n % 128) % 256 - 128 + 128 * (n / 128) = n := by omega
      simp only [List.cons_append, readNat, BitVec.toNat_ofNat]
      rw [if_neg (by simpa using h1), ih (n / 128) (by omega)]
      simp only [Option.some.injEq, Prod.mk.injEq, and_true]
      simpa using h2

@[simp] theorem readNat_writeNat (n : Nat) (tail : List Byte) : readNat (writeNat n ++ tail) = some (n, tail) :=
  readNat_natBytes n n tail (le_refl n)

@[simp] theorem intOfNat_natOfInt (z : Int) : intOfNat (natOfInt z) = z := by
  cases z with
  | ofNat n => simp [natOfInt, intOfNat]
  | negSucc n =>
    have h1 : (2 * n + 1) % 2 ≠ 0 := by omega
    have h2 : (2 * n + 1) / 2 = n := by omega
    simp [natOfInt, intOfNat, h2]

@[simp] theorem readInt_writeInt (z : Int) (tail : List Byte) : readInt (writeInt z ++ tail) = some (z, tail) := by
  simp [readInt, writeInt]

@[simp] theorem readByte_cons (b : Byte) (tail : List Byte) : readByte (b :: tail) = some (b, tail) := rfl

@[simp] theorem readWord_writeWord (w : Word16) (tail : List Byte) : readWord (writeWord w ++ tail) = some (w, tail) := by
  have : (w.extractLsb' 8 8 ++ w.extractLsb' 0 8 : Word16) = w := by
    apply BitVec.eq_of_getLsbD_eq
    intro i hi
    simp only [BitVec.getLsbD_append, BitVec.getLsbD_extractLsb']
    split
    · next h => simp [h]
    · next h =>
      have h1 : i - 8 < 8 := by omega
      have h2 : 8 + (i - 8) = i := by omega
      simp [h1, h2]
  show some (w.extractLsb' 8 8 ++ w.extractLsb' 0 8, tail) = some (w, tail)
  rw [this]

@[simp] theorem readLevel_writeLevel (v : Bool) (tail : List Byte) : readLevel (writeLevel v ++ tail) = some (v, tail) := by
  cases v <;> rfl

@[simp] theorem readBinding_writeBinding (b : Option Nat) (tail : List Byte) :
    readBinding (writeBinding b ++ tail) = some (b, tail) := by
  cases b <;> simp [readBinding, writeBinding]

@[simp] theorem readPortBindings_write (p : PortBindings) (tail : List Byte) :
    readPortBindings (writePortBindings p ++ tail) = some (p, tail) := by
  simp [readPortBindings, writePortBindings]

@[simp] theorem readInterface_write (f : Interface) (tail : List Byte) :
    readInterface (writeInterface f ++ tail) = some (f, tail) := by
  simp [readInterface, writeInterface]

@[simp] theorem addressingOfCode_codeOf (m : Addressing) : addressingOfCode (codeOfAddressing m) = some m := by
  obtain ⟨o, b⟩ := m
  cases o <;> cases b <;> rfl

end Sys2Proof
end

