-- ==== Sys2Proof/Laws/State.lean ====
section
/-! SUPPORT. The small lemmas of State: one per field per update, the reads of a port after a write of a port, the reads of a
CPU after a write of a CPU. -/

namespace Sys2Proof.Machine

/-! ### The fields of a port after an update of a chip -/

@[simp] theorem portOf_mapPort_same (p : PortId) (f : Port → Port) (ch : Chip) :
    portOf (mapPort p f ch) p = f (portOf ch p) := by cases p <;> rfl

theorem portOf_mapPort_ne {p p' : PortId} (h : p' ≠ p) (f : Port → Port) (ch : Chip) :
    portOf (mapPort p f ch) p' = portOf ch p' := by cases p <;> cases p' <;> first | rfl | exact absurd rfl h

@[simp] theorem mapPort_intf (p : PortId) (f : Port → Port) (ch : Chip) : (mapPort p f ch).intf = ch.intf := by
  cases p <;> rfl
@[simp] theorem mapPort_addressing (p : PortId) (f : Port → Port) (ch : Chip) :
    (mapPort p f ch).addressing = ch.addressing := by cases p <;> rfl
@[simp] theorem mapPort_configured (p : PortId) (f : Port → Port) (ch : Chip) :
    (mapPort p f ch).configured = ch.configured := by cases p <;> rfl
@[simp] theorem pinsOf_mapPort (p p' : PortId) (f : Port → Port) (ch : Chip) :
    pinsOf (mapPort p f ch) p' = pinsOf ch p' := by cases p' <;> simp [pinsOf]
@[simp] theorem mapPort_mapPort (p : PortId) (f g : Port → Port) (ch : Chip) :
    mapPort p g (mapPort p f ch) = mapPort p (g ∘ f) ch := by cases p <;> rfl

/-! ### The fields of a state after `setPort` -/

section
variable (s : State) (n : Nat) (p : PortId) (f : Port → Port)

@[simp] theorem setPort_timeout : (s.setPort n p f).timeout = s.timeout := rfl
@[simp] theorem setPort_waiters : (s.setPort n p f).waiters = s.waiters := rfl
@[simp] theorem setPort_now : (s.setPort n p f).now = s.now := rfl
@[simp] theorem setPort_cpus : (s.setPort n p f).cpus = s.cpus := rfl
@[simp] theorem setPort_trace : (s.setPort n p f).trace = s.trace := rfl
@[simp] theorem setPort_autosenseZero : (s.setPort n p f).autosenseZero = s.autosenseZero := rfl
@[simp] theorem setPort_routes : (s.setPort n p f).routes = s.routes := rfl
@[simp] theorem setPort_inbox : (s.setPort n p f).inbox = s.inbox := rfl
@[simp] theorem setPort_answers : (s.setPort n p f).answers = s.answers := rfl
@[simp] theorem setPort_draws : (s.setPort n p f).draws = s.draws := rfl
@[simp] theorem setPort_result : (s.setPort n p f).result = s.result := rfl
@[simp] theorem setPort_length : (s.setPort n p f).chips.length = s.chips.length := by simp [State.setPort]

end

/-! ### Chips and ports after `setPort` -/

theorem chip_eq_getElem {s : State} {n : Nat} (h : n < s.chips.length) : s.chip n = s.chips[n] := by
  simp [State.chip, List.getD, h]

theorem chip_setPort (s : State) (n m : Nat) (p : PortId) (f : Port → Port) (h : n < s.chips.length) :
    (s.setPort n p f).chip m = if m = n then mapPort p f (s.chip m) else s.chip m := by
  unfold State.chip State.setPort
  rw [List.getD_eq_getElem?_getD, List.getD_eq_getElem?_getD, List.getElem?_modify]
  by_cases hm : m = n
  · subst hm; simp [h]
  · have hn : ¬ n = m := fun e => hm e.symm
    simp [hm, hn]

theorem chip_setPort_ne (s : State) {n m : Nat} (p : PortId) (f : Port → Port) (h : m ≠ n) :
    (s.setPort n p f).chip m = s.chip m := by
  unfold State.chip State.setPort
  rw [List.getD_eq_getElem?_getD, List.getD_eq_getElem?_getD, List.getElem?_modify]
  have hn : ¬ n = m := fun e => h e.symm
  simp [hn]

theorem chip_setPort_same (s : State) {n : Nat} (p : PortId) (f : Port → Port) (h : n < s.chips.length) :
    (s.setPort n p f).chip n = mapPort p f (s.chip n) := by simp [chip_setPort s n n p f h]

theorem port_setPort_same (s : State) {n : Nat} (p : PortId) (f : Port → Port) (h : n < s.chips.length) :
    (s.setPort n p f).port n p = f (s.port n p) := by simp [State.port, chip_setPort_same s p f h]

theorem port_setPort_other {s : State} {n m : Nat} {p p' : PortId} (f : Port → Port) (h : m ≠ n ∨ p' ≠ p) :
    (s.setPort n p f).port m p' = s.port m p' := by
  by_cases hl : n < s.chips.length
  · unfold State.port
    rw [chip_setPort s n m p f hl]
    split
    · next e => exact portOf_mapPort_ne (h.resolve_left (fun h => h e)) f _
    · rfl
  · have : s.chips.modify n (mapPort p f) = s.chips := by
      apply List.ext_getElem?
      intro j
      rw [List.getElem?_modify]
      by_cases hj : n = j
      · subst hj; simp [List.getElem?_eq_none (Nat.le_of_not_lt hl)]
      · simp [hj]
    simp only [State.port, State.chip, State.setPort, this]

/-- A port update changes no chip's bindings, addressing or configuration. -/
theorem chip_setPort_fixed (s : State) (n m : Nat) (p : PortId) (f : Port → Port) :
    ((s.setPort n p f).chip m).intf = (s.chip m).intf ∧
    ((s.setPort n p f).chip m).addressing = (s.chip m).addressing ∧
    ((s.setPort n p f).chip m).configured = (s.chip m).configured := by
  unfold State.chip State.setPort
  rw [List.getD_eq_getElem?_getD, List.getD_eq_getElem?_getD, List.getElem?_modify]
  cases s.chips[m]? with
  | none => simp
  | some ch => by_cases h : n = m <;> simp [h]

@[simp] theorem pins_setPort (s : State) (n m : Nat) (p p' : PortId) (f : Port → Port) :
    (s.setPort n p f).pins m p' = s.pins m p' := by
  have h := (chip_setPort_fixed s n m p f).1
  cases p' <;> simp [State.pins, pinsOf, h]

@[simp] theorem addressing_setPort (s : State) (n m : Nat) (p : PortId) (f : Port → Port) :
    ((s.setPort n p f).chip m).addressing = (s.chip m).addressing := (chip_setPort_fixed s n m p f).2.1

@[simp] theorem setPort_setPort (s : State) (n : Nat) (p : PortId) (f g : Port → Port) :
    (s.setPort n p f).setPort n p g = s.setPort n p (g ∘ f) := by
  unfold State.setPort
  congr 1
  apply List.ext_getElem?
  intro j
  simp only [List.getElem?_modify]
  cases s.chips[j]? with
  | none => simp
  | some ch => by_cases h : n = j <;> simp [h]

/-- A port update that changes nothing in that port is no update. -/
theorem setPort_eq_self {s : State} {n : Nat} {p : PortId} {f : Port → Port} (h : f (s.port n p) = s.port n p) :
    s.setPort n p f = s := by
  have : s.chips.modify n (mapPort p f) = s.chips := by
    apply List.ext_getElem?
    intro j
    rw [List.getElem?_modify]
    by_cases hj : n = j
    · subst hj
      by_cases hl : n < s.chips.length
      · have e : mapPort p f s.chips[n] = s.chips[n] := by
          rw [State.port, chip_eq_getElem hl] at h
          cases p <;> simp only [mapPort, portOf] at h ⊢ <;> rw [h]
        simp [hl, e]
      · simp [List.getElem?_eq_none (Nat.le_of_not_lt hl)]
    · simp [hj]
  simp only [State.setPort, this]

/-- Two updates of a port that agree on the port's value are the same update. -/
theorem setPort_congr {s : State} {n : Nat} {p : PortId} {f g : Port → Port} (h : f (s.port n p) = g (s.port n p)) :
    s.setPort n p f = s.setPort n p g := by
  have : s.chips.modify n (mapPort p f) = s.chips.modify n (mapPort p g) := by
    apply List.ext_getElem?
    intro j
    simp only [List.getElem?_modify]
    by_cases hj : n = j
    · subst hj
      by_cases hl : n < s.chips.length
      · have e : mapPort p f s.chips[n] = mapPort p g s.chips[n] := by
          rw [State.port, chip_eq_getElem hl] at h
          cases p <;> simp only [mapPort, portOf] at h ⊢ <;> rw [h]
        simp [hl, e]
      · simp [List.getElem?_eq_none (Nat.le_of_not_lt hl)]
    · simp [hj]
  simp only [State.setPort, this]

/-! ### Indices -/

theorem indexIn_lt {len n : Nat} {c : Int} (h : indexIn len c = some n) : n < len := by
  cases c with
  | ofNat k => simp only [indexIn] at h; split at h <;> simp_all
  | negSucc k => simp [indexIn] at h

theorem indexIn_eq_some {len n : Nat} {c : Int} : indexIn len c = some n ↔ c = (n : Int) ∧ n < len := by
  cases c with
  | ofNat k =>
    simp only [indexIn]
    split <;> simp <;> omega
  | negSucc k => simp [indexIn]

theorem indexIn_ofNat {len n : Nat} (h : n < len) : indexIn len (n : Int) = some n := indexIn_eq_some.2 ⟨rfl, h⟩

@[simp] theorem chipIndex_setPort (s : State) (n : Nat) (p : PortId) (f : Port → Port) (c : Int) :
    (s.setPort n p f).chipIndex c = s.chipIndex c := by simp [State.chipIndex]

/-! ### CPUs -/

section
variable (s : State) (n : Nat) (f : Cpu → Cpu)

@[simp] theorem setCpu_chips : (s.setCpu n f).chips = s.chips := rfl
@[simp] theorem setCpu_timeout : (s.setCpu n f).timeout = s.timeout := rfl
@[simp] theorem setCpu_waiters : (s.setCpu n f).waiters = s.waiters := rfl
@[simp] theorem setCpu_now : (s.setCpu n f).now = s.now := rfl
@[simp] theorem setCpu_trace : (s.setCpu n f).trace = s.trace := rfl
@[simp] theorem setCpu_autosenseZero : (s.setCpu n f).autosenseZero = s.autosenseZero := rfl
@[simp] theorem setCpu_routes : (s.setCpu n f).routes = s.routes := rfl
@[simp] theorem setCpu_inbox : (s.setCpu n f).inbox = s.inbox := rfl
@[simp] theorem setCpu_answers : (s.setCpu n f).answers = s.answers := rfl
@[simp] theorem setCpu_draws : (s.setCpu n f).draws = s.draws := rfl
@[simp] theorem setCpu_result : (s.setCpu n f).result = s.result := rfl
@[simp] theorem setCpu_length : (s.setCpu n f).cpus.length = s.cpus.length := by simp [State.setCpu]

end

theorem cpu_setCpu (s : State) (n m : Nat) (f : Cpu → Cpu) (h : n < s.cpus.length) :
    (s.setCpu n f).cpu m = if m = n then f (s.cpu m) else s.cpu m := by
  unfold State.cpu State.setCpu
  rw [List.getD_eq_getElem?_getD, List.getD_eq_getElem?_getD, List.getElem?_modify]
  by_cases hm : m = n
  · subst hm; simp [h]
  · have hn : ¬ n = m := fun e => hm e.symm
    simp [hm, hn]

theorem cpu_setCpu_ne (s : State) {n m : Nat} (f : Cpu → Cpu) (h : m ≠ n) : (s.setCpu n f).cpu m = s.cpu m := by
  unfold State.cpu State.setCpu
  rw [List.getD_eq_getElem?_getD, List.getD_eq_getElem?_getD, List.getElem?_modify]
  have hn : ¬ n = m := fun e => h e.symm
  simp [hn]

theorem setCpu_out_of_range (s : State) {n : Nat} (f : Cpu → Cpu) (h : ¬ n < s.cpus.length) : s.setCpu n f = s := by
  have : s.cpus.modify n f = s.cpus := by
    apply List.ext_getElem?
    intro j
    rw [List.getElem?_modify]
    by_cases hj : n = j
    · subst hj; simp [List.getElem?_eq_none (Nat.le_of_not_lt h)]
    · simp [hj]
  simp only [State.setCpu, this]

/-! ### `andThen` -/

@[simp] theorem andThen_next {α β : Type} (x : α) (f : α → Host.Outcome β Fault Refusal) : andThen (.next x) f = f x := rfl
@[simp] theorem andThen_refused {α β : Type} (r : Refusal) (f : α → Host.Outcome β Fault Refusal) :
    andThen (.refused r : Host.Outcome α Fault Refusal) f = .refused r := rfl

/-- Two steps in order answer a next value exactly when both do. -/
theorem andThen_eq_next {α β : Type} {o : Host.Outcome α Fault Refusal} {f : α → Host.Outcome β Fault Refusal} {y : β} :
    andThen o f = .next y ↔ ∃ x, o = .next x ∧ f x = .next y := by
  cases o with
  | next x => simp
  | fault r => exact nomatch r
  | refused r => simp

/-- Two steps in order are refused where the first is, or the second after it. -/
theorem andThen_eq_refused {α β : Type} {o : Host.Outcome α Fault Refusal} {f : α → Host.Outcome β Fault Refusal}
    {r : Refusal} : andThen o f = .refused r ↔ o = .refused r ∨ ∃ x, o = .next x ∧ f x = .refused r := by
  cases o with
  | next x => simp
  | fault r => exact nomatch r
  | refused r => simp

theorem andThen_assoc {α β γ : Type} (o : Host.Outcome α Fault Refusal) (f : α → Host.Outcome β Fault Refusal)
    (g : β → Host.Outcome γ Fault Refusal) : andThen (andThen o f) g = andThen o fun x => andThen (f x) g := by
  cases o with
  | next x => rfl
  | fault r => rfl
  | refused r => rfl

end Sys2Proof.Machine
end

