-- ==== Sys2Proof/Laws/Ops.lean ====
section
/-! SUPPORT. What the shared operations on the adapter and the scheduler can do: each touches the CPUs, the two maps and nothing
else. -/

namespace Sys2Proof.Machine

/-- `t` differs from `s` in the CPUs, the timeouts and the waiters at most, and has as many CPUs. -/
structure OutsideOnly (s t : State) : Prop where
  same : t = { s with cpus := t.cpus, timeout := t.timeout, waiters := t.waiters }
  cpus_length : t.cpus.length = s.cpus.length

theorem OutsideOnly.refl (s : State) : OutsideOnly s s := ⟨rfl, rfl⟩

theorem OutsideOnly.trans {s t u : State} (h : OutsideOnly s t) (g : OutsideOnly t u) : OutsideOnly s u :=
  ⟨by rw [g.same, h.same], g.cpus_length.trans h.cpus_length⟩

theorem OutsideOnly.chips {s t : State} (h : OutsideOnly s t) : t.chips = s.chips := by rw [h.same]
theorem OutsideOnly.now {s t : State} (h : OutsideOnly s t) : t.now = s.now := by rw [h.same]
theorem OutsideOnly.trace {s t : State} (h : OutsideOnly s t) : t.trace = s.trace := by rw [h.same]
theorem OutsideOnly.autosenseZero {s t : State} (h : OutsideOnly s t) : t.autosenseZero = s.autosenseZero := by rw [h.same]
theorem OutsideOnly.routes {s t : State} (h : OutsideOnly s t) : t.routes = s.routes := by rw [h.same]
theorem OutsideOnly.inbox {s t : State} (h : OutsideOnly s t) : t.inbox = s.inbox := by rw [h.same]
theorem OutsideOnly.answers {s t : State} (h : OutsideOnly s t) : t.answers = s.answers := by rw [h.same]
theorem OutsideOnly.draws {s t : State} (h : OutsideOnly s t) : t.draws = s.draws := by rw [h.same]
theorem OutsideOnly.result {s t : State} (h : OutsideOnly s t) : t.result = s.result := by rw [h.same]

theorem setCpu_outside (n : Nat) (f : Cpu → Cpu) (s : State) : OutsideOnly s (s.setCpu n f) :=
  ⟨rfl, setCpu_length s n f⟩

/-- `setLevel` writes one line of one CPU. -/
theorem setLevel_outside (i : Int) (kind : Kind) (v : Bool) (s : State) : OutsideOnly s (setLevel i kind v s) := by
  unfold setLevel
  split
  · exact OutsideOnly.refl s
  · cases kind <;> exact setCpu_outside _ _ s

/-- `setPulse` writes one request of one CPU. -/
theorem setPulse_outside (i : Int) (kind : Kind) (v : Bool) (s : State) : OutsideOnly s (setPulse i kind v s) := by
  unfold setPulse
  split
  · exact OutsideOnly.refl s
  · cases kind <;> exact setCpu_outside _ _ s

theorem resumeAll_outside (l : List Nat) (s : State) : OutsideOnly s (resumeAll l s) := by
  induction l generalizing s with
  | nil => exact OutsideOnly.refl s
  | cons n l ih => exact (setCpu_outside n _ s).trans (ih _)

@[simp] theorem resumeAll_timeout (l : List Nat) (s : State) : (resumeAll l s).timeout = s.timeout := by
  induction l generalizing s with
  | nil => rfl
  | cons n l ih => exact ih _

@[simp] theorem resumeAll_waiters (l : List Nat) (s : State) : (resumeAll l s).waiters = s.waiters := by
  induction l generalizing s with
  | nil => rfl
  | cons n l ih => exact ih _

/-- A CPU after `resumeAll`: it runs if it is listed (and exists), and is as before otherwise. -/
theorem cpu_resumeAll (l : List Nat) (s : State) (m : Nat) :
    (resumeAll l s).cpu m =
      if m ∈ l ∧ m < s.cpus.length then { s.cpu m with wait := .running } else s.cpu m := by
  induction l generalizing s with
  | nil => simp [resumeAll]
  | cons n l ih =>
    have hlen : (setWait n .running s).cpus.length = s.cpus.length := setCpu_length s n _
    rw [resumeAll, ih, hlen]
    by_cases hn : n < s.cpus.length
    · have hc : (setWait n .running s).cpu m = if m = n then { s.cpu m with wait := .running } else s.cpu m :=
        cpu_setCpu s n m _ hn
      rw [hc]
      by_cases hm : m = n
      · subst hm; simp [hn]
      · simp [hm]
    · have hc : setWait n .running s = s := setCpu_out_of_range s _ hn
      rw [hc]
      by_cases hm : m = n
      · subst hm; simp [hn]
      · simp [hm]

/-- `Fire` resumes the waiters of its trigger and forgets the trigger. -/
theorem fireTrigger_eq (id : Int) (s : State) :
    fireTrigger id s =
      { s with
        cpus := (resumeAll (waitersOf id s.waiters) s).cpus
        waiters := mapErase id s.waiters
        timeout := mapErase id s.timeout } := by
  unfold fireTrigger
  simp only [resumeAll_waiters, resumeAll_timeout]
  rw [(resumeAll_outside _ s).same]

theorem fireTrigger_outside (id : Int) (s : State) : OutsideOnly s (fireTrigger id s) := by
  rw [fireTrigger_eq]
  exact ⟨rfl, (resumeAll_outside _ s).cpus_length⟩

theorem armTimeout_outside (id : Int) (delay : Nat) (s : State) : OutsideOnly s (armTimeout id delay s) := ⟨rfl, rfl⟩

/-- A routed action other than a line sample touches the adapter and the scheduler only. -/
theorem plainAction_outside (s : State) (x : Action) : OutsideOnly s (plainAction s x) := by
  cases x with
  | line => exact OutsideOnly.refl s
  | assertLine i k => exact setLevel_outside i k true s
  | clearLine i k => exact setLevel_outside i k false s
  | pulse i k => exact setPulse_outside i k true s
  | fire id => exact fireTrigger_outside id s
  | sched id d => exact armTimeout_outside id d s

theorem foldl_plainAction_outside (l : List Action) (s : State) : OutsideOnly s (l.foldl plainAction s) := by
  induction l generalizing s with
  | nil => exact OutsideOnly.refl s
  | cons x l ih => exact (plainAction_outside s x).trans (ih _)

/-- The plain actions look at no chip. -/
theorem plainAction_chips_comm (s : State) (x : Action) (ch : List Chip) :
    plainAction { s with chips := ch } x = { plainAction s x with chips := ch } := by
  cases x with
  | line => rfl
  | assertLine i k =>
    simp only [plainAction, setLevel, State.cpuIndex]
    split
    · rfl
    · cases k <;> rfl
  | clearLine i k =>
    simp only [plainAction, setLevel, State.cpuIndex]
    split
    · rfl
    · cases k <;> rfl
  | pulse i k =>
    simp only [plainAction, setPulse, State.cpuIndex]
    split
    · rfl
    · cases k <;> rfl
  | fire id =>
    simp only [plainAction, fireTrigger_eq]
    congr 1
    generalize waitersOf id s.waiters = l
    clear id
    induction l generalizing s with
    | nil => rfl
    | cons n l ih => exact ih (s := setWait n .running s)
  | sched id d => rfl

/-- A drive event under a wiring without line routes: the trace grows by it, and the rest is the adapter's and the
scheduler's. -/
theorem emit_frame (s : State) (e : Event) :
    ∃ t, OutsideOnly s t ∧ s.emit e = { t with trace := s.trace ++ [e] } := by
  have h := foldl_plainAction_outside (routeOf e.sink e.value s.routes) { s with trace := s.trace ++ [e] }
  refine ⟨{ s.emit e with trace := s.trace }, ⟨?_, h.cpus_length⟩, ?_⟩
  · show _ = _
    unfold State.emit
    rw [h.same]
  · unfold State.emit
    rw [h.same]

@[simp] theorem emit_chips (s : State) (e : Event) : (s.emit e).chips = s.chips := by
  obtain ⟨t, h, he⟩ := emit_frame s e; rw [he]; exact h.chips
@[simp] theorem emit_routes (s : State) (e : Event) : (s.emit e).routes = s.routes := by
  obtain ⟨t, h, he⟩ := emit_frame s e; rw [he]; exact h.routes
@[simp] theorem emit_now (s : State) (e : Event) : (s.emit e).now = s.now := by
  obtain ⟨t, h, he⟩ := emit_frame s e; rw [he]; exact h.now
@[simp] theorem emit_autosenseZero (s : State) (e : Event) : (s.emit e).autosenseZero = s.autosenseZero := by
  obtain ⟨t, h, he⟩ := emit_frame s e; rw [he]; exact h.autosenseZero
@[simp] theorem emit_inbox (s : State) (e : Event) : (s.emit e).inbox = s.inbox := by
  obtain ⟨t, h, he⟩ := emit_frame s e; rw [he]; exact h.inbox
@[simp] theorem emit_answers (s : State) (e : Event) : (s.emit e).answers = s.answers := by
  obtain ⟨t, h, he⟩ := emit_frame s e; rw [he]; exact h.answers
@[simp] theorem emit_draws (s : State) (e : Event) : (s.emit e).draws = s.draws := by
  obtain ⟨t, h, he⟩ := emit_frame s e; rw [he]; exact h.draws
@[simp] theorem emit_result (s : State) (e : Event) : (s.emit e).result = s.result := by
  obtain ⟨t, h, he⟩ := emit_frame s e; rw [he]; exact h.result
@[simp] theorem emit_trace (s : State) (e : Event) : (s.emit e).trace = s.trace ++ [e] := by
  obtain ⟨t, h, he⟩ := emit_frame s e; rw [he]
@[simp] theorem emit_cpus_length (s : State) (e : Event) : (s.emit e).cpus.length = s.cpus.length := by
  obtain ⟨t, h, he⟩ := emit_frame s e; rw [he]; exact h.cpus_length

@[simp] theorem emitAll_nil (s : State) : s.emitAll [] = s := rfl
@[simp] theorem emitAll_cons (s : State) (e : Event) (es : List Event) : s.emitAll (e :: es) = (s.emit e).emitAll es := rfl
theorem emitAll_append (s : State) (es fs : List Event) : s.emitAll (es ++ fs) = (s.emitAll es).emitAll fs := by
  simp [State.emitAll]

@[simp] theorem emitAll_chips (s : State) (es : List Event) : (s.emitAll es).chips = s.chips := by
  induction es generalizing s with
  | nil => rfl
  | cons e es ih => rw [emitAll_cons, ih, emit_chips]
@[simp] theorem emitAll_routes (s : State) (es : List Event) : (s.emitAll es).routes = s.routes := by
  induction es generalizing s with
  | nil => rfl
  | cons e es ih => rw [emitAll_cons, ih, emit_routes]
@[simp] theorem emitAll_trace (s : State) (es : List Event) : (s.emitAll es).trace = s.trace ++ es := by
  induction es generalizing s with
  | nil => simp
  | cons e es ih => rw [emitAll_cons, ih, emit_trace]; simp
@[simp] theorem emitAll_now (s : State) (es : List Event) : (s.emitAll es).now = s.now := by
  induction es generalizing s with
  | nil => rfl
  | cons e es ih => rw [emitAll_cons, ih, emit_now]

/-- Emission looks at no chip: a change of the chips may be made before it or after it. -/
theorem emit_chips_comm (s : State) (e : Event) (ch : List Chip) :
    ({ s with chips := ch } : State).emit e = { s.emit e with chips := ch } := by
  unfold State.emit
  have key : ∀ (l : List Action) (u : State),
      l.foldl plainAction { u with chips := ch } = { l.foldl plainAction u with chips := ch } := by
    intro l
    induction l with
    | nil => intro u; rfl
    | cons x l ih =>
      intro u
      rw [List.foldl_cons, List.foldl_cons, plainAction_chips_comm, ih]
  exact key (routeOf e.sink e.value s.routes) { s with trace := s.trace ++ [e] }

theorem emitAll_chips_comm (s : State) (es : List Event) (ch : List Chip) :
    ({ s with chips := ch } : State).emitAll es = { s.emitAll es with chips := ch } := by
  induction es generalizing s with
  | nil => rfl
  | cons e es ih => rw [emitAll_cons, emit_chips_comm, ih, emitAll_cons]

/-- A port may be written before the emission or after it. -/
theorem emitAll_setPort (s : State) (es : List Event) (n : Nat) (p : PortId) (f : Port → Port) :
    (s.setPort n p f).emitAll es = (s.emitAll es).setPort n p f := by
  unfold State.setPort
  rw [emitAll_chips_comm, emitAll_chips]

end Sys2Proof.Machine
end

