-- ==== Sys2Proof/Laws/Drive.lean ====
section
/-! SUPPORT. What a drive, and all it cascades into, can do: under any wiring (`Cascade`), and exactly under a wiring without
line routes (the `_plain` lemmas). One lemma per shared operation. -/

namespace Sys2Proof.Machine

/-! ### Under any wiring -/

/-- What a cascade leaves of a port: its registers, and every flag that is set (41 R135). -/
structure PortKept (q r : Port) : Prop where
  ddr : r.ddr = q.ddr
  out : r.out = q.out
  inp : r.inp = q.inp
  ctl : r.ctl = q.ctl
  irq1 : q.irq1 = true → r.irq1 = true
  irq2 : q.irq2 = true → r.irq2 = true

theorem PortKept.refl (q : Port) : PortKept q q := ⟨rfl, rfl, rfl, rfl, id, id⟩

theorem PortKept.trans {q r u : Port} (h : PortKept q r) (g : PortKept r u) : PortKept q u :=
  ⟨g.ddr.trans h.ddr, g.out.trans h.out, g.inp.trans h.inp, g.ctl.trans h.ctl, fun e => g.irq1 (h.irq1 e),
    fun e => g.irq2 (h.irq2 e)⟩

/-- All that a cascade within operations on the chips of `busy` can do. -/
structure Cascade (busy : List Nat) (s t : State) : Prop where
  chips_length : t.chips.length = s.chips.length
  cpus_length : t.cpus.length = s.cpus.length
  now : t.now = s.now
  autosenseZero : t.autosenseZero = s.autosenseZero
  routes : t.routes = s.routes
  inbox : t.inbox = s.inbox
  answers : t.answers = s.answers
  draws : t.draws = s.draws
  result : t.result = s.result
  trace : s.trace <+: t.trace
  busy : ∀ n ∈ busy, t.chip n = s.chip n
  fixed : ∀ n, (t.chip n).intf = (s.chip n).intf ∧ (t.chip n).addressing = (s.chip n).addressing ∧
    (t.chip n).configured = (s.chip n).configured
  kept : ∀ n p, PortKept (s.port n p) (t.port n p)

theorem Cascade.refl (busy : List Nat) (s : State) : Cascade busy s s :=
  ⟨rfl, rfl, rfl, rfl, rfl, rfl, rfl, rfl, rfl, List.prefix_refl _, fun _ _ => rfl, fun _ => ⟨rfl, rfl, rfl⟩,
    fun _ _ => PortKept.refl _⟩

theorem Cascade.trans {busy : List Nat} {s t u : State} (h : Cascade busy s t) (g : Cascade busy t u) :
    Cascade busy s u where
  chips_length := g.chips_length.trans h.chips_length
  cpus_length := g.cpus_length.trans h.cpus_length
  now := g.now.trans h.now
  autosenseZero := g.autosenseZero.trans h.autosenseZero
  routes := g.routes.trans h.routes
  inbox := g.inbox.trans h.inbox
  answers := g.answers.trans h.answers
  draws := g.draws.trans h.draws
  result := g.result.trans h.result
  trace := h.trace.trans g.trace
  busy := fun n hn => (g.busy n hn).trans (h.busy n hn)
  fixed := fun n => ⟨(g.fixed n).1.trans (h.fixed n).1, (g.fixed n).2.1.trans (h.fixed n).2.1,
    (g.fixed n).2.2.trans (h.fixed n).2.2⟩
  kept := fun n p => (h.kept n p).trans (g.kept n p)

theorem Cascade.mono {busy small : List Nat} {s t : State} (h : Cascade busy s t) (hs : ∀ n ∈ small, n ∈ busy) :
    Cascade small s t := { h with busy := fun n hn => h.busy n (hs n hn) }

theorem Cascade.chip_nil {s t : State} {busy : List Nat} (h : Cascade busy s t) : Cascade [] s t :=
  h.mono fun _ hn => nomatch hn

theorem OutsideOnly.cascade {s t : State} (h : OutsideOnly s t) (busy : List Nat) : Cascade busy s t where
  chips_length := by rw [h.chips]
  cpus_length := h.cpus_length
  now := h.now
  autosenseZero := h.autosenseZero
  routes := h.routes
  inbox := h.inbox
  answers := h.answers
  draws := h.draws
  result := h.result
  trace := by rw [h.trace]
  busy := fun n _ => by simp only [State.chip, h.chips]
  fixed := fun n => by simp [State.chip, h.chips]
  kept := fun n p => by simp only [State.port, State.chip, h.chips]; exact PortKept.refl _

/-- A port write that keeps the port's registers and flags, on a chip with no operation in progress. -/
theorem setPort_cascade {busy : List Nat} {n : Nat} (hb : n ∉ busy) (p : PortId) (f : Port → Port) (s : State)
    (hf : PortKept (s.port n p) (f (s.port n p))) : Cascade busy s (s.setPort n p f) where
  chips_length := setPort_length s n p f
  cpus_length := rfl
  now := rfl
  autosenseZero := rfl
  routes := rfl
  inbox := rfl
  answers := rfl
  draws := rfl
  result := rfl
  trace := List.prefix_refl _
  busy := fun m hm => chip_setPort_ne s p f fun e => hb (e ▸ hm)
  fixed := fun m => chip_setPort_fixed s n m p f
  kept := fun m p' => by
    by_cases h : m = n ∧ p' = p
    · obtain ⟨rfl, rfl⟩ := h
      by_cases hl : m < s.chips.length
      · rw [port_setPort_same s p' f hl]; exact hf
      · have : s.setPort m p' f = s := by
          have e : s.chips.modify m (mapPort p' f) = s.chips := by
            apply List.ext_getElem?
            intro j
            rw [List.getElem?_modify]
            by_cases hj : m = j
            · subst hj; simp [List.getElem?_eq_none (Nat.le_of_not_lt hl)]
            · simp [hj]
          simp only [State.setPort, e]
        rw [this]; exact PortKept.refl _
    · rw [port_setPort_other f (by by_cases e : m = n <;> simp_all)]; exact PortKept.refl _

/-- A driver that does no more than a cascade. -/
def CascadeDriver (busy : List Nat) (drive : Driver) : Prop :=
  ∀ b v s t, drive b v s = .next t → Cascade busy s t

/-- `UpdateIrq` stores the aggregate of its port and cascades (42 R141). -/
theorem updateIrq_cascade {drive : Driver} {n : Nat} (hd : CascadeDriver [n] drive) {p : PortId} {s t : State}
    (h : updateIrq drive n p s = .next t) :
    Cascade [n] (s.setPort n p fun q => { q with irqState := aggregate (s.port n p) }) t := by
  unfold updateIrq at h
  simp only at h
  split at h
  · next e =>
    have hs : s.setPort n p (fun q => { q with irqState := aggregate (s.port n p) }) = s := by
      apply setPort_eq_self; rw [e]
    cases h
    rw [hs]
    exact Cascade.refl _ _
  · split at h
    · cases h; exact Cascade.refl _ _
    · exact hd _ _ _ _ h

/-- C2 moves to a level, and the rest is cascade. -/
theorem moveC2_cascade {drive : Driver} {n : Nat} (hd : CascadeDriver [n] drive) {p : PortId} {v : Bool} {s t : State}
    (h : moveC2 drive n p v s = .next t) :
    ∃ u, Cascade [n] s u ∧ t = u.setPort n p fun q => { q with outC2 := v } := by
  unfold moveC2 at h
  obtain ⟨u, hu, ht⟩ := andThen_eq_next.1 h
  refine ⟨u, ?_, by cases ht; rfl⟩
  split at hu
  · cases hu; exact Cascade.refl _ _
  · exact hd _ _ _ _ hu

/-- A line sample keeps every register and every set flag, of its own chip too (41 R135). -/
theorem setLine_cascade {drive : Driver} {n : Nat} {busy : List Nat} (hn : n ∉ busy)
    (hd : CascadeDriver (n :: busy) drive) {l : Line} {v : Bool} {s t : State} (h : setLine drive n l v s = .next t) :
    Cascade busy s t := by
  have hd1 : CascadeDriver [n] drive := fun b v s t e => (hd b v s t e).mono (by simp)
  have up : ∀ {p : PortId} {s t : State}, updateIrq drive n p s = .next t → Cascade busy s t := by
    intro p s t e
    unfold updateIrq at e
    simp only at e
    have hset := setPort_cascade hn p (fun q => { q with irqState := aggregate (s.port n p) }) s
      ⟨rfl, rfl, rfl, rfl, id, id⟩
    split at e
    · cases e; exact Cascade.refl _ _
    · split at e
      · cases e; exact hset
      · exact hset.trans ((hd _ _ _ _ e).mono (by simp +contextual))
  have mv : ∀ {p : PortId} {b : Bool} {s t : State}, moveC2 drive n p b s = .next t → Cascade busy s t := by
    intro p b s t e
    unfold moveC2 at e
    obtain ⟨u, hu, ht⟩ := andThen_eq_next.1 e
    have h1 : Cascade busy s u := by
      split at hu
      · cases hu; exact Cascade.refl _ _
      · exact (hd _ _ _ _ hu).mono (by simp +contextual)
    cases ht
    exact h1.trans (setPort_cascade hn _ _ _ ⟨rfl, rfl, rfl, rfl, id, id⟩)
  unfold setLine at h
  split at h
  · unfold sampleC1 at h
    obtain ⟨u, hu, ht⟩ := andThen_eq_next.1 h
    have h1 : Cascade busy s u := by
      split at hu
      · obtain ⟨w, hw, hwu⟩ := andThen_eq_next.1 hu
        have h2 := (setPort_cascade hn _ _ s ⟨rfl, rfl, rfl, rfl, fun _ => rfl, id⟩).trans (up hw)
        split at hwu
        · exact h2.trans (mv hwu)
        · cases hwu; exact h2
      · cases hu; exact Cascade.refl _ _
    cases ht
    exact h1.trans (setPort_cascade hn _ _ _ ⟨rfl, rfl, rfl, rfl, id, id⟩)
  · unfold sampleC2 at h
    obtain ⟨u, hu, ht⟩ := andThen_eq_next.1 h
    have h1 : Cascade busy s u := by
      split at hu
      · exact (setPort_cascade hn _ _ s ⟨rfl, rfl, rfl, rfl, id, fun _ => rfl⟩).trans (up hu)
      · cases hu; exact Cascade.refl _ _
    cases ht
    exact h1.trans (setPort_cascade hn _ _ _ ⟨rfl, rfl, rfl, rfl, id, id⟩)

theorem performAction_cascade {sample : LineSampler} {busy : List Nat}
    (hs : ∀ c l v s t, sample c l v s = .next t → Cascade busy s t) {x : Action} {s t : State}
    (h : performAction sample x s = .next t) : Cascade busy s t := by
  cases x with
  | line c l v => exact hs c l v s t h
  | assertLine i k => cases h; exact (setLevel_outside i k true s).cascade busy
  | clearLine i k => cases h; exact (setLevel_outside i k false s).cascade busy
  | pulse i k => cases h; exact (setPulse_outside i k true s).cascade busy
  | fire id => cases h; exact (fireTrigger_outside id s).cascade busy
  | sched id d => cases h; exact (armTimeout_outside id d s).cascade busy

theorem performActions_cascade {sample : LineSampler} {busy : List Nat}
    (hs : ∀ c l v s t, sample c l v s = .next t → Cascade busy s t) {l : List Action} {s t : State}
    (h : performActions sample l s = .next t) : Cascade busy s t := by
  induction l generalizing s with
  | nil => cases h; exact Cascade.refl _ _
  | cons x l ih =>
    obtain ⟨u, hu, ht⟩ := andThen_eq_next.1 h
    exact (performAction_cascade hs hu).trans (ih ht)

theorem driveWith_cascade {sample : LineSampler} {busy : List Nat}
    (hs : ∀ c l v s t, sample c l v s = .next t → Cascade busy s t) : CascadeDriver busy (driveWith sample) := by
  intro b v s t h
  unfold driveWith at h
  split at h
  · cases h; exact Cascade.refl _ _
  · next k =>
    have h1 : Cascade busy s { s with trace := s.trace ++ [⟨k, v⟩] } :=
      { Cascade.refl busy s with trace := ⟨_, rfl⟩ }
    exact h1.trans (performActions_cascade hs h)

/-- A delivered line sample keeps every chip with an operation in progress as it is (46 R193), and cascades. -/
theorem deliverLine_cascade (fuel : Nat) (busy : List Nat) :
    ∀ c l v s t, deliverLine fuel busy c l v s = .next t → Cascade busy s t := by
  induction fuel generalizing busy with
  | zero =>
    intro c l v s t h
    unfold deliverLine at h
    split at h <;> cases h
    exact Cascade.refl _ _
  | succ fuel ih =>
    intro c l v s t h
    unfold deliverLine at h
    split at h
    · cases h; exact Cascade.refl _ _
    · next n _ =>
      split at h
      · cases h
      · next hb =>
        exact setLine_cascade (by simpa using hb) (driveWith_cascade (ih (n :: busy))) h

/-- `Drive` within an operation on chip `n` leaves that chip alone, and cascades. -/
theorem driveFrom_cascade (n : Nat) (s : State) : CascadeDriver [n] (driveFrom n s) :=
  driveWith_cascade (deliverLine_cascade _ _)

theorem presentLine_cascade {c : Int} {l : Line} {v : Bool} {s t : State} (h : presentLine c l v s = .next t) :
    Cascade [] s t := deliverLine_cascade _ _ c l v s t h

/-! ### Exactly, under a wiring without line routes -/

/-- A driver that, where no route delivers a line sample, emits its event. -/
def PlainDriver (drive : Driver) : Prop :=
  ∀ b v s, s.noLineRoutes = true → drive b v s = .next (s.emitAll (eventOn b v))

theorem routeOf_mem {k : Nat} {v : SinkValue} {x : Action} {rs : List RouteEntry} (h : x ∈ routeOf k v rs) :
    ∃ e ∈ rs, x ∈ e.actions := by
  induction rs with
  | nil => simp [routeOf] at h
  | cons e rs ih =>
    simp only [routeOf] at h
    split at h
    · exact ⟨e, by simp, h⟩
    · obtain ⟨e', he, hx⟩ := ih h
      exact ⟨e', by simp [he], hx⟩

theorem noLineRoutes_congr {s t : State} (hr : t.routes = s.routes) (hc : t.chips.length = s.chips.length) :
    t.noLineRoutes = s.noLineRoutes := by simp only [State.noLineRoutes, hr, hc]

@[simp] theorem noLineRoutes_setPort (s : State) (n : Nat) (p : PortId) (f : Port → Port) :
    (s.setPort n p f).noLineRoutes = s.noLineRoutes := noLineRoutes_congr rfl (setPort_length s n p f)

@[simp] theorem noLineRoutes_emitAll (s : State) (es : List Event) :
    (s.emitAll es).noLineRoutes = s.noLineRoutes :=
  noLineRoutes_congr (emitAll_routes s es) (by rw [emitAll_chips])

theorem performActions_plain {sample : LineSampler}
    (hs : ∀ c l v s, s.chipIndex c = none → sample c l v s = .next s) {l : List Action} {s : State}
    (h : ∀ x ∈ l, lineTarget s.chips.length x = none) : performActions sample l s = .next (l.foldl plainAction s) := by
  induction l generalizing s with
  | nil => rfl
  | cons x l ih =>
    have hx : performAction sample x s = .next (plainAction s x) := by
      cases x with
      | line c l v => exact hs c l v s (h (.line c l v) (by simp))
      | assertLine => rfl
      | clearLine => rfl
      | pulse => rfl
      | fire => rfl
      | sched => rfl
    rw [performActions, hx, andThen_next, List.foldl_cons]
    apply ih
    intro y hy
    rw [(plainAction_outside s x).chips]
    exact h y (by simp [hy])

theorem deliverLine_none (fuel : Nat) (busy : List Nat) (c : Int) (l : Line) (v : Bool) (s : State)
    (h : s.chipIndex c = none) : deliverLine fuel busy c l v s = .next s := by
  cases fuel <;> simp [deliverLine, h]

theorem drive_plain (fuel : Nat) (busy : List Nat) : PlainDriver (driveWith (deliverLine fuel busy)) := by
  intro b v s h
  cases b with
  | none => rfl
  | some k =>
    unfold driveWith
    have := performActions_plain (sample := deliverLine fuel busy) (deliverLine_none fuel busy)
      (l := routeOf k v s.routes) (s := { s with trace := s.trace ++ [⟨k, v⟩] }) (by
        intro x hx
        obtain ⟨e, he, hxe⟩ := routeOf_mem hx
        have h1 := List.all_eq_true.1 h e he
        have h2 := List.all_eq_true.1 h1 x hxe
        simpa using h2)
    exact this

theorem driveFrom_plain (n : Nat) (s : State) : PlainDriver (driveFrom n s) := drive_plain _ _

section
variable {drive : Driver} (hd : PlainDriver drive) {n : Nat} {p : PortId} {s : State}
include hd

/-- `UpdateIrq` under a wiring without line routes (42 R141, R142). -/
theorem updateIrq_plain (hs : s.noLineRoutes = true) :
    let t := s.setPort n p fun q => { q with irqState := aggregate (s.port n p) }
    updateIrq drive n p s =
      .next (t.emitAll (irqEvent (s.port n p).irqState (aggregate (s.port n p)) (s.pins n p).irq t.chips)) := by
  intro t
  unfold updateIrq
  simp only
  by_cases e : aggregate (s.port n p) = (s.port n p).irqState
  · have ht : t = s := setPort_eq_self (by rw [e])
    rw [if_pos e, ht]
    unfold irqEvent
    cases (s.pins n p).irq with
    | none => rfl
    | some k => simp [e]
  · rw [if_neg e]
    have e' : ¬ (s.port n p).irqState = aggregate (s.port n p) := fun h => e h.symm
    rw [pins_setPort]
    unfold irqEvent
    cases (s.pins n p).irq with
    | none => rfl
    | some k =>
      simp only [if_neg e']
      exact hd (some k) (.level (wireLevel k t.chips)) t (by simpa [t] using hs)

/-- C2 moves to a level under a wiring without line routes. -/
theorem moveC2_plain (hs : s.noLineRoutes = true) (v : Bool) :
    moveC2 drive n p v s =
      .next ((s.setPort n p fun q => { q with outC2 := v }).emitAll
        (if (s.port n p).outC2 = v then [] else eventOn (s.pins n p).outC2 (.level v))) := by
  unfold moveC2
  split
  · rfl
  · rw [hd _ _ _ hs, andThen_next, emitAll_setPort]

end

end Sys2Proof.Machine
end

