-- ==== Sys2Proof/Laws/Maps.lean ====
section
/-! SUPPORT. The scheduler's maps: what each operation reads afterwards, and that each keeps the canonical form (log 21). -/

namespace Sys2Proof.Machine

/-! ### The timeouts: a map from trigger ids -/

@[simp] theorem mapGet_mapSet_same (id : Int) (v : Nat) (m : List (Int × Nat)) : mapGet id (mapSet id v m) = some v := by
  induction m with
  | nil => simp [mapSet, mapGet]
  | cons e m ih =>
    obtain ⟨k, w⟩ := e
    simp only [mapSet]
    split
    · simp [mapGet]
    · split
      · simp [mapGet]
      · next h => simpa [mapGet, h] using ih

theorem mapGet_mapSet_other {id id' : Int} (h : id' ≠ id) (v : Nat) (m : List (Int × Nat)) :
    mapGet id' (mapSet id v m) = mapGet id' m := by
  have h' : id ≠ id' := fun e => h e.symm
  induction m with
  | nil => simp [mapSet, mapGet, h']
  | cons e m ih =>
    obtain ⟨k, w⟩ := e
    simp only [mapSet]
    split
    · simp [mapGet, h']
    · split
      · next hk => subst hk; simp [mapGet, h']
      · simp only [mapGet, ih]

theorem mem_mapSet {id : Int} {v : Nat} {m : List (Int × Nat)} {e : Int × Nat} (h : e ∈ mapSet id v m) :
    e = (id, v) ∨ e ∈ m := by
  induction m with
  | nil => simpa [mapSet] using h
  | cons x m ih =>
    obtain ⟨k, w⟩ := x
    simp only [mapSet] at h
    split at h
    · simpa using h
    · split at h
      · rcases List.mem_cons.1 h with h | h
        · exact .inl h
        · exact .inr (by simp [h])
      · rcases List.mem_cons.1 h with h | h
        · exact .inr (by simp [h])
        · rcases ih h with h | h
          · exact .inl h
          · exact .inr (by simp [h])

/-- `mapSet` keeps the ids strictly rising. -/
theorem mapSet_sorted (id : Int) (v : Nat) {m : List (Int × Nat)} (h : m.Pairwise fun x y => x.1 < y.1) :
    (mapSet id v m).Pairwise fun x y => x.1 < y.1 := by
  induction m with
  | nil => simp [mapSet]
  | cons x m ih =>
    obtain ⟨k, w⟩ := x
    have hx := List.pairwise_cons.1 h
    simp only [mapSet]
    split
    · next hlt =>
      refine List.pairwise_cons.2 ⟨?_, h⟩
      intro y hy
      rcases List.mem_cons.1 hy with rfl | hy
      · exact hlt
      · exact lt_trans hlt (hx.1 y hy)
    · split
      · next he =>
        subst he
        exact List.pairwise_cons.2 ⟨fun y hy => hx.1 y hy, hx.2⟩
      · next hnlt hne =>
        refine List.pairwise_cons.2 ⟨?_, ih hx.2⟩
        intro y hy
        rcases mem_mapSet hy with rfl | hy
        · show k < id
          omega
        · exact hx.1 y hy

@[simp] theorem mapGet_mapErase_same (id : Int) (m : List (Int × Nat)) : mapGet id (mapErase id m) = none := by
  induction m with
  | nil => rfl
  | cons e m ih =>
    obtain ⟨k, w⟩ := e
    by_cases h : k = id
    · simpa [mapErase, h] using ih
    · simpa [mapErase, h, mapGet] using ih

theorem mapGet_mapErase_other {id id' : Int} (h : id' ≠ id) (m : List (Int × Nat)) :
    mapGet id' (mapErase id m) = mapGet id' m := by
  induction m with
  | nil => rfl
  | cons e m ih =>
    obtain ⟨k, w⟩ := e
    by_cases hk : k = id
    · have hne : ¬ id = id' := fun e => h e.symm
      subst hk
      have e1 : mapErase k ((k, w) :: m) = mapErase k m := by simp [mapErase]
      have e2 : mapGet id' ((k, w) :: m) = mapGet id' m := by simp [mapGet, hne]
      rw [e1, e2, ih]
    · have : mapErase id ((k, w) :: m) = (k, w) :: mapErase id m := by simp [mapErase, hk]
      rw [this]
      simp only [mapGet, ih]

theorem mem_mapErase {id : Int} {m : List (Int × Nat)} {e : Int × Nat} :
    e ∈ mapErase id m ↔ e ∈ m ∧ e.1 ≠ id := by simp [mapErase]

@[simp] theorem mapErase_mapErase (id : Int) (m : List (Int × Nat)) : mapErase id (mapErase id m) = mapErase id m := by
  simp [mapErase]

/-- `mapErase` keeps every canonical form: it only drops entries. -/
theorem mapErase_pairwise {R : Int × Nat → Int × Nat → Prop} (id : Int) {m : List (Int × Nat)} (h : m.Pairwise R) :
    (mapErase id m).Pairwise R := h.filter _

/-! ### The waiters: a set of pairs -/

theorem pairLt_trans {x y z : Int × Nat} (h : pairLt x y = true) (g : pairLt y z = true) : pairLt x z = true := by
  simp only [pairLt, Bool.or_eq_true, decide_eq_true_eq, Bool.and_eq_true, beq_iff_eq] at *
  omega

theorem pairLt_or {x y : Int × Nat} (h : ¬ pairLt x y = true) (hne : x ≠ y) : pairLt y x = true := by
  have hne' : x.1 ≠ y.1 ∨ x.2 ≠ y.2 := by
    by_contra hc
    push Not at hc
    exact hne (Prod.ext hc.1 hc.2)
  simp only [pairLt, Bool.or_eq_true, decide_eq_true_eq, Bool.and_eq_true, beq_iff_eq] at *
  omega

@[simp] theorem mem_pairInsert {x y : Int × Nat} {m : List (Int × Nat)} : y ∈ pairInsert x m ↔ y = x ∨ y ∈ m := by
  induction m with
  | nil => simp [pairInsert]
  | cons z m ih =>
    simp only [pairInsert]
    split
    · simp
    · split
      · next h => subst h; simp
      · simp only [List.mem_cons, ih]; tauto

/-- `pairInsert` keeps the pairs strictly rising. -/
theorem pairInsert_sorted (x : Int × Nat) {m : List (Int × Nat)} (h : m.Pairwise fun x y => pairLt x y = true) :
    (pairInsert x m).Pairwise fun x y => pairLt x y = true := by
  induction m with
  | nil => simp [pairInsert]
  | cons z m ih =>
    have hz := List.pairwise_cons.1 h
    simp only [pairInsert]
    split
    · next hlt =>
      refine List.pairwise_cons.2 ⟨?_, h⟩
      intro y hy
      rcases List.mem_cons.1 hy with rfl | hy
      · exact hlt
      · exact pairLt_trans hlt (hz.1 y hy)
    · split
      · exact h
      · next hnlt hne =>
        refine List.pairwise_cons.2 ⟨?_, ih hz.2⟩
        intro y hy
        rcases mem_pairInsert.1 hy with rfl | hy
        · exact pairLt_or hnlt hne
        · exact hz.1 y hy

@[simp] theorem mem_waitersOf {id : Int} {n : Nat} {w : List (Int × Nat)} : n ∈ waitersOf id w ↔ (id, n) ∈ w := by
  simp only [waitersOf, List.mem_map, List.mem_filter, beq_iff_eq]
  constructor
  · rintro ⟨⟨i, k⟩, ⟨h, rfl⟩, rfl⟩; exact h
  · intro h; exact ⟨(id, n), ⟨h, rfl⟩, rfl⟩

end Sys2Proof.Machine
end

