-- ==== Sys2Proof/Laws/PerInstr.lean ====
section
/-! SUPPORT. One fact per constructor of `Instr`: an operation's first byte is the one its row of spec/opcode_table.json gives. -/

namespace Sys2Proof.Laws.OpcodeByte

/-- The mask and the match of an operation's row (spec/opcode_table.json; codes of 30 R85). -/
def row : Instr → Byte × Byte
  | .rdDdrA _ _ => (0xFF, 0x00)
  | .rdDataA _ _ => (0xFF, 0x01)
  | .rdCtlA _ _ => (0xFE, 0x02)
  | .rdDdrB _ _ => (0xFF, 0x04)
  | .rdDataB _ _ => (0xFF, 0x05)
  | .rdCtlB _ _ => (0xFE, 0x06)
  | .wrDdrA _ _ _ => (0xFF, 0x08)
  | .wrDataA _ _ _ => (0xFF, 0x09)
  | .wrCtlA _ _ _ => (0xFE, 0x0A)
  | .wrDdrB _ _ _ => (0xFF, 0x0C)
  | .wrDataB _ _ _ => (0xFF, 0x0D)
  | .wrCtlB _ _ _ => (0xFE, 0x0E)
  | .rd16L _ _ => (0xFF, 0x11)
  | .rd16U _ _ => (0xFF, 0x12)
  | .rd16A _ _ => (0xFF, 0x13)
  | .wr16L _ _ _ => (0xFF, 0x19)
  | .wr16U _ _ _ => (0xFF, 0x1A)
  | .wr16A _ _ _ => (0xFF, 0x1B)
  | .lineCa1 _ _ => (0xFF, 0x20)
  | .lineCa2 _ _ => (0xFF, 0x21)
  | .lineCb1 _ _ => (0xFF, 0x22)
  | .lineCb2 _ _ => (0xFF, 0x23)
  | .sched _ _ => (0xFF, 0x30)
  | .fire _ => (0xFF, 0x31)
  | .yieldOn _ _ => (0xFF, 0x32)
  | .yieldT _ _ => (0xFF, 0x33)
  | .adv _ => (0xFF, 0x34)
  | .expire _ => (0xFF, 0x35)
  | .wake _ => (0xFF, 0x36)
  | .assertLine _ _ => (0xFE, 0x40)
  | .clearLine _ _ => (0xFE, 0x42)
  | .pulse _ _ => (0xFE, 0x44)
  | .take _ _ => (0xFE, 0x46)
  | .configure _ _ _ => (0xFF, 0x50)
  | .resetAll => (0xFF, 0x51)
  | .unconfigureAll => (0xFF, 0x52)

/-- The first byte of an operation, under its row's mask, is its row's match (30 R85). -/
def Statement (i : Instr) : Prop := ∃ op rest, encode i = op :: rest ∧ op &&& (row i).1 = (row i).2

theorem rdDdrA (c : Int) (off : Nat) : Statement (.rdDdrA c off) := ⟨_, _, rfl, by simp [row]⟩
theorem rdDataA (c : Int) (off : Nat) : Statement (.rdDataA c off) := ⟨_, _, rfl, by simp [row]⟩
theorem rdCtlA (c : Int) (off : Nat) : Statement (.rdCtlA c off) := ⟨_, _, rfl, by simp [row]⟩
theorem rdDdrB (c : Int) (off : Nat) : Statement (.rdDdrB c off) := ⟨_, _, rfl, by simp [row]⟩
theorem rdDataB (c : Int) (off : Nat) : Statement (.rdDataB c off) := ⟨_, _, rfl, by simp [row]⟩
theorem rdCtlB (c : Int) (off : Nat) : Statement (.rdCtlB c off) := ⟨_, _, rfl, by simp [row]⟩
theorem wrDdrA (c : Int) (off : Nat) (d : Byte) : Statement (.wrDdrA c off d) := ⟨_, _, rfl, by simp [row]⟩
theorem wrDataA (c : Int) (off : Nat) (d : Byte) : Statement (.wrDataA c off d) := ⟨_, _, rfl, by simp [row]⟩
theorem wrCtlA (c : Int) (off : Nat) (d : Byte) : Statement (.wrCtlA c off d) := ⟨_, _, rfl, by simp [row]⟩
theorem wrDdrB (c : Int) (off : Nat) (d : Byte) : Statement (.wrDdrB c off d) := ⟨_, _, rfl, by simp [row]⟩
theorem wrDataB (c : Int) (off : Nat) (d : Byte) : Statement (.wrDataB c off d) := ⟨_, _, rfl, by simp [row]⟩
theorem wrCtlB (c : Int) (off : Nat) (d : Byte) : Statement (.wrCtlB c off d) := ⟨_, _, rfl, by simp [row]⟩
theorem rd16L (c : Int) (off : Nat) : Statement (.rd16L c off) := ⟨_, _, rfl, by simp [row]⟩
theorem rd16U (c : Int) (off : Nat) : Statement (.rd16U c off) := ⟨_, _, rfl, by simp [row]⟩
theorem rd16A (c : Int) (off : Nat) : Statement (.rd16A c off) := ⟨_, _, rfl, by simp [row]⟩
theorem wr16L (c : Int) (off : Nat) (d : Word16) : Statement (.wr16L c off d) := ⟨_, _, rfl, by simp [row]⟩
theorem wr16U (c : Int) (off : Nat) (d : Word16) : Statement (.wr16U c off d) := ⟨_, _, rfl, by simp [row]⟩
theorem wr16A (c : Int) (off : Nat) (d : Word16) : Statement (.wr16A c off d) := ⟨_, _, rfl, by simp [row]⟩
theorem lineCa1 (c : Int) (v : Bool) : Statement (.lineCa1 c v) := ⟨_, _, rfl, by simp [row]⟩
theorem lineCa2 (c : Int) (v : Bool) : Statement (.lineCa2 c v) := ⟨_, _, rfl, by simp [row]⟩
theorem lineCb1 (c : Int) (v : Bool) : Statement (.lineCb1 c v) := ⟨_, _, rfl, by simp [row]⟩
theorem lineCb2 (c : Int) (v : Bool) : Statement (.lineCb2 c v) := ⟨_, _, rfl, by simp [row]⟩
theorem sched (id : Int) (delay : Nat) : Statement (.sched id delay) := ⟨_, _, rfl, by simp [row]⟩
theorem fire (id : Int) : Statement (.fire id) := ⟨_, _, rfl, by simp [row]⟩
theorem yieldOn (i : Int) (id : Int) : Statement (.yieldOn i id) := ⟨_, _, rfl, by simp [row]⟩
theorem yieldT (i : Int) (t : Nat) : Statement (.yieldT i t) := ⟨_, _, rfl, by simp [row]⟩
theorem adv (dt : Nat) : Statement (.adv dt) := ⟨_, _, rfl, by simp [row]⟩
theorem expire (id : Int) : Statement (.expire id) := ⟨_, _, rfl, by simp [row]⟩
theorem wake (i : Int) : Statement (.wake i) := ⟨_, _, rfl, by simp [row]⟩
theorem assertLine (i : Int) (k : Kind) : Statement (.assertLine i k) := ⟨_, _, rfl, by cases k <;> simp [row, kindBit]⟩
theorem clearLine (i : Int) (k : Kind) : Statement (.clearLine i k) := ⟨_, _, rfl, by cases k <;> simp [row, kindBit]⟩
theorem pulse (i : Int) (k : Kind) : Statement (.pulse i k) := ⟨_, _, rfl, by cases k <;> simp [row, kindBit]⟩
theorem take (i : Int) (k : Kind) : Statement (.take i k) := ⟨_, _, rfl, by cases k <;> simp [row, kindBit]⟩
theorem configure (c : Int) (m : Addressing) (f : Interface) : Statement (.configure c m f) := ⟨_, _, rfl, by simp [row]⟩
theorem resetAll : Statement .resetAll := ⟨_, _, rfl, by simp [row]⟩
theorem unconfigureAll : Statement .unconfigureAll := ⟨_, _, rfl, by simp [row]⟩

end Sys2Proof.Laws.OpcodeByte
end

