-- ==== Sys2Proof/Laws/Plain.lean ====
section
/-! SUPPORT. The strobe and the line samples, exactly, under a wiring without line routes. -/

namespace Sys2Proof.Machine

/-- The level of a line depends on the stored aggregates only: a port write that keeps them keeps it (42 R142). -/
theorem wireLevel_setPort (k n : Nat) (p : PortId) (f : Port → Port) (s : State)
    (hf : ∀ q, (f q).irqState = q.irqState) : wireLevel k (s.setPort n p f).chips = wireLevel k s.chips := by
  have key : ∀ (l : List Chip) (j : Nat), wireLevel k (l.modify j (mapPort p f)) = wireLevel k l := by
    intro l
    induction l with
    | nil => intro j; simp [wireLevel]
    | cons ch l ih =>
      intro j
      cases j with
      | zero =>
        have : ∀ p', assertsLine k (mapPort p f ch) p' = assertsLine k ch p' := by
          intro p'
          unfold assertsLine
          rw [pinsOf_mapPort]
          by_cases e : p' = p
          · subst e; rw [portOf_mapPort_same, hf]
          · rw [portOf_mapPort_ne e]
        simp [wireLevel, this]
      | succ j =>
        have := ih j
        simp only [wireLevel, List.modify_succ_cons, List.any_cons] at this ⊢
        rw [this]
  exact key _ _

section
variable {drive : Driver} (hd : PlainDriver drive) {n : Nat} {p : PortId} {s : State} (hn : n < s.chips.length)
  (hs : s.noLineRoutes = true)
include hd hn hs

/-- `Strobe(c, P)` under a wiring without line routes (40 R110). -/
theorem strobe_plain :
    strobe drive n p s =
      .next ((s.setPort n p afterStrobe).emitAll (strobeEvents (s.pins n p).outC2 (s.port n p))) := by
  unfold strobe
  rw [moveC2_plain hd hs false, andThen_next]
  have hp : ((s.setPort n p fun q => { q with outC2 := false }).emitAll
      (if (s.port n p).outC2 = false then [] else eventOn (s.pins n p).outC2 (.level false))).port n p
        = { s.port n p with outC2 := false } := by
    have e : ∀ (u : State) (es : List Event), (u.emitAll es).port n p = u.port n p := by
      intro u es; simp [State.port, State.chip]
    rw [e, port_setPort_same s p _ hn]
  have hpins : ((s.setPort n p fun q => { q with outC2 := false }).emitAll
      (if (s.port n p).outC2 = false then [] else eventOn (s.pins n p).outC2 (.level false))).pins n p
        = s.pins n p := by
    have e : ∀ (u : State) (es : List Event), (u.emitAll es).pins n p = u.pins n p := by
      intro u es; simp [State.pins, State.chip]
    rw [e, pins_setPort]
  rw [hp, hpins]
  have hev : (if (s.port n p).outC2 = false then [] else eventOn (s.pins n p).outC2 (.level false)) =
      if (s.port n p).outC2 then eventOn (s.pins n p).outC2 (.level false) else [] := by
    cases (s.port n p).outC2 <;> rfl
  rw [hev]
  have hset : s.setPort n p afterStrobe =
      s.setPort n p (fun q => { q with outC2 := strobeEReset (s.port n p).ctl }) := setPort_congr rfl
  rw [hset]
  unfold strobeEvents
  by_cases he : strobeEReset (s.port n p).ctl = true
  · simp only [he, if_true]
    rw [hd _ _ _ (by simpa using hs), andThen_next, ← emitAll_append, ← emitAll_setPort, setPort_setPort]
    rfl
  · simp only [Bool.not_eq_true] at he
    simp [he]

/-- A sample of C1 under a wiring without line routes (41 R131, R133). -/
theorem sampleC1_plain (v : Bool) :
    let t := s.setPort n p (afterC1 v)
    sampleC1 drive n p v s =
      .next (t.emitAll (irqEvent (s.port n p).irqState (t.port n p).irqState (s.pins n p).irq t.chips
        ++ restoreEvents v (s.pins n p).outC2 (s.port n p))) := by
  intro t
  have emitPort : ∀ (u : State) (es : List Event), (u.emitAll es).port n p = u.port n p := by
    intro u es; simp [State.port, State.chip]
  have emitPins : ∀ (u : State) (es : List Event), (u.emitAll es).pins n p = u.pins n p := by
    intro u es; simp [State.pins, State.chip]
  unfold sampleC1
  simp only
  by_cases he : armedEdge (c1LowToHigh (s.port n p).ctl) (s.port n p).inC1 v = true
  · rw [if_pos he]
    have h1 := updateIrq_plain hd (n := n) (p := p) (s := s.setPort n p fun q => { q with irq1 := true })
      (by simpa using hs)
    simp only [setPort_setPort, port_setPort_same s p _ hn, pins_setPort] at h1
    have ht : t = s.setPort n p (fun q =>
        { q with irq1 := true, irqState := aggregate { s.port n p with irq1 := true },
                 outC2 := restoredByC1 (s.port n p).ctl || (s.port n p).outC2, inC1 := v }) := by
      apply setPort_congr
      simp [afterC1, he]
    have hcomp : (fun q : Port => { q with irqState := aggregate { s.port n p with irq1 := true } }) ∘
        (fun q : Port => { q with irq1 := true }) =
        fun q : Port => { q with irq1 := true, irqState := aggregate { s.port n p with irq1 := true } } := rfl
    rw [hcomp] at h1
    have hir : (t.port n p).irqState = aggregate { s.port n p with irq1 := true } := by
      rw [ht, port_setPort_same s p _ hn]
    have hwire : ∀ b, irqEvent (s.port n p).irqState (aggregate { s.port n p with irq1 := true }) b
        (s.setPort n p fun q => { q with irq1 := true, irqState := aggregate { s.port n p with irq1 := true } }).chips =
        irqEvent (s.port n p).irqState (aggregate { s.port n p with irq1 := true }) b t.chips := by
      intro b
      have : t = (s.setPort n p fun q =>
          { q with irq1 := true, irqState := aggregate { s.port n p with irq1 := true } }).setPort n p
            (fun q => { q with outC2 := restoredByC1 (s.port n p).ctl || (s.port n p).outC2, inC1 := v }) := by
        rw [setPort_setPort, ht]; rfl
      unfold irqEvent
      cases b with
      | none => rfl
      | some k =>
        have hk : wireLevel k t.chips = wireLevel k (s.setPort n p fun q =>
            { q with irq1 := true, irqState := aggregate { s.port n p with irq1 := true } }).chips := by
          rw [this]
          exact wireLevel_setPort k n p _ _ (fun q => rfl)
        simp only [hk]
    rw [h1, andThen_next, emitPort, port_setPort_same s p _ hn, hwire, hir]
    simp only
    unfold restoreEvents
    by_cases hr : restoredByC1 (s.port n p).ctl = true
    · rw [if_pos hr]
      rw [moveC2_plain hd (by simpa using hs) true, andThen_next, emitPort, port_setPort_same s p _ hn, emitPins,
        pins_setPort]
      simp only [he, hr, Bool.true_and]
      simp only [← emitAll_setPort, setPort_setPort, ← emitAll_append]
      rw [ht, hr]
      cases (s.port n p).outC2 <;> rfl
    · simp only [Bool.not_eq_true] at hr
      simp only [hr, Bool.false_eq_true, if_false, andThen_next, Bool.and_false, Bool.false_and, List.append_nil]
      rw [← emitAll_setPort, setPort_setPort, ht, hr]
      congr 1
      congr 1
      exact setPort_congr (by simp)
  · rw [if_neg he]
    simp only [Bool.not_eq_true] at he
    have ht : t = s.setPort n p (fun q => { q with inC1 := v }) := setPort_congr (by simp [afterC1, he])
    have hir : (t.port n p).irqState = (s.port n p).irqState := by rw [ht, port_setPort_same s p _ hn]
    rw [hir, ht]
    have hev : irqEvent (s.port n p).irqState (s.port n p).irqState (s.pins n p).irq
        (s.setPort n p fun q => { q with inC1 := v }).chips = [] := by
      unfold irqEvent; cases (s.pins n p).irq <;> simp
    simp [hev, restoreEvents, he]

/-- A sample of C2 under a wiring without line routes (41 R132, R134). -/
theorem sampleC2_plain (v : Bool) :
    let t := s.setPort n p (afterC2 v)
    sampleC2 drive n p v s =
      .next (t.emitAll (irqEvent (s.port n p).irqState (t.port n p).irqState (s.pins n p).irq t.chips)) := by
  intro t
  unfold sampleC2
  simp only
  by_cases he : (c2Input (s.port n p).ctl && armedEdge (c2LowToHigh (s.port n p).ctl) (s.port n p).inC2 v) = true
  · rw [if_pos he]
    have h1 := updateIrq_plain hd (n := n) (p := p) (s := s.setPort n p fun q => { q with irq2 := true })
      (by simpa using hs)
    simp only [setPort_setPort, port_setPort_same s p _ hn, pins_setPort] at h1
    have hcomp : (fun q : Port => { q with irqState := aggregate { s.port n p with irq2 := true } }) ∘
        (fun q : Port => { q with irq2 := true }) =
        fun q : Port => { q with irq2 := true, irqState := aggregate { s.port n p with irq2 := true } } := rfl
    rw [hcomp] at h1
    have ht : t = (s.setPort n p fun q =>
        { q with irq2 := true, irqState := aggregate { s.port n p with irq2 := true } }).setPort n p
          (fun q => { q with inC2 := v }) := by
      rw [setPort_setPort]
      apply setPort_congr
      simp [afterC2, he]
    have hir : (t.port n p).irqState = aggregate { s.port n p with irq2 := true } := by
      rw [ht, port_setPort_same _ p _ (by simpa using hn), port_setPort_same s p _ hn]
    have hwire : ∀ b, irqEvent (s.port n p).irqState (aggregate { s.port n p with irq2 := true }) b
        (s.setPort n p fun q => { q with irq2 := true, irqState := aggregate { s.port n p with irq2 := true } }).chips =
        irqEvent (s.port n p).irqState (aggregate { s.port n p with irq2 := true }) b t.chips := by
      intro b
      unfold irqEvent
      cases b with
      | none => rfl
      | some k => simp only [ht, wireLevel_setPort k n p (fun q => { q with inC2 := v }) _ (fun q => rfl)]
    rw [h1, andThen_next, hwire, hir, ← emitAll_setPort, ht]
  · rw [if_neg he]
    simp only [Bool.not_eq_true] at he
    have ht : t = s.setPort n p (fun q => { q with inC2 := v }) := setPort_congr (by simp [afterC2, he])
    have hir : (t.port n p).irqState = (s.port n p).irqState := by rw [ht, port_setPort_same s p _ hn]
    rw [hir, ht]
    have hev : irqEvent (s.port n p).irqState (s.port n p).irqState (s.pins n p).irq
        (s.setPort n p fun q => { q with inC2 := v }).chips = [] := by
      unfold irqEvent; cases (s.pins n p).irq <;> simp
    simp [hev]

end

end Sys2Proof.Machine
end

