-- ==== Sys2Proof/Laws/Routed.lean ====
section
/-! SUPPORT. Drives under a wiring with line routes but without a cycle: a drive neither reads nor writes what the chip in progress
holds, its aggregates apart (`PortBlind`); a delivery does not depend on which other chips are in progress (`deliverLine_busy_irrel`);
so a drive of a chip performs its routed actions as the operations they are (`performDrives_cons`). -/

namespace Sys2Proof.Machine

/-! ### A drive of a chip in progress leaves its ports alone and does not look at them -/

/-- An answer with a port of its state changed. -/
def answerSetPort (n : Nat) (p : PortId) (f : Port → Port) (o : Answer) : Answer := andThen o fun t => .next (t.setPort n p f)

@[simp] theorem answerSetPort_next (n : Nat) (p : PortId) (f : Port → Port) (s : State) :
    answerSetPort n p f (.next s) = .next (s.setPort n p f) := rfl

theorem answerSetPort_andThen {n : Nat} {p : PortId} {f : Port → Port} {o : Answer} {g h : State → Answer}
    (e : ∀ t, o = .next t → h (t.setPort n p f) = answerSetPort n p f (g t)) :
    andThen (answerSetPort n p f o) h = answerSetPort n p f (andThen o g) := by
  cases o with
  | next t => exact e t rfl
  | fault r => rfl
  | refused r => rfl

/-- A driver before which a port may be changed as well as after it. -/
def PortBlind (n : Nat) (p : PortId) (f : Port → Port) (drive : Driver) : Prop :=
  ∀ b v s, drive b v (s.setPort n p f) = answerSetPort n p f (drive b v s)

/-- Changes of ports of two chips commute. -/
theorem setPort_comm {n m : Nat} (h : m ≠ n) (p p' : PortId) (f g : Port → Port) (s : State) :
    (s.setPort n p f).setPort m p' g = (s.setPort m p' g).setPort n p f := by
  unfold State.setPort
  simp only
  congr 1
  apply List.ext_getElem?
  intro j
  simp only [List.getElem?_modify]
  by_cases h1 : m = j <;> by_cases h2 : n = j <;> simp [h1, h2]
  exact absurd (h1.trans h2.symm) h

section
variable {n m : Nat} {p : PortId} {f : Port → Port} {drive : Driver} (hf : ∀ q, (f q).irqState = q.irqState) (hm : m ≠ n)
  (hd : PortBlind n p f drive)

include hf hm hd in
theorem updateIrq_portBlind (p' : PortId) (s : State) :
    updateIrq drive m p' (s.setPort n p f) = answerSetPort n p f (updateIrq drive m p' s) := by
  unfold updateIrq
  simp only [port_setPort_other f (Or.inl hm)]
  split
  · rfl
  · simp only [pins_setPort]
    split
    · rw [setPort_comm hm]; rfl
    · rw [setPort_comm hm, wireLevel_setPort _ _ _ _ _ hf, hd]

include hm hd in
theorem moveC2_portBlind (p' : PortId) (v : Bool) (s : State) :
    moveC2 drive m p' v (s.setPort n p f) = answerSetPort n p f (moveC2 drive m p' v s) := by
  unfold moveC2
  simp only [port_setPort_other f (Or.inl hm), pins_setPort]
  split
  · simp only [andThen_next, answerSetPort_next]; rw [setPort_comm hm]
  · rw [hd]
    exact answerSetPort_andThen fun t _ => by rw [setPort_comm hm]; rfl

include hf hm hd in
/-- A line sample of another chip. -/
theorem setLine_portBlind (l : Line) (v : Bool) (s : State) :
    setLine drive m l v (s.setPort n p f) = answerSetPort n p f (setLine drive m l v s) := by
  unfold setLine
  split
  · unfold sampleC1
    simp only [port_setPort_other f (Or.inl hm)]
    split
    · rw [setPort_comm hm, updateIrq_portBlind hf hm hd]
      rw [answerSetPort_andThen (g := fun s1 =>
        if restoredByC1 (s1.port m (linePort l)).ctl then moveC2 drive m (linePort l) true s1 else .next s1)]
      · exact answerSetPort_andThen fun t _ => by rw [setPort_comm hm]; rfl
      · intro t _
        simp only [port_setPort_other f (Or.inl hm)]
        split
        · exact moveC2_portBlind hm hd _ _ _
        · rfl
    · simp only [andThen_next, answerSetPort_next]; rw [setPort_comm hm]
  · unfold sampleC2
    simp only [port_setPort_other f (Or.inl hm)]
    split
    · rw [setPort_comm hm, updateIrq_portBlind hf hm hd]
      exact answerSetPort_andThen fun t _ => by rw [setPort_comm hm]; rfl
    · simp only [andThen_next, answerSetPort_next]; rw [setPort_comm hm]
end

theorem plainAction_setPort (n : Nat) (p : PortId) (f : Port → Port) (s : State) (x : Action) :
    plainAction (s.setPort n p f) x = (plainAction s x).setPort n p f := by
  unfold State.setPort
  rw [plainAction_chips_comm, (plainAction_outside s x).chips]

theorem performActions_portBlind {n : Nat} {p : PortId} {f : Port → Port} {sample : LineSampler}
    (h : ∀ c l v s, sample c l v (s.setPort n p f) = answerSetPort n p f (sample c l v s)) (as : List Action) (s : State) :
    performActions sample as (s.setPort n p f) = answerSetPort n p f (performActions sample as s) := by
  induction as generalizing s with
  | nil => rfl
  | cons x as ih =>
    have hx : performAction sample x (s.setPort n p f) = answerSetPort n p f (performAction sample x s) := by
      cases x with
      | line c l v => exact h c l v s
      | assertLine i k => exact congrArg _ (plainAction_setPort n p f s (.assertLine i k))
      | clearLine i k => exact congrArg _ (plainAction_setPort n p f s (.clearLine i k))
      | pulse i k => exact congrArg _ (plainAction_setPort n p f s (.pulse i k))
      | fire id => exact congrArg _ (plainAction_setPort n p f s (.fire id))
      | sched id d => exact congrArg _ (plainAction_setPort n p f s (.sched id d))
    simp only [performActions, hx]
    exact answerSetPort_andThen fun t _ => ih t

theorem driveWith_portBlind {n : Nat} {p : PortId} {f : Port → Port} {sample : LineSampler}
    (h : ∀ c l v s, sample c l v (s.setPort n p f) = answerSetPort n p f (sample c l v s)) :
    PortBlind n p f (driveWith sample) := by
  intro b v s
  unfold driveWith
  cases b with
  | none => rfl
  | some k => exact performActions_portBlind h _ { s with trace := s.trace ++ [⟨k, v⟩] }

/-- A delivery neither reads nor writes the ports of a chip in progress, its aggregates apart. -/
theorem deliverLine_portBlind {n : Nat} {p : PortId} {f : Port → Port} (hf : ∀ q, (f q).irqState = q.irqState) (fuel : Nat)
    (busy : List Nat) (hb : n ∈ busy) (c : Int) (l : Line) (v : Bool) (s : State) :
    deliverLine fuel busy c l v (s.setPort n p f) = answerSetPort n p f (deliverLine fuel busy c l v s) := by
  induction fuel generalizing busy c l v s with
  | zero => simp only [deliverLine, chipIndex_setPort]; cases s.chipIndex c <;> rfl
  | succ fuel ih =>
    simp only [deliverLine, chipIndex_setPort]
    cases s.chipIndex c with
    | none => rfl
    | some m =>
      simp only
      split
      · rfl
      · next h =>
        have hm : m ≠ n := by rintro rfl; simp at h; exact h hb
        exact setLine_portBlind hf hm (driveWith_portBlind fun c l v s => ih (m :: busy) (by simp [hb]) c l v s) l v s

theorem driveFrom_portBlind {n : Nat} {p : PortId} {f : Port → Port} (hf : ∀ q, (f q).irqState = q.irqState) (s : State) :
    PortBlind n p f (driveFrom n s) :=
  driveWith_portBlind fun c l v s => deliverLine_portBlind hf _ _ (by simp) c l v s

/-! ### Wirings without a cycle -/

variable {rank : Nat → Nat}

theorem upwardWiring_iff (s : State) :
    s.upwardWiring rank = true ↔
      ∀ n < s.chips.length, ∀ k ∈ sinksOf (s.chip n), ∀ e ∈ s.routes, e.sink = k → ∀ x ∈ e.actions, ∀ m,
        lineTarget s.chips.length x = some m → rank n < rank m := by
  unfold State.upwardWiring
  simp only [List.all_eq_true, List.mem_range, Bool.or_eq_true, bne_iff_ne, ne_eq]
  constructor
  · intro h n hn k hk e he hs x hx m hm
    rcases h n hn k hk e he with h | h
    · exact absurd hs h
    · have := h x hx; rw [hm] at this; simpa using this
  · intro h n hn k hk e he
    by_cases hs : e.sink = k
    · right; intro x hx
      cases hm : lineTarget s.chips.length x with
      | none => rfl
      | some m => simpa using h n hn k hk e he hs x hx m hm
    · left; exact hs

theorem upwardWiring_congr {s t : State} (hf : ∀ n, (t.chip n).intf = (s.chip n).intf)
    (hl : t.chips.length = s.chips.length) (hr : t.routes = s.routes) (h : s.upwardWiring rank = true) :
    t.upwardWiring rank = true := by
  rw [upwardWiring_iff] at *
  intro n hn k hk
  rw [hl, hr] at *
  exact h n hn k (by unfold sinksOf at *; rw [hf] at hk; exact hk)

theorem Cascade.upwardWiring {busy : List Nat} {s t : State} (c : Cascade busy s t) (h : s.upwardWiring rank = true) :
    t.upwardWiring rank = true := upwardWiring_congr (fun n => (c.fixed n).1) c.chips_length c.routes h

theorem upwardWiring_setPort {s : State} (n : Nat) (p : PortId) (f : Port → Port) (h : s.upwardWiring rank = true) :
    (s.setPort n p f).upwardWiring rank = true :=
  upwardWiring_congr (fun m => (chip_setPort_fixed s n m p f).1) (setPort_length s n p f) rfl h

/-- A binding is absent or one of the chip's sinks. -/
def BoundBy (s : State) (n : Nat) (b : Option Nat) : Prop := ∀ k, b = some k → k ∈ sinksOf (s.chip n)

theorem boundBy_irq (s : State) (n : Nat) (p : PortId) : BoundBy s n (s.pins n p).irq := by
  intro k h; cases p <;> simp_all [sinksOf, State.pins, pinsOf, PortBindings.byteSinks, PortBindings.levelSinks]

theorem boundBy_outC2 (s : State) (n : Nat) (p : PortId) : BoundBy s n (s.pins n p).outC2 := by
  intro k h; cases p <;> simp_all [sinksOf, State.pins, pinsOf, PortBindings.byteSinks, PortBindings.levelSinks]

theorem boundBy_outPort (s : State) (n : Nat) (p : PortId) : BoundBy s n (s.pins n p).outPort := by
  intro k h; cases p <;> simp_all [sinksOf, State.pins, pinsOf, PortBindings.byteSinks, PortBindings.levelSinks]

theorem routeOf_mem_sink {k : Nat} {v : SinkValue} {x : Action} {rs : List RouteEntry} (h : x ∈ routeOf k v rs) :
    ∃ e ∈ rs, e.sink = k ∧ x ∈ e.actions := by
  induction rs with
  | nil => simp [routeOf] at h
  | cons e rs ih =>
    simp only [routeOf] at h
    split at h
    · next hh => exact ⟨e, by simp, hh.1, h⟩
    · obtain ⟨e', a, b⟩ := ih h; exact ⟨e', by simp [a], b⟩

/-- A line sample that a sink of chip `n` leads to is for a chip of a higher rank. -/
theorem routed_rank_lt {s : State} {n k m : Nat} {v : SinkValue} {c : Int} {l : Line} {w : Bool}
    (hu : s.upwardWiring rank = true) (hn : n < s.chips.length) (hk : k ∈ sinksOf (s.chip n))
    (hx : Action.line c l w ∈ routeOf k v s.routes) (hc : s.chipIndex c = some m) : rank n < rank m := by
  obtain ⟨e, he, hs, hx⟩ := routeOf_mem_sink hx
  exact (upwardWiring_iff s).1 hu n hn k hk e he hs _ hx m hc

/-! ### A delivery does not depend on which other chips are in progress -/

/-- Two drivers that agree on the sinks of chip `n`, under a wiring without a cycle, with `len` chips. -/
def AgreeOn (rank : Nat → Nat) (len n : Nat) (d e : Driver) : Prop :=
  ∀ b v s, s.upwardWiring rank = true → s.chips.length = len → BoundBy s n b → d b v s = e b v s

section
variable {len n : Nat} {d e : Driver} (h : AgreeOn rank len n d e)
include h

theorem AgreeOn.updateIrq (p : PortId) (s : State) (hu : s.upwardWiring rank = true) (hs : s.chips.length = len) :
    updateIrq d n p s = updateIrq e n p s := by
  unfold Machine.updateIrq
  simp only
  split
  · rfl
  · split
    · rfl
    · next k hk =>
      exact h _ _ _ (upwardWiring_setPort _ _ _ hu) (by simpa using hs) (by intro j hj; cases hj; exact boundBy_irq _ n p k hk)

theorem AgreeOn.moveC2 (p : PortId) (v : Bool) (s : State) (hu : s.upwardWiring rank = true) (hs : s.chips.length = len) :
    moveC2 d n p v s = moveC2 e n p v s := by
  unfold Machine.moveC2
  rw [h _ _ _ hu hs (boundBy_outC2 s n p)]

theorem AgreeOn.setLine (hd : CascadeDriver [n] d) (l : Line) (v : Bool) (s : State) (hu : s.upwardWiring rank = true)
    (hs : s.chips.length = len) : setLine d n l v s = setLine e n l v s := by
  unfold Machine.setLine
  split
  · unfold sampleC1
    simp only
    rw [← h.updateIrq _ _ (upwardWiring_setPort _ _ _ hu) (by simpa using hs)]
    congr 1
    split
    · cases hq : Machine.updateIrq d n (linePort l) (s.setPort n (linePort l) fun q => { q with irq1 := true }) with
      | next u =>
        have c := updateIrq_cascade hd hq
        simp only [andThen_next]
        rw [h.moveC2 _ _ u (c.upwardWiring (upwardWiring_setPort _ _ _ (upwardWiring_setPort _ _ _ hu)))
          (by rw [c.chips_length]; simpa using hs)]
      | fault r => rfl
      | refused r => rfl
    · rfl
  · unfold sampleC2
    simp only
    rw [h.updateIrq _ _ (upwardWiring_setPort _ _ _ hu) (by simpa using hs)]
end

/-- Two samplers that agree on the line samples of a list of actions perform it alike. -/
theorem performActions_congr {f g : LineSampler} {busy : List Nat}
    (hs : ∀ c l v s t, f c l v s = .next t → Cascade busy s t) (as : List Action) (s : State) (hu : s.upwardWiring rank = true)
    (h : ∀ c l v, Action.line c l v ∈ as → ∀ s', s'.upwardWiring rank = true → s'.chips.length = s.chips.length →
      f c l v s' = g c l v s') :
    performActions f as s = performActions g as s := by
  induction as generalizing s with
  | nil => rfl
  | cons x as ih =>
    have hx : performAction f x s = performAction g x s := by
      cases x with
      | line c l v => exact h c l v (by simp) s hu rfl
      | _ => rfl
    simp only [performActions, ← hx]
    cases hr : performAction f x s with
    | next t =>
      have c := performAction_cascade hs hr
      exact ih t (c.upwardWiring hu) fun c' l v hm s' h1 h2 => h c' l v (by simp [hm]) s' h1 (by rw [h2, c.chips_length])
    | fault r => rfl
    | refused r => rfl

/-- Distinct chips, as many as there are, are all of them. -/
theorem mem_of_nodup_full {len : Nat} {busy : List Nat} (hnd : busy.Nodup) (hlt : ∀ n ∈ busy, n < len)
    (hlen : len ≤ busy.length) {n : Nat} (hn : n < len) : n ∈ busy := by
  have hsub : busy.toFinset ⊆ Finset.range len := by intro x hx; simp at hx; simpa using hlt x hx
  have hc : busy.toFinset = Finset.range len :=
    Finset.eq_of_subset_of_card_le hsub (by rw [List.toFinset_card_of_nodup hnd]; simpa using hlen)
  have : n ∈ busy.toFinset := by rw [hc]; simpa using hn
  simpa using this

/-- Under a wiring without a cycle a delivery answers the same whichever chips of lower rank are in progress, with any sufficient
allowance (46 R193). -/
theorem deliverLine_busy_irrel (len fuel1 fuel2 : Nat) (busy1 busy2 : List Nat) (n1 : busy1.Nodup) (n2 : busy2.Nodup)
    (l1 : ∀ n ∈ busy1, n < len) (l2 : ∀ n ∈ busy2, n < len) (e1 : len ≤ busy1.length + fuel1)
    (e2 : len ≤ busy2.length + fuel2) (c : Int) (l : Line) (v : Bool) (s : State) (hu : s.upwardWiring rank = true)
    (hs : s.chips.length = len) (h : ∀ m, s.chipIndex c = some m → ∀ b, b ∈ busy1 ∨ b ∈ busy2 → rank b < rank m) :
    deliverLine fuel1 busy1 c l v s = deliverLine fuel2 busy2 c l v s := by
  induction fuel1 generalizing fuel2 busy1 busy2 c l v s with
  | zero =>
    cases hc : s.chipIndex c with
    | none => rw [deliverLine_none _ _ _ _ _ _ hc, deliverLine_none _ _ _ _ _ _ hc]
    | some m =>
      have := h m hc m (.inl (mem_of_nodup_full n1 l1 (by omega) (by rw [← hs]; exact indexIn_lt hc)))
      omega
  | succ fuel1 ih =>
    cases hc : s.chipIndex c with
    | none => rw [deliverLine_none _ _ _ _ _ _ hc, deliverLine_none _ _ _ _ _ _ hc]
    | some m =>
      have hm : m < len := by rw [← hs]; exact indexIn_lt hc
      have m1 : m ∉ busy1 := fun hm => by have := h m hc m (.inl hm); omega
      have m2 : m ∉ busy2 := fun hm => by have := h m hc m (.inr hm); omega
      cases fuel2 with
      | zero => exact absurd (mem_of_nodup_full n2 l2 (by omega) hm) m2
      | succ fuel2 =>
        simp only [deliverLine, hc]
        rw [if_neg (by simpa using m1), if_neg (by simpa using m2)]
        have agree : AgreeOn rank len m (driveWith (deliverLine fuel1 (m :: busy1)))
            (driveWith (deliverLine fuel2 (m :: busy2))) := by
          intro b v s hu hs' hb
          unfold driveWith
          cases b with
          | none => rfl
          | some k =>
            refine performActions_congr (deliverLine_cascade fuel1 (m :: busy1)) _ _
              (upwardWiring_congr (fun _ => rfl) rfl rfl hu) ?_
            intro c l w hx s' hu' hl
            have hl : s'.chips.length = s.chips.length := hl
            refine ih fuel2 (m :: busy1) (m :: busy2) (List.nodup_cons.2 ⟨m1, n1⟩) (List.nodup_cons.2 ⟨m2, n2⟩)
              (by simpa [hm] using l1) (by simpa [hm] using l2) (by simp; omega) (by simp; omega) c l w s' hu'
              (hl.trans hs') ?_
            intro m' hm' b hb'
            have t := routed_rank_lt hu (by omega) (hb k rfl) hx (by simpa only [State.chipIndex, hl] using hm')
            have : b = m ∨ b ∈ busy1 ∨ b ∈ busy2 := by simp only [List.mem_cons] at hb'; tauto
            rcases this with rfl | hb
            · exact t
            · have := h m hc b hb; omega
        exact agree.setLine
          (fun b v s t e => (driveWith_cascade (deliverLine_cascade fuel1 (m :: busy1)) b v s t e).mono (by simp)) l v s hu hs

/-! ### A drive of a chip performs its routed actions as the operations they are (46 R192, R194) -/

theorem execAll_ops (as : List Action) (s : State) :
    execAll (as.map Action.op) s = performActions (fun c l v s => presentLine c l v s) as s := by
  induction as generalizing s with
  | nil => rfl
  | cons x as ih =>
    simp only [List.map_cons, execAll, performActions]
    have : exec (Action.op x) s = performAction (fun c l v s => presentLine c l v s) x s := by
      cases x with
      | line c l v => cases l <;> rfl
      | _ => rfl
    rw [this]
    congr 1
    funext t; exact ih t

theorem performDrives_append (es fs : List Event) (s : State) :
    performDrives (es ++ fs) s = andThen (performDrives es s) (performDrives fs) := by
  induction es generalizing s with
  | nil => rfl
  | cons e es ih =>
    simp only [List.cons_append, performDrives]
    rw [andThen_assoc]
    congr 1
    funext t; exact ih t

/-- Every event is on a sink of the chip. -/
def EventsOf (s : State) (n : Nat) (es : List Event) : Prop := ∀ e ∈ es, e.sink ∈ sinksOf (s.chip n)

theorem EventsOf.congr {s t : State} {n : Nat} {es : List Event} (h : EventsOf s n es) (hf : (t.chip n).intf = (s.chip n).intf) :
    EventsOf t n es := by
  intro e he; have := h e he; unfold sinksOf at *; rw [hf]; exact this

section
variable {n : Nat} {s : State} {es : List Event} (hu : s.upwardWiring rank = true) (hn : n < s.chips.length)
include hu hn

/-- `Drive` of the chip in progress, on one of its sinks: the event joins the trace, its routed actions are performed as the
operations they are. -/
theorem performDrives_cons {e : Event} (hk : EventsOf s n (e :: es)) {s0 : State} (hl : s0.chips.length = s.chips.length) :
    performDrives (e :: es) s = andThen (driveFrom n s0 (some e.sink) e.value s) (performDrives es) := by
  unfold performDrives
  congr 1
  rw [execAll_ops]
  unfold driveFrom driveWith
  simp only
  symm
  refine performActions_congr (rank := rank) (deliverLine_cascade _ _) _ _ (upwardWiring_congr (fun _ => rfl) rfl rfl hu) ?_
  intro c l w hx s' hu' hl'
  have hl' : s'.chips.length = s.chips.length := hl'
  refine deliverLine_busy_irrel (rank := rank) s.chips.length _ _ [n] [] (by simp) (by simp) (by simpa using hn) (by simp)
    (by simp; omega) (by simp; omega) c l w s' hu' hl' ?_
  intro m hm b hb
  have := routed_rank_lt hu hn (hk e (by simp)) hx (by simpa only [State.chipIndex, hl'] using hm)
  simp at hb; rw [hb]; exact this

/-- What drives of the chip in progress can do. -/
theorem performDrives_cascade (hk : EventsOf s n es) {t : State} (h : performDrives es s = .next t) : Cascade [n] s t := by
  induction es generalizing s with
  | nil => cases h; exact Cascade.refl _ _
  | cons e es ih =>
    rw [performDrives_cons hu hn hk rfl] at h
    obtain ⟨u, hu', h⟩ := andThen_eq_next.1 h
    have c := driveFrom_cascade n s _ _ _ _ hu'
    exact c.trans (ih (c.upwardWiring hu) (by rw [c.chips_length]; exact hn)
      (EventsOf.congr (fun e he => hk e (by simp [he])) (c.fixed n).1) h)

/-- A port of the chip in progress may be changed before its drives as well as after them, its aggregates apart. -/
theorem performDrives_setPort (hk : EventsOf s n es) {p : PortId} {f : Port → Port} (hf : ∀ q : Port, (f q).irqState = q.irqState) :
    performDrives es (s.setPort n p f) = answerSetPort n p f (performDrives es s) := by
  induction es generalizing s with
  | nil => rfl
  | cons e es ih =>
    rw [performDrives_cons (upwardWiring_setPort n p f hu) (by simpa using hn) (hk.congr (chip_setPort_fixed s n n p f).1)
        (setPort_length s n p f).symm,
      performDrives_cons hu hn hk rfl, driveFrom_portBlind hf s]
    refine answerSetPort_andThen fun t ht => ?_
    have c := driveFrom_cascade n s _ _ _ _ ht
    exact ih (c.upwardWiring hu) (by rw [c.chips_length]; exact hn)
      (EventsOf.congr (fun e he => hk e (by simp [he])) (c.fixed n).1)
end

end Sys2Proof.Machine
end

