-- ==== Sys2Proof/Tests/Slice0.lean ====
section
/-! SUPPORT. The model's own tests: well-formedness, decoding of written-out codes, one step per operation against the vectors of
spec/95_test_vectors.md (named in each comment) or the numbers of the rules, and a witness for each statement's hypotheses. -/

namespace Sys2Proof.Tests

open Sys2Proof Sys2Proof.Machine

/-! ### Well-formedness: what the checks refuse -/

/-- `dt >= 1` (43 R156). -/
theorem test_wf_adv_zero_refused : (Instr.adv 0).wf = false := by decide

/-- One value type per sink (46 R190): `out_a` and `irq_b` share sink 4. -/
theorem test_wf_mixed_sink_refused :
    (Instr.configure 0 ⟨.standard, .b8⟩
      ⟨⟨none, none, none, some 4, none, none⟩, ⟨none, none, none, none, none, some 4⟩⟩).wf = false := by decide

/-! ### Decoding: every constructor's code, bit by bit (30 R85: family, selector), operand bytes of log 2 -/

theorem test_decode_bus8_reads :
    decode [0b00000000, 0x04, 0x05] = .ok (.rdDdrA 2 5, []) ∧ decode [0b00000001, 0x01, 0x00] = .ok (.rdDataA (-1) 0, []) ∧
    decode [0b00000010, 0x00, 0x01] = .ok (.rdCtlA 0 1, []) ∧ decode [0b00000011, 0x00, 0x01] = .ok (.rdCtlA 0 1, []) ∧
    decode [0b00000100, 0x02, 0x02] = .ok (.rdDdrB 1 2, []) ∧ decode [0b00000101, 0x02, 0x80, 0x01] = .ok (.rdDataB 1 128, []) ∧
    decode [0b00000110, 0x00, 0x03] = .ok (.rdCtlB 0 3, []) ∧ decode [0b00000111, 0x00, 0x03] = .ok (.rdCtlB 0 3, []) := by
  and_intros <;> rfl

theorem test_decode_bus8_writes :
    decode [0b00001000, 0x00, 0x00, 0xF0] = .ok (.wrDdrA 0 0 0xF0, []) ∧
    decode [0b00001001, 0x00, 0x00, 0xA5] = .ok (.wrDataA 0 0 0xA5, []) ∧
    decode [0b00001010, 0x00, 0x01, 0x2C] = .ok (.wrCtlA 0 1 0x2C, []) ∧
    decode [0b00001011, 0x00, 0x01, 0x2C] = .ok (.wrCtlA 0 1 0x2C, []) ∧
    decode [0b00001100, 0x00, 0x02, 0xFF] = .ok (.wrDdrB 0 2 0xFF, []) ∧
    decode [0b00001101, 0x00, 0x02, 0x42] = .ok (.wrDataB 0 2 0x42, []) ∧
    decode [0b00001110, 0x02, 0x03, 0x05] = .ok (.wrCtlB 1 3 0x05, []) ∧
    decode [0b00001111, 0x02, 0x03, 0x05] = .ok (.wrCtlB 1 3 0x05, []) := by
  and_intros <;> rfl

theorem test_decode_bus16 :
    decode [0b00010001, 0x00, 0x02] = .ok (.rd16L 0 2, []) ∧ decode [0b00010010, 0x00, 0x02] = .ok (.rd16U 0 2, []) ∧
    decode [0b00010011, 0x06, 0x00] = .ok (.rd16A 3 0, []) ∧
    decode [0b00011001, 0x00, 0x00, 0xAB, 0x12] = .ok (.wr16L 0 0 0x12AB, []) ∧
    decode [0b00011010, 0x00, 0x00, 0x12, 0xAB] = .ok (.wr16U 0 0 0xAB12, []) ∧
    decode [0b00011011, 0x06, 0x00, 0x00, 0xFF] = .ok (.wr16A 3 0 0xFF00, []) := by
  and_intros <;> rfl

theorem test_decode_lines :
    decode [0b00100000, 0x02, 0x01] = .ok (.lineCa1 1 true, []) ∧ decode [0b00100001, 0x02, 0x00] = .ok (.lineCa2 1 false, []) ∧
    decode [0b00100010, 0x04, 0xFF] = .ok (.lineCb1 2 true, []) ∧ decode [0b00100011, 0x04, 0x00] = .ok (.lineCb2 2 false, []) := by
  and_intros <;> rfl

theorem test_decode_scheduler :
    decode [0b00110000, 0x0E, 0x64] = .ok (.sched 7 100, []) ∧ decode [0b00110001, 0x0E] = .ok (.fire 7, []) ∧
    decode [0b00110010, 0x00, 0x0E] = .ok (.yieldOn 0 7, []) ∧ decode [0b00110011, 0x02, 0x19] = .ok (.yieldT 1 25, []) ∧
    decode [0b00110100, 0x27] = .ok (.adv 40, []) ∧ decode [0b00110101, 0x0E] = .ok (.expire 7, []) ∧
    decode [0b00110110, 0x02] = .ok (.wake 1, []) := by
  and_intros <;> rfl

theorem test_decode_adapter :
    decode [0b01000000, 0x04] = .ok (.assertLine 2 .maskable, []) ∧ decode [0b01000001, 0x04] = .ok (.assertLine 2 .fast, []) ∧
    decode [0b01000010, 0x04] = .ok (.clearLine 2 .maskable, []) ∧ decode [0b01000011, 0x04] = .ok (.clearLine 2 .fast, []) ∧
    decode [0b01000100, 0x04] = .ok (.pulse 2 .maskable, []) ∧ decode [0b01000101, 0x04] = .ok (.pulse 2 .fast, []) ∧
    decode [0b01000110, 0x04] = .ok (.take 2 .maskable, []) ∧ decode [0b01000111, 0x04] = .ok (.take 2 .fast, []) := by
  and_intros <;> rfl

theorem test_decode_lifecycle :
    decode [0b01010000, 0x06, 0b00000111, 0, 0, 0, 5, 0, 0, 0, 0, 0, 0, 0, 0] =
      .ok (.configure 3 ⟨.alternate, .b16Auto⟩
        ⟨⟨none, none, none, some 4, none, none⟩, ⟨none, none, none, none, none, none⟩⟩, []) ∧
    decode [0b01010001] = .ok (.resetAll, []) ∧ decode [0b01010010] = .ok (.unconfigureAll, []) := by
  and_intros <;> rfl

theorem test_decode_rejects :
    decode [] = .error .noCode ∧ decode [0x10, 0, 0] = .error (.invalidCode 0x10) ∧ decode [0x01, 0x80] = .error .truncated ∧
    decode [0x50, 0x00, 0x08] = .error (.invalidAddressing 0x08) := by
  and_intros <;> rfl

/-! ### Small states -/

/-- A port with the control value `ctl`, everything else 0. -/
def ctlPort (ctl : Ctl) : Port := { Port.zero with ctl := ctl }

/-- Two chips: chip 0 with the two ports, the bindings (the same on both ports) and the addressing given, chip 1 never
configured. -/
def world (m : Addressing) (f : PortBindings) (a b : Port) : State :=
  { State.reset with chips := [⟨a, b, ⟨f, f⟩, m, true⟩, Chip.unconfigured] }

/-- Chip 0 on the 8-bit bus, nothing bound. -/
def quiet (a b : Port) : State := world ⟨.standard, .b8⟩ unboundPort a b

/-- Chip 0 on the 8-bit bus, every binding present, no route. -/
def wired (a b : Port) : State := world ⟨.standard, .b8⟩ ⟨some 1, some 5, some 6, some 4, some 9, some 7⟩ a b

/-- The same with routes: sink 4 pulses CB1 of chip 1, sink 7 drives CPU 1's maskable line (46 R196). -/
def routed (a b : Port) : State :=
  { wired a b with
    routes := [⟨4, none, [.line 1 .cb1 true, .line 1 .cb1 false]⟩, ⟨7, some (.level true), [.assertLine 1 .maskable]⟩] }

/-- Chip 0 on a 16-bit bus, nothing bound. -/
def wide (bus : BusMode) (a b : Port) : State := world ⟨.standard, bus⟩ unboundPort a b

/-- The environment's next answers. -/
def answering (s : State) (bytes : List Byte) : State := { s with answers := bytes }

/-- What a function of the next state gives, where there is one. -/
def after {α : Type} (i : Instr) (s : State) (f : State → α) : Option α :=
  match exec i s with
  | .next t => some (f t)
  | .fault _ => none
  | .refused _ => none

/-- The reason of a refusal, where there is one. -/
def refusal (i : Instr) (s : State) : Option Refusal :=
  match exec i s with
  | .next _ => none
  | .fault _ => none
  | .refused r => some r

/-! ### Bus access, 8 bits -/

/-- 95 B3: with `ctl_a[2] = 0` offset 0 reads the direction register; the flag stays. -/
theorem test_rdDdrA :
    after (.rdDdrA 0 0) (quiet { ctlPort 0x02 with ddr := 0x5A, irq1 := true } Port.zero) (fun t => (t.result, (t.port 0 .a).irq1)) =
      some (.byte 0x5A, true) := by decide

/-- 95 B1: `(0xA5 & 0xF0) | (0x3C & 0x0F)`, the sample kept. -/
theorem test_rdDataA :
    after (.rdDataA 0 0) (answering (wired { ctlPort 0x04 with ddr := 0xF0, out := 0xA5 } Port.zero) [0x3C])
      (fun t => (t.result, (t.port 0 .a).inp)) = some (.byte 0xAC, 0x3C) := by decide

/-- 95 B11: the read strobe with E-reset. -/
theorem test_rdDataA_strobe :
    after (.rdDataA 0 0) (answering (wired { ctlPort 0x2C with outC2 := true } Port.zero) [0x00])
      (fun t => (t.trace, (t.port 0 .a).outC2)) = some ([⟨9, .level false⟩, ⟨9, .level true⟩], true) := by decide

/-- 95 B18: CA1 sampled first, one event, both flags in the view. -/
theorem test_rdCtlA :
    after (.rdCtlA 0 1) (answering (wired (ctlPort 0x1B) Port.zero) [0x01, 0x01])
      (fun t => (t.result, t.trace)) = some (.byte 0xDB, [⟨7, .level true⟩]) := by decide

/-- 95 A6: bit 6 hidden while C2 is an output. -/
theorem test_rdCtlA_hides_flag :
    after (.rdCtlA 0 1) (quiet { ctlPort 0x38 with irq2 := true } Port.zero) (·.result) = some (.byte 0x38) := by decide

/-- 95 S1: port B's direction register at offset 2. -/
theorem test_rdDdrB : after (.rdDdrB 0 2) (quiet Port.zero { Port.zero with ddr := 0xC3 }) (·.result) = some (.byte 0xC3) := by decide

/-- 95 B13: a data read of port B does not strobe; it clears both flags (40 R105). -/
theorem test_rdDataB :
    after (.rdDataB 0 2) (answering (wired Port.zero { ctlPort 0x2C with outC2 := true, irq1 := true, irq2 := true }) [0x99])
      (fun t => (t.result, t.trace, (t.port 0 .b).irq1, (t.port 0 .b).irq2)) = some (.byte 0x99, [], false, false) := by decide

/-- 95 P2 step 7: chip 2's port B answers 0x85. -/
theorem test_rdCtlB :
    after (.rdCtlB 0 3) (quiet Port.zero { ctlPort 0x05 with irq1 := true }) (·.result) = some (.byte 0x85) := by decide

/-- 95 B5: the new mask drives `out & ddr`. -/
theorem test_wrDdrA :
    after (.wrDdrA 0 0 0x0F) (wired { Port.zero with out := 0x33 } Port.zero) (fun t => ((t.port 0 .a).ddr, t.trace)) =
      some (0x0F, [⟨4, .byte 0x03⟩]) := by decide

/-- 95 B6: an unchanged mask does nothing. -/
theorem test_wrDdrA_same :
    after (.wrDdrA 0 0 0x0F) (wired { Port.zero with ddr := 0x0F, out := 0x33 } Port.zero) (·.trace) = some [] := by decide

/-- 95 P1 step 7: the masked byte is driven, port A does not strobe on a write. -/
theorem test_wrDataA :
    after (.wrDataA 0 0 0xA5) (wired { ctlPort 0x2C with ddr := 0xF0, outC2 := true } Port.zero)
      (fun t => ((t.port 0 .a).out, t.trace)) = some (0xA5, [⟨4, .byte 0xA0⟩]) := by decide

/-- 95 B10: 0xFF stores 0x3F and raises C2. -/
theorem test_wrCtlA :
    after (.wrCtlA 0 1 0xFF) (wired Port.zero Port.zero) (fun t => ((t.port 0 .a).ctl, (t.port 0 .a).outC2, t.trace)) =
      some (0x3F, true, [⟨9, .level true⟩]) := by decide

/-- 95 A2: enabling a set flag later raises the line. -/
theorem test_wrCtlA_enable :
    after (.wrCtlA 0 1 0x03) (wired { ctlPort 0x02 with irq1 := true } Port.zero) (fun t => ((t.port 0 .a).irqState, t.trace)) =
      some (true, [⟨7, .level true⟩]) := by decide

/-- 95 B15: a direction write of port B drives and does not strobe. -/
theorem test_wrDdrB :
    after (.wrDdrB 0 2 0xFF) (wired Port.zero { ctlPort 0x28 with out := 0x11, outC2 := true }) (fun t => ((t.port 0 .b).ddr, t.trace)) =
      some (0xFF, [⟨4, .byte 0x11⟩]) := by decide

/-- 95 B15: data, then the write strobe. -/
theorem test_wrDataB :
    after (.wrDataB 0 2 0x11) (wired Port.zero { ctlPort 0x2C with ddr := 0xFF, outC2 := true }) (·.trace) =
      some [⟨4, .byte 0x11⟩, ⟨9, .level false⟩, ⟨9, .level true⟩] := by decide

/-- 95 P3 step 6: a routed drive pulses CB1 of chip 1 inside the operation. -/
theorem test_wrDataB_routed :
    after (.wrDataB 0 2 0x42) (routed Port.zero { ctlPort 0x04 with ddr := 0xFF }) (fun t => ((t.port 1 .b).irq1, (t.port 1 .b).inC1)) =
      some (true, false) := by decide

/-- 40 R114: port B's control write moves port B only. -/
theorem test_wrCtlB :
    after (.wrCtlB 0 3 0x38) (wired Port.zero Port.zero) (fun t => ((t.port 0 .b).ctl, (t.port 0 .b).outC2, t.port 0 .a, t.trace)) =
      some (0x38, true, Port.zero, [⟨9, .level true⟩]) := by decide

/-! ### Bus access, 16 bits -/

/-- 95 W1. -/
theorem test_rd16L : after (.rd16L 0 1) (wide .b16Lower { Port.zero with ddr := 0xAB } Port.zero) (·.result) = some (.word 0x00AB) := by
  decide

/-- 95 W2. -/
theorem test_rd16U : after (.rd16U 0 0) (wide .b16Upper { Port.zero with ddr := 0xAB } Port.zero) (·.result) = some (.word 0xAB00) := by
  decide

/-- 95 W3; 95 P4 step 9: offset 8 wraps. -/
theorem test_rd16A : after (.rd16A 0 8) (wide .b16Auto { Port.zero with ddr := 0xAB } Port.zero) (·.result) = some (.word 0xABAB) := by
  decide

/-- 95 W1. -/
theorem test_wr16L : after (.wr16L 0 0 0x12AB) (wide .b16Lower Port.zero Port.zero) (fun t => (t.port 0 .a).ddr) = some 0xAB := by decide

/-- 95 W2. -/
theorem test_wr16U : after (.wr16U 0 0 0xAB12) (wide .b16Upper Port.zero Port.zero) (fun t => (t.port 0 .a).ddr) = some 0xAB := by decide

/-- 95 W4 and W5: the populated half; both populated is dropped. -/
theorem test_wr16A :
    after (.wr16A 0 0 0xAB00) (wide .b16Auto { Port.zero with ddr := 0x11 } Port.zero) (fun t => (t.port 0 .a).ddr) = some 0xAB ∧
    after (.wr16A 0 0 0xABCD) (wide .b16Auto { Port.zero with ddr := 0x11 } Port.zero) (fun t => (t.port 0 .a).ddr) = some 0x11 := by
  decide

/-- 95 W6 and W7: a word of zeros under either AUTOSENSE_ZERO. -/
theorem test_wr16A_zero :
    after (.wr16A 0 0 0x0000) (wide .b16Auto { Port.zero with ddr := 0x11 } Port.zero) (fun t => (t.port 0 .a).ddr) = some 0x00 ∧
    after (.wr16A 0 0 0x0000) { wide .b16Auto { Port.zero with ddr := 0x11 } Port.zero with autosenseZero := .drop }
      (fun t => (t.port 0 .a).ddr) = some 0x11 := by
  decide

/-! ### Line samples -/

/-- 95 S3: the armed rise; the same level again leaves a cleared flag clear. -/
theorem test_lineCa1 :
    after (.lineCa1 0 true) (quiet (ctlPort 0x02) Port.zero) (fun t => ((t.port 0 .a).irq1, (t.port 0 .a).inC1)) = some (true, true) ∧
    after (.lineCa1 0 true) (quiet { ctlPort 0x02 with inC1 := true } Port.zero) (fun t => (t.port 0 .a).irq1) = some false := by
  decide

/-- 95 L3: with C2 an output no flag, the sample stored. -/
theorem test_lineCa2 :
    after (.lineCa2 0 true) (quiet (ctlPort 0x10) Port.zero) (fun t => (t.port 0 .a).irq2) = some true ∧
    after (.lineCa2 0 true) (quiet (ctlPort 0x30) Port.zero) (fun t => ((t.port 0 .a).irq2, (t.port 0 .a).inC2)) = some (false, true) := by
  decide

/-- 95 L7 and L8: C1 restores C2 in C1-reset strobe mode only. -/
theorem test_lineCb1 :
    after (.lineCb1 0 true) (wired Port.zero (ctlPort 0x26)) (fun t => ((t.port 0 .b).irq1, (t.port 0 .b).outC2, t.trace)) =
      some (true, true, [⟨9, .level true⟩]) ∧
    after (.lineCb1 0 true) (wired Port.zero (ctlPort 0x2E)) (fun t => ((t.port 0 .b).irq1, (t.port 0 .b).outC2, t.trace)) =
      some (true, false, []) := by
  decide

/-- 41 R134: port B's C2, High→Low armed. -/
theorem test_lineCb2 :
    after (.lineCb2 0 false) (wired Port.zero { ctlPort 0x08 with inC2 := true }) (fun t => ((t.port 0 .b).irq2, t.trace)) =
      some (true, [⟨7, .level true⟩]) := by
  decide

/-! ### Scheduler -/

/-- A state with the deadline of trigger 7 at 100, CPU 0 waiting on it, CPU 1 until 50, CPU 2 running. -/
def waiting : State :=
  { State.reset with
    timeout := [(7, 100)]
    waiters := [(7, 0)]
    cpus := [{ Cpu.powerOn with wait := .onTrigger 7 }, { Cpu.powerOn with wait := .untilTime 50 }, Cpu.powerOn] }

/-- 95 T1: re-arming at 30 gives 130. -/
theorem test_sched : after (.sched 7 100) { waiting with now := 30 } (·.timeout) = some [(7, 130)] := by decide

/-- 95 T12: CPU 0 resumes, CPU 1 is not touched. -/
theorem test_fire :
    after (.fire 7) waiting (fun t => (t.timeout, t.waiters, t.cpus.map (·.wait))) = some ([], [], [.running, .untilTime 50, .running]) := by
  decide

/-- 95 T2: the waiter set grows; 95 T10: nothing else. -/
theorem test_yieldOn :
    after (.yieldOn 2 7) waiting (fun t => (t.waiters, (t.cpu 2).wait, t.timeout)) = some ([(7, 0), (7, 2)], .onTrigger 7, [(7, 100)]) := by
  decide

/-- 95 T8. -/
theorem test_yieldT : after (.yieldT 2 25) waiting (fun t => (t.cpu 2).wait) = some (.untilTime 25) := by decide

/-- 95 T4, T5: 100 is allowed, 101 is not; a timed wait bounds it too (43 R156). -/
theorem test_adv :
    after (.adv 100) { waiting with cpus := [] } (·.now) = some 100 ∧
    refusal (.adv 101) { waiting with cpus := [] } = some .clockPastDeadline ∧ after (.adv 50) waiting (·.now) = some 50 ∧
    refusal (.adv 51) waiting = some .clockPastDeadline := by
  decide

/-- 95 I3: an untaken pulse is lost at the next tick, the line stays. -/
theorem test_adv_drops_pulses :
    after (.adv 1) { State.reset with cpus := [⟨true, false, true, true, .running⟩] } (·.cpus) =
      some [⟨true, false, false, false, .running⟩] := by
  decide

/-- 95 T6: at the deadline the waiter runs; 43 R157: before it there is no step. -/
theorem test_expire :
    after (.expire 7) { waiting with now := 100 } (fun t => ((t.cpu 0).wait, t.timeout)) = some (.running, []) ∧
    refusal (.expire 7) { waiting with now := 99 } = some .expireNotDue := by
  decide

/-- 95 T8: at its time the CPU runs; 43 R158: before it there is no step. -/
theorem test_wake :
    after (.wake 1) { waiting with now := 50 } (fun t => (t.cpu 1).wait) = some .running ∧
    refusal (.wake 1) { waiting with now := 49 } = some .wakeNotDue := by
  decide

/-! ### CPU interrupt adapter -/

/-- 95 I7: the line of a suspended CPU, which stays suspended. -/
theorem test_assertLine :
    after (.assertLine 0 .maskable) waiting (fun t => t.cpu 0) = some ⟨true, false, false, false, .onTrigger 7⟩ := by decide

/-- 95 I8, I2: the kind named only, and no pulse. -/
theorem test_clearLine :
    after (.clearLine 0 .maskable) { State.reset with cpus := [⟨true, true, true, true, .running⟩] } (·.cpus) =
      some [⟨false, true, true, true, .running⟩] := by
  decide

/-- 95 I2; 95 I6: no such CPU, no effect. -/
theorem test_pulse :
    after (.pulse 2 .fast) State.reset (fun t => t.cpu 2) = some ⟨false, false, false, true, .running⟩ ∧
    after (.pulse 9 .fast) State.reset (·.cpus) = some State.reset.cpus := by
  decide

/-- 95 I5. -/
theorem test_take :
    after (.take 0 .maskable) { State.reset with cpus := [⟨false, false, true, true, .running⟩] } (·.cpus) =
      some [⟨false, false, false, true, .running⟩] ∧
    refusal (.take 0 .maskable) State.reset = some .noPulse := by
  decide

/-! ### Lifecycle -/

/-- 95 P1 step 2, P4: the record and the addressing stored, the registers left. -/
theorem test_configure :
    after (.configure 0 ⟨.alternate, .b16Auto⟩ ⟨⟨some 1, none, none, some 4, some 9, none⟩, unboundPort⟩) (quiet (ctlPort 0x3F) Port.zero)
      (fun t => t.chip 0) =
      some ⟨ctlPort 0x3F, Port.zero, ⟨⟨some 1, none, none, some 4, some 9, none⟩, unboundPort⟩, ⟨.alternate, .b16Auto⟩, true⟩ := by
  decide

/-- 95 S1, A9: registers, flags and aggregates zero, bindings kept, no event. -/
theorem test_resetAll :
    after .resetAll (wired { ctlPort 0x07 with ddr := 0xF0, inC1 := true, irq1 := true, irqState := true } (ctlPort 0x3F)) id =
      some (wired Port.zero Port.zero) := by
  decide

/-- 95 P1 step 1: every chip as at power-on. -/
theorem test_unconfigureAll :
    after .unconfigureAll (wired (ctlPort 0x07) Port.zero) (·.chips) = some [Chip.unconfigured, Chip.unconfigured] := by
  decide

/-! ### One step -/

/-- 95 T11: a suspended CPU presents nothing. -/
theorem test_step_suspended : step (waiting.presented (.cpu 0) [0x00, 0x00, 0x00]) = .refused .suspendedCpu := by rfl

/-- The step runs the presented operation and takes it from the queue (log 1). -/
theorem test_step_runs :
    (match step (waiting.presented .host [0x31, 0x0E]) with
      | .next t => some (t.inbox, t.timeout)
      | .fault _ => none
      | .refused _ => none) = some ([], []) := by decide

/-! ### Witnesses: a state and operands that meet each statement's hypotheses -/

theorem witness_DecodeEncodeRoundTrip :
    (Instr.adv 1).wf = true ∧
    (Instr.configure (-1) ⟨.alternate, .b16Auto⟩
      ⟨⟨some 0, none, none, some 4, some 9, some 7⟩, ⟨none, some 5, none, some 4, none, some 7⟩⟩).wf = true := by decide

/-- The ends of the ranges of 30 R86, and the codes beside them. -/
theorem witness_UnlistedCodesInvalid :
    (∀ op ∈ [(0x10 : Byte), 0x14, 0x18, 0x1C, 0x1F, 0x24, 0x2F, 0x37, 0x3F, 0x48, 0x4F, 0x53, 0xFF],
      decode [op] = .error (.invalidCode op)) ∧
    (∀ op ∈ [(0x00 : Byte), 0x0F, 0x11, 0x13, 0x19, 0x1B, 0x20, 0x23, 0x30, 0x36, 0x40, 0x47, 0x50],
      decode [op] = .error .truncated) := by
  constructor <;> intro op h <;> fin_cases h <;> rfl

theorem witness_StepRunsPresented :
    State.reset.inbox = [] ∧
    (waiting.presented (.cpu 2) [0x31, 0x0E]).inbox = ⟨.cpu 2, [0x31, 0x0E]⟩ :: [] ∧
    (waiting.presented (.cpu 2) [0x31, 0x0E]).barred (.cpu 2) = none ∧ decode [0x31, 0x0E] = .ok (.fire 7, []) ∧
    decode [0x10] = .error (.invalidCode 0x10) ∧ (Instr.fire 7).wf = true := by
  and_intros <;> rfl

theorem witness_SuspendedCpuHasNoStep :
    waiting.cpuIndex (-1) = none ∧ waiting.cpuIndex 3 = none ∧ waiting.cpuIndex 0 = some 0 ∧ (waiting.cpu 0).wait ≠ .running ∧
    waiting.cpuIndex 2 = some 2 ∧ (waiting.cpu 2).wait = .running ∧
    (waiting.presented (.cpu 0) [0x51]).inbox = ⟨.cpu 0, [0x51]⟩ :: [] := by decide

theorem witness_PowerOnValues : Chip.unconfigured ∈ State.reset.chips ∧ Cpu.powerOn ∈ State.reset.cpus := by decide

theorem witness_ControlFields : (0 : Nat) < 6 ∧ (5 : Nat) < 6 := by decide

theorem witness_OffsetDecoding : BusMode.b8 = .b8 ∧ BusMode.b16Lower ≠ .b8 ∧ BusMode.b16Upper ≠ .b8 ∧ BusMode.b16Auto ≠ .b8 := by decide

/-- Each class of offsets, on the 8-bit bus and on the 16-bit one. -/
theorem witness_RegisterMap :
    0 % 4 = 0 ∧ 5 % 4 = 1 ∧ 2 % 4 = 2 ∧ 11 % 4 = 3 ∧ BusMode.b16Lower ∈ [BusMode.b16Lower, .b16Upper, .b16Auto] ∧
    1 / 2 % 4 = 0 ∧ 8 / 2 % 4 = 0 ∧ 2 / 2 % 4 = 1 ∧ 5 / 2 % 4 = 2 ∧ 7 / 2 % 4 = 3 := by decide

/-- The four cases of a word's halves. -/
theorem witness_BusLanes :
    ((0xAB : Byte) ≠ 0 ∧ (0x00 : Byte) = 0) ∧ ((0x00 : Byte) = 0 ∧ (0xAB : Byte) ≠ 0) ∧ ((0xCD : Byte) ≠ 0 ∧ (0xAB : Byte) ≠ 0) := by decide

theorem witness_AccessFollowsKey :
    (quiet Port.zero Port.zero).chipIndex 0 = some 0 ∧ (quiet Port.zero Port.zero).chipIndex 1 = some 1 ∧
    ((quiet Port.zero Port.zero).chip 0).addressing.bus = .b8 ∧
    (wide .b16Auto Port.zero Port.zero).chipIndex 0 = some 0 ∧ ((wide .b16Auto Port.zero Port.zero).chip 0).addressing.bus ≠ .b8 := by
  decide

theorem witness_ReadDirection :
    (quiet Port.zero Port.zero).AtData 0 0 0 .a false ∧ (quiet Port.zero Port.zero).AtData 1 6 1 .b false :=
  ⟨⟨rfl, rfl, rfl, rfl⟩, ⟨rfl, rfl, rfl, rfl⟩⟩

theorem witness_ReadData_WriteData :
    (wired (ctlPort 0x2C) (ctlPort 0x2C)).AtData 0 0 0 .a true ∧ (wired (ctlPort 0x2C) (ctlPort 0x2C)).AtData 0 2 0 .b true ∧
    (wired (ctlPort 0x2C) (ctlPort 0x2C)).noLineRoutes = true :=
  ⟨⟨rfl, rfl, rfl, rfl⟩, ⟨rfl, rfl, rfl, rfl⟩, rfl⟩

/-- Both an unchanged mask (0x0F) and the mask 0. -/
theorem witness_WriteDirection :
    (wired { Port.zero with ddr := 0x0F } Port.zero).AtData 0 0 0 .a false ∧
    (wired { Port.zero with ddr := 0x0F } Port.zero).noLineRoutes = true ∧
    ((wired { Port.zero with ddr := 0x0F } Port.zero).port 0 .a).ddr = 0x0F :=
  ⟨⟨rfl, rfl, rfl, rfl⟩, rfl, rfl⟩

theorem witness_ReadControl_unbound :
    (quiet (ctlPort 0x02) Port.zero).AtCtl 0 1 0 .a ∧ ((quiet (ctlPort 0x02) Port.zero).pins 0 .a).inC1 = none ∧
    ((quiet (ctlPort 0x02) Port.zero).pins 0 .a).inC2 = none :=
  ⟨⟨rfl, rfl, rfl⟩, rfl, rfl⟩

/-- Both lines bound, an armed rise on each. -/
theorem witness_ReadControl_bound :
    ∃ s t : State, s.AtCtl 0 1 0 .a ∧ (s.pins 0 .a).inC1 ≠ none ∧ (s.pins 0 .a).inC2 ≠ none ∧ s.ctlSampled 0 0 .a t ∧
      (t.port 0 .a).irq1 = true ∧ (t.port 0 .a).irq2 = true :=
  ⟨answering (wired (ctlPort 0x1B) Port.zero) [0x01, 0x80], _, ⟨rfl, rfl, rfl⟩, by decide, by decide,
    ⟨_, (nomatch ·), fun _ => rfl, (nomatch ·), fun _ => rfl⟩, rfl, rfl⟩

theorem witness_WriteControl :
    (wired (ctlPort 0x02) (ctlPort 0x05)).AtCtl 0 1 0 .a ∧ (wired (ctlPort 0x02) (ctlPort 0x05)).AtCtl 0 7 0 .b ∧
    (wired (ctlPort 0x02) (ctlPort 0x05)).noLineRoutes = true :=
  ⟨⟨rfl, rfl, rfl⟩, ⟨rfl, rfl, rfl⟩, rfl⟩

theorem witness_OutOfRangeChip :
    ((-1 : Int) < 0) ∧ ((State.reset.chips.length : Int) ≤ 8) ∧ ¬ ((State.reset.chips.length : Int) ≤ 7) := by decide

theorem witness_WidthMismatchRefused :
    (wide .b16Lower Port.zero Port.zero).chipIndex 0 = some 0 ∧ ((wide .b16Lower Port.zero Port.zero).chip 0).addressing.bus ≠ .b8 ∧
    (quiet Port.zero Port.zero).chipIndex 1 = some 1 ∧ ((quiet Port.zero Port.zero).chip 1).addressing.bus = .b8 := by decide

/-- Each of the three modes; a slot read that completes; the data slot of both ports with the direction and with the output
register selected; the control slot of both ports at the ends of its offsets, unbound and bound. -/
theorem witness_Read16 :
    (∀ bus ∈ [BusMode.b16Lower, .b16Upper, .b16Auto],
      (wide bus (ctlPort 0x04) Port.zero).chipIndex 0 = some 0 ∧ ((wide bus (ctlPort 0x04) Port.zero).chip 0).addressing.bus = bus ∧
      slotAt ((wide bus (ctlPort 0x04) Port.zero).chip 0).addressing 1 = dataSlotOf .a ∧
      outputSelected ((wide bus (ctlPort 0x04) Port.zero).port 0 .a).ctl = true ∧
      slotAt ((wide bus (ctlPort 0x04) Port.zero).chip 0).addressing 4 = dataSlotOf .b ∧
      outputSelected ((wide bus (ctlPort 0x04) Port.zero).port 0 .b).ctl = false ∧
      slotAt ((wide bus (ctlPort 0x04) Port.zero).chip 0).addressing 2 = ctlSlotOf .a ∧
      slotAt ((wide bus (ctlPort 0x04) Port.zero).chip 0).addressing 7 = ctlSlotOf .b ∧
      ((wide bus (ctlPort 0x04) Port.zero).pins 0 .a).inC1 = none ∧ ((wide bus (ctlPort 0x04) Port.zero).pins 0 .a).inC2 = none ∧
      (wide bus (ctlPort 0x04) Port.zero).noLineRoutes = true) ∧
    (∃ t b, readSlot 0 0 (wide .b16Auto (ctlPort 0x04) Port.zero) = .next (t, b)) ∧
    ∃ s t : State, s.chipIndex 0 = some 0 ∧ (s.chip 0).addressing.bus = .b16Upper ∧ slotAt (s.chip 0).addressing 3 = ctlSlotOf .a ∧
      s.ctlSampled 0 0 .a t ∧ (t.port 0 .a).irq2 = true :=
  ⟨by decide, ⟨_, _, rfl⟩, answering (world ⟨.standard, .b16Upper⟩ ⟨none, none, some 6, none, none, none⟩ (ctlPort 0x18) Port.zero) [0x80],
    _, rfl, rfl, rfl, ⟨_, fun _ => rfl, (absurd rfl ·), (nomatch ·), fun _ => rfl⟩, rfl⟩

/-- The three modes, both values of AUTOSENSE_ZERO, each kind of word, and every slot: data with the output and with the direction
register selected, control. -/
theorem witness_Write16 :
    (∀ bus ∈ [BusMode.b16Lower, .b16Upper, .b16Auto],
      (wide bus (ctlPort 0x04) Port.zero).chipIndex 0 = some 0 ∧ ((wide bus (ctlPort 0x04) Port.zero).chip 0).addressing.bus = bus ∧
      slotAt ((wide bus (ctlPort 0x04) Port.zero).chip 0).addressing 1 = dataSlotOf .a ∧
      outputSelected ((wide bus (ctlPort 0x04) Port.zero).port 0 .a).ctl = true ∧
      slotAt ((wide bus (ctlPort 0x04) Port.zero).chip 0).addressing 4 = dataSlotOf .b ∧
      outputSelected ((wide bus (ctlPort 0x04) Port.zero).port 0 .b).ctl = false ∧
      slotAt ((wide bus (ctlPort 0x04) Port.zero).chip 0).addressing 3 = ctlSlotOf .a ∧
      slotAt ((wide bus (ctlPort 0x04) Port.zero).chip 0).addressing 6 = ctlSlotOf .b ∧
      (wide bus (ctlPort 0x04) Port.zero).noLineRoutes = true) ∧
    ((0xAB : Byte) ≠ 0 ∧ (0x00 : Byte) = 0) ∧ (wide .b16Auto Port.zero Port.zero).autosenseZero = .writeZero ∧
    ({ wide .b16Auto Port.zero Port.zero with autosenseZero := .drop } : State).autosenseZero = .drop := by decide

theorem witness_SampleC1_SampleC2 :
    (wired (ctlPort 0x26) (ctlPort 0x1B)).chipIndex 0 = some 0 ∧ (wired (ctlPort 0x26) (ctlPort 0x1B)).noLineRoutes = true := by decide

/-- Every clause, under a wiring with line routes: the three reads, the three writes, a word that the lane rule drops. -/
theorem witness_OwnPortUnderAnyWiring :
    (∃ s t : State, s.noLineRoutes = false ∧ s.reads (.rdDdrB 0 2) 0 (ddrReadOf .b) ∧ exec (.rdDdrB 0 2) s = .next t) ∧
    (∃ s t : State, s.noLineRoutes = false ∧ s.reads (.rdDataA 0 0) 0 (dataReadOf .a) ∧ exec (.rdDataA 0 0) s = .next t) ∧
    (∃ s t : State, s.noLineRoutes = false ∧ s.reads (.rdCtlA 0 1) 0 (ctlReadOf .a) ∧ exec (.rdCtlA 0 1) s = .next t) ∧
    (∃ s t : State, s.noLineRoutes = false ∧ s.byteWritten 0 (.wrDataB 0 2 0x42) = some 0x42 ∧
      s.writes (.wrDataB 0 2 0x42) 0 (dataWriteOf .b) ∧ exec (.wrDataB 0 2 0x42) s = .next t) ∧
    (∃ s t : State, s.noLineRoutes = false ∧ s.byteWritten 0 (.wrDdrB 0 2 0xFF) = some 0xFF ∧
      s.writes (.wrDdrB 0 2 0xFF) 0 (ddrWriteOf .b) ∧ exec (.wrDdrB 0 2 0xFF) s = .next t) ∧
    (∃ s t : State, s.noLineRoutes = false ∧ s.byteWritten 0 (.wrCtlA 0 1 0x3F) = some 0x3F ∧
      s.writes (.wrCtlA 0 1 0x3F) 0 (ctlWriteOf .a) ∧ exec (.wrCtlA 0 1 0x3F) s = .next t) ∧
    (∃ s t : State, s.byteWritten 0 (.wr16A 0 2 0xABCD) = none ∧ s.writes (.wr16A 0 2 0xABCD) 0 (ctlWriteOf .a) ∧
      exec (.wr16A 0 2 0xABCD) s = .next t) :=
  ⟨⟨routed Port.zero Port.zero, _, rfl, ⟨_, _, rfl, rfl, rfl⟩, rfl⟩,
    ⟨answering (routed (ctlPort 0x2C) Port.zero) [0x3C], _, rfl, ⟨_, _, rfl, rfl, rfl⟩, rfl⟩,
    ⟨answering (routed (ctlPort 0x1B) Port.zero) [0x01, 0x01], _, rfl, ⟨_, _, rfl, rfl, rfl⟩, rfl⟩,
    ⟨routed Port.zero { ctlPort 0x04 with ddr := 0xFF }, _, rfl, rfl, ⟨_, _, rfl, rfl, rfl⟩, rfl⟩,
    ⟨routed Port.zero Port.zero, _, rfl, rfl, ⟨_, _, rfl, rfl, rfl⟩, rfl⟩,
    ⟨routed Port.zero Port.zero, _, rfl, rfl, ⟨_, _, rfl, rfl, rfl⟩, rfl⟩,
    ⟨wide .b16Auto Port.zero Port.zero, _, rfl, ⟨_, _, rfl, rfl, rfl⟩, rfl⟩⟩

/-- A consistent port with both flags set and the aggregate up. -/
theorem witness_LineSampleLaws :
    ∃ s t u : State, s.chipIndex 0 = some 0 ∧ exec (lineC1Of .a 0 true) s = .next t ∧ exec (lineC2Of .a 0 true) s = .next u ∧
      (s.port 0 .a).irq1 = true ∧ (s.port 0 .a).irq2 = true ∧ portConsistent (s.port 0 .a) ∧ (s.port 0 .a).irqState = true :=
  ⟨routed { ctlPort 0x1B with irq1 := true, irq2 := true, irqState := true } Port.zero, _, _, rfl, rfl, rfl, rfl, rfl, rfl, rfl⟩

theorem witness_OtherPortUntouched :
    (∃ t, (wired Port.zero Port.zero).target (.wrCtlB 0 3 0x38) = some (0, .b) ∧
      exec (.wrCtlB 0 3 0x38) (wired Port.zero Port.zero) = .next t) ∧
    (wired Port.zero Port.zero).noLineRoutes = true :=
  ⟨⟨_, rfl, rfl⟩, rfl⟩

/-- A set flag and an operation that is no data read of its port; RESET_ALL; a data read. -/
theorem witness_FlagsClearedByDataReadOnly :
    (∃ s t : State, exec (.rdDataB 0 2) s = .next t ∧ zeroesChips (.rdDataB 0 2) = false ∧ ¬ s.reads (.rdDataB 0 2) 0 (dataReadOf .a) ∧
      (s.port 0 .a).irq1 = true ∧ (s.port 0 .a).irq2 = true) ∧
    (∃ s t : State, exec .resetAll s = .next t ∧ zeroesChips .resetAll = true) ∧
    (∃ s t : State, exec (.rdDataA 0 0) s = .next t ∧ s.reads (.rdDataA 0 0) 0 (dataReadOf .a)) := by
  refine ⟨⟨quiet { ctlPort 0x04 with irq1 := true, irq2 := true } (ctlPort 0x04), _, rfl, rfl, ?_, rfl, rfl⟩, ⟨waiting, _, rfl, rfl⟩,
    ⟨quiet (ctlPort 0x04) Port.zero, _, rfl, 0, 0, rfl, rfl, rfl⟩⟩
  rintro ⟨c, off, h, -, k⟩
  cases h
  cases k

theorem witness_RegisterWriters :
    (∃ s t : State, exec (.wrDdrA 0 0 0x0F) s = .next t ∧ (t.port 0 .a).ddr ≠ (s.port 0 .a).ddr) ∧
    (∃ s t : State, exec (.wrDataB 0 2 0x42) s = .next t ∧ (t.port 0 .b).out ≠ (s.port 0 .b).out) ∧
    (∃ s t : State, exec (.wrCtlA 0 1 0x3F) s = .next t ∧ (t.port 0 .a).ctl ≠ (s.port 0 .a).ctl) ∧
    (∃ s t : State, exec (.rdDataA 0 0) s = .next t ∧ (t.port 0 .a).inp ≠ (s.port 0 .a).inp) ∧
    zeroesChips (.wrDdrA 0 0 0x0F) = false :=
  ⟨⟨wired Port.zero Port.zero, _, rfl, by decide⟩, ⟨wired Port.zero (ctlPort 0x04), _, rfl, by decide⟩,
    ⟨wired Port.zero Port.zero, _, rfl, by decide⟩, ⟨answering (wired (ctlPort 0x04) Port.zero) [0x3C], _, rfl, by decide⟩, rfl⟩

theorem witness_ControlWriteThenRead :
    ∃ s t : State, s.AtCtl 0 1 0 .a ∧ (s.pins 0 .a).inC1 = none ∧ (s.pins 0 .a).inC2 = none ∧ exec (wrCtlOf .a 0 1 0xC0) s = .next t :=
  ⟨quiet { ctlPort 0x3F with irq2 := true } Port.zero, _, ⟨rfl, rfl, rfl⟩, rfl, rfl, rfl⟩

theorem witness_SetDdrSequence :
    (wired (ctlPort 0x3F) Port.zero).chipIndex 0 = some 0 ∧ ((wired (ctlPort 0x3F) Port.zero).chip 0).addressing.bus = .b8 ∧
    (wired (ctlPort 0x3F) Port.zero).noLineRoutes = true := by decide

theorem witness_AggregatesKept :
    ∃ s t : State, step s = .next t ∧ s.aggregatesConsistent ∧ (s.port 0 .a).irqState ≠ (t.port 0 .a).irqState := by
  refine ⟨(routed (ctlPort 0x07) Port.zero).presented .environment [0x20, 0x00, 0x01], _, rfl, ?_, by decide⟩
  intro ch h
  change ch ∈ [_, _] at h
  fin_cases h <;> exact ⟨rfl, rfl⟩

theorem waiting_waitersMatch (agent : Agent) (bytes : List Byte) : (waiting.presented agent bytes).waitersMatch := by
  intro id n
  show (id, n) ∈ [((7 : Int), 0)] ↔ n < 3 ∧ _
  rcases n with _ | _ | _ | n
  · simp [State.presented, State.cpu, waiting, eq_comm]
  · simp [State.presented, State.cpu, waiting]
  · simp [State.presented, State.cpu, waiting, Cpu.powerOn]
  · simp

theorem witness_SchedulerMapsKept_TimeoutsAheadKept :
    ∃ s t : State, step s = .next t ∧ s.timeoutsCanonical ∧ s.waitersCanonical ∧ s.waitersMatch ∧ s.timeoutsAhead ∧
      s.waiters ≠ t.waiters ∧ s.timeout ≠ t.timeout := by
  refine ⟨waiting.presented (.cpu 2) [0x31, 0x0E], _, rfl, ?_, ?_, waiting_waitersMatch _ _, ?_, by decide, by decide⟩
  · exact List.pairwise_singleton _ _
  · exact List.pairwise_singleton _ _
  · intro e h
    change e ∈ [_] at h
    fin_cases h
    exact Nat.zero_le _

theorem witness_BindingsByLifecycleOnly :
    ∃ t, exec (.wrCtlA 1 1 0x07) (wired Port.zero Port.zero) = .next t ∧ (∀ c m f, Instr.wrCtlA 1 1 0x07 ≠ .configure c m f) ∧
      Instr.wrCtlA 1 1 0x07 ≠ .unconfigureAll ∧ (wired Port.zero Port.zero).unconfiguredBlank := by
  refine ⟨_, rfl, (by intro c m f h; cases h), by decide, ?_⟩
  intro ch h
  change ch ∈ [_, _] at h
  fin_cases h
  · intro h; cases h
  · intro _; exact ⟨rfl, rfl⟩

theorem witness_ParametersAndTime :
    (∃ t, step (waiting.presented .clock [0x34, 0x27]) = .next t) ∧ ∃ t, exec (.adv 40) waiting = .next t := ⟨⟨_, rfl⟩, _, rfl⟩

theorem witness_TraceGrows :
    (∃ t, exec (.lineCa1 0 true) (wired (ctlPort 0x07) Port.zero) = .next t) ∧
    (∃ t, exec (.fire 7) waiting = .next t) ∧ waiting.target (.fire 7) = none ∧ waiting.target (.rdDataA (-1) 0) = none :=
  ⟨⟨_, rfl⟩, ⟨_, rfl⟩, rfl, rfl⟩

/-- 95 S5: two chips on one line. -/
def shared : State :=
  { State.reset with
    chips := List.replicate 2
      ⟨ctlPort 0x07, Port.zero, ⟨⟨none, none, none, none, none, some 7⟩, unboundPort⟩, ⟨.standard, .b8⟩, true⟩ }

theorem witness_SharedLineSequence :
    (0 : Nat) ≠ 1 ∧ shared.noLineRoutes = true ∧ wireLevel 7 shared.chips = false ∧
    ∀ x ∈ [((0 : Int), 0, 0), ((1 : Int), 1, 4)],
      shared.AtData x.1 x.2.2 x.2.1 .a true ∧ (shared.chip x.2.1).configured = true ∧ (shared.pins x.2.1 .a).irq = some 7 ∧
      irq1Enabled (shared.port x.2.1 .a).ctl = true ∧ c1LowToHigh (shared.port x.2.1 .a).ctl = true ∧
      c2Input (shared.port x.2.1 .a).ctl = true ∧ (shared.port x.2.1 .a).irqState = false ∧ (shared.port x.2.1 .a).inC1 = false := by
  refine ⟨by decide, rfl, rfl, ?_⟩
  intro x h
  fin_cases h <;> exact ⟨⟨rfl, rfl, rfl, rfl⟩, rfl, rfl, rfl, rfl, rfl, rfl, rfl⟩

/-- A sink that raises a CPU's line and then comes back to its own chip. -/
def backRouted : State :=
  { wired Port.zero { ctlPort 0x04 with ddr := 0xFF } with routes := [⟨4, none, [.assertLine 1 .maskable, .line 0 .ca1 true]⟩] }

theorem witness_RouteBackRefused :
    (backRouted.chipIndex 0 = some 0 ∧ 0 ∈ [0]) ∧
    (∃ t, routeOf 4 (.byte 0x42) backRouted.routes = [.assertLine 1 .maskable] ++ .line 0 .ca1 true :: [] ∧
      performActions (deliverLine 2 [0]) [.assertLine 1 .maskable] { backRouted with trace := backRouted.trace ++ [⟨4, .byte 0x42⟩] } =
        .next t ∧ t.chipIndex 0 = some 0) ∧
    backRouted.AtData 0 2 0 .b true ∧ (backRouted.port 0 .b).ddr ≠ 0 ∧ (backRouted.pins 0 .b).outPort = some 4 ∧
    routeOf 4 (.byte (0x42 &&& (backRouted.port 0 .b).ddr)) backRouted.routes = [.assertLine 1 .maskable] ++ .line 0 .ca1 true :: [] ∧
    ∀ x ∈ [Action.assertLine 1 .maskable], lineTarget backRouted.chips.length x = none :=
  ⟨by decide, ⟨_, rfl, rfl, rfl⟩, ⟨rfl, rfl, rfl, rfl⟩, by decide, rfl, rfl, by decide⟩

theorem witness_NestingBounded :
    (routed Port.zero Port.zero).chips.length + 1 ≤ 3 ∧ 1 < (routed Port.zero Port.zero).chips.length ∧
    (routed Port.zero Port.zero).chips.length ≤ 2 := by decide

/-- The wiring of 46 R196 (chip 0 to chip 1) is an upward one; a read, a write and a line sample, of either width. -/
theorem witness_UpwardWiringCompletes :
    (routed Port.zero Port.zero).upwardWiring id = true ∧ (routed Port.zero Port.zero).noLineRoutes = false ∧
    (routed Port.zero Port.zero).widthFits (.rdDataA 0 0) ∧ readAccess (.rdDataA 0 0) ≠ none ∧
    (wide .b16Auto Port.zero Port.zero).widthFits (.wr16A 0 0 0xFF00) ∧ writeAccess (.wr16A 0 0 0xFF00) ≠ none ∧
    (routed Port.zero Port.zero).widthFits (.lineCa1 0 true) ∧ isLineSample (.lineCa1 0 true) = true := by
  refine ⟨by decide, by decide, ?_, by decide, ?_, by decide, ?_, rfl⟩ <;> rintro c off n (h | h) hc <;> cases h <;> cases hc <;> decide

/-- The same wiring, and one that leads from chip 1 down to chip 0, which only another rank admits; every register access of the
statement, of either width. -/
theorem witness_RoutedBusDrives :
    (routed (ctlPort 0x04) (ctlPort 0x04)).upwardWiring id = true ∧
    (({ routed Port.zero Port.zero with
        chips := [Chip.unconfigured, (routed Port.zero Port.zero).chip 0]
        routes := [⟨4, none, [.line 0 .ca1 true]⟩] } : State).upwardWiring fun n => 1 - n) = true ∧
    (routed (ctlPort 0x04) (ctlPort 0x04)).reads (.rdDataA 0 0) 0 (dataReadOf .a) ∧
    (routed (ctlPort 0x04) (ctlPort 0x04)).widthFits (.rdDataA 0 0) ∧
    (routed (ctlPort 0x04) (ctlPort 0x04)).writes (.wrDataB 0 2 0x42) 0 (dataWriteOf .b) ∧
    (routed Port.zero Port.zero).writes (.wrDdrB 0 2 0xFF) 0 (ddrWriteOf .b) ∧
    (0xFF : Byte) ≠ ((routed Port.zero Port.zero).port 0 .b).ddr ∧
    (wide .b16Auto Port.zero Port.zero).byteWritten 0 (.wr16A 0 2 0x3F00) = some 0x3F ∧
    (wide .b16Auto Port.zero Port.zero).writes (.wr16A 0 2 0x3F00) 0 (ctlWriteOf .a) ∧
    (wide .b16Auto Port.zero Port.zero).widthFits (.wr16A 0 2 0x3F00) := by
  refine ⟨by decide, by decide, ⟨_, _, rfl, rfl, rfl⟩, ?_, ⟨_, _, rfl, rfl, rfl⟩, ⟨_, _, rfl, rfl, rfl⟩, by decide, rfl,
    ⟨_, _, rfl, rfl, rfl⟩, ?_⟩ <;> rintro c off n (h | h) hc <;> cases h <;> cases hc <;> decide

/-- A line sample whose restore is routed to another chip. -/
theorem witness_RoutedLineDrives :
    ∃ s : State, s.upwardWiring id = true ∧ s.chipIndex 0 = some 0 ∧
      (match exec (lineC1Of .a 0 true) s with
        | .next t => (t.port 1 .b).irq1
        | .fault _ => false
        | .refused _ => false) = true :=
  ⟨{ wired (ctlPort 0x26) Port.zero with routes := [⟨9, none, [.line 1 .cb1 true, .line 1 .cb1 false]⟩] }, rfl, rfl, rfl⟩

/-- The two chips and the host of 95 P3, chip 1 not yet signalled. -/
def handshake : State :=
  { State.reset with
    chips :=
      [⟨Port.zero, { ctlPort 0x04 with ddr := 0xFF }, ⟨unboundPort, ⟨none, none, none, some 4, none, none⟩⟩, ⟨.standard, .b8⟩, true⟩,
        ⟨Port.zero, ctlPort 0x05, ⟨unboundPort, ⟨none, none, none, none, none, some 7⟩⟩, ⟨.standard, .b8⟩, true⟩]
    routes :=
      [⟨4, none, [.line 1 .cb1 true, .line 1 .cb1 false]⟩, ⟨7, some (.level true), [.assertLine 2 .maskable]⟩,
        ⟨7, some (.level false), [.clearLine 2 .maskable, .fire 9]⟩] }

/-- The same, chip 1 signalled. -/
def signalled : State := handshake.setPort 1 .b fun q => { q with irq1 := true, irqState := true }

theorem witness_HandshakeRouting :
    ((0 : Nat) ≠ 1 ∧ handshake.AtData 0 2 0 .b true ∧ (handshake.port 0 .b).ddr ≠ 0 ∧ strobes (handshake.port 0 .b).ctl = false ∧
      (handshake.pins 0 .b).outPort = some 4 ∧ handshake.chipIndex 1 = some 1 ∧ (handshake.chip 1).configured = true ∧
      (handshake.pins 1 .b).irq = some 7 ∧ irq1Enabled (handshake.port 1 .b).ctl = true ∧
      c1LowToHigh (handshake.port 1 .b).ctl = false ∧ restoredByC1 (handshake.port 1 .b).ctl = false ∧
      (handshake.port 1 .b).irqState = false ∧ handshake.cpuIndex 2 = some 2 ∧
      routeOf 4 (.byte (0x42 &&& (handshake.port 0 .b).ddr)) handshake.routes = [.line 1 .cb1 true, .line 1 .cb1 false] ∧
      routeOf 7 (.level true) handshake.routes = [.assertLine 2 .maskable]) ∧
    (signalled.AtData 1 2 1 .b true ∧ (signalled.pins 1 .b).irq = some 7 ∧ (signalled.port 1 .b).irqState = true ∧
      wireLevel 7 (signalled.setPort 1 .b fun q => { q with irqState := false }).chips = false ∧
      routeOf 7 (.level false) signalled.routes = [.clearLine 2 .maskable, .fire 9]) :=
  ⟨⟨by decide, ⟨rfl, rfl, rfl, rfl⟩, by decide, rfl, rfl, rfl, rfl, rfl, rfl, rfl, rfl, rfl, rfl, rfl, rfl⟩,
    ⟨rfl, rfl, rfl, rfl⟩, rfl, rfl, rfl, rfl⟩

theorem witness_YieldSuspends :
    waiting.cpuIndex 2 = some 2 ∧ (waiting.cpu 2).wait = .running ∧ waiting.cpuIndex 0 = some 0 ∧ (waiting.cpu 0).wait ≠ .running ∧
    waiting.cpuIndex 3 = none ∧ waiting.cpuIndex (-1) = none := by decide

/-- Exactly at the deadline, one past it, one past a timed wait. -/
theorem witness_AdvanceTime :
    (1 : Nat) ≤ 50 ∧ (∀ e ∈ waiting.timeout, waiting.now + 50 ≤ e.2) ∧
    (∀ q ∈ waiting.cpus, ∀ time, q.wait = .untilTime time → waiting.now + 50 ≤ time) ∧
    (∃ e ∈ waiting.timeout, e.2 < waiting.now + 101) ∧
    (∃ q ∈ waiting.cpus, ∃ time, q.wait = .untilTime time ∧ time < waiting.now + 51) := by
  refine ⟨by decide, by decide, ?_, ⟨(7, 100), by decide, by decide⟩, ⟨{ Cpu.powerOn with wait := .untilTime 50 }, by decide, 50, by decide, by decide⟩⟩
  intro q h time ht
  change q ∈ [_, _, _] at h
  fin_cases h
  · cases ht
  · cases ht; decide
  · cases ht

/-- At the deadline and one before it, for a timeout and for a timed wait; a running CPU, one on a trigger, none. -/
theorem witness_ExpireAndWake :
    mapGet 7 waiting.timeout = some 100 ∧ (100 : Nat) ≤ ({ waiting with now := 100 } : State).now ∧
    ({ waiting with now := 99 } : State).now < 100 ∧ mapGet 8 waiting.timeout = none ∧ waiting.cpuIndex 1 = some 1 ∧
    (waiting.cpu 1).wait = .untilTime 50 ∧ (50 : Nat) ≤ ({ waiting with now := 50 } : State).now ∧
    ({ waiting with now := 49 } : State).now < 50 ∧ waiting.cpuIndex 2 = some 2 ∧ (waiting.cpu 2).wait = .running ∧
    waiting.cpuIndex 0 = some 0 ∧ (waiting.cpu 0).wait = .onTrigger 7 ∧ waiting.cpuIndex 3 = none := by decide

/-- 95 S6: from reset, CPU 0, trigger 7, a delay of 100; and the least delay. -/
theorem witness_WatchdogResumesOnce :
    State.reset.timeoutsCanonical ∧ State.reset.cpuIndex 0 = some 0 ∧ (State.reset.cpu 0).wait = .running ∧ (1 : Nat) ≤ 1 ∧
    (∀ e ∈ State.reset.timeout, e.1 ≠ 7 → State.reset.now + 100 ≤ e.2) ∧
    (∀ q ∈ State.reset.cpus, ∀ time, q.wait = .untilTime time → State.reset.now + 100 ≤ time) := by
  refine ⟨List.Pairwise.nil, rfl, rfl, by decide, by decide, ?_⟩
  intro q h time ht
  rw [List.eq_of_mem_replicate h] at ht
  cases ht

/-- A wait ended by a fire, one begun by its own YIELD and YIELDT, a timed one ended by WAKE. -/
theorem witness_WaitsChange :
    (∃ s t : State, s.waitersMatch ∧ exec (.fire 7) s = .next t ∧ (t.cpu 0).wait ≠ (s.cpu 0).wait) ∧
    (∃ s t : State, s.waitersMatch ∧ exec (.yieldOn 2 7) s = .next t ∧ (t.cpu 2).wait ≠ (s.cpu 2).wait) ∧
    (∃ s t : State, s.waitersMatch ∧ exec (.yieldT 2 50) s = .next t ∧ (t.cpu 2).wait ≠ (s.cpu 2).wait) ∧
    (∃ s t : State, s.waitersMatch ∧ exec (.wake 1) s = .next t ∧ (t.cpu 1).wait ≠ (s.cpu 1).wait) :=
  ⟨⟨waiting.presented .host [], _, waiting_waitersMatch _ _, rfl, by decide⟩,
    ⟨waiting.presented .host [], _, waiting_waitersMatch _ _, rfl, by decide⟩,
    ⟨waiting.presented .host [], _, waiting_waitersMatch _ _, rfl, by decide⟩,
    ⟨{ waiting.presented .host [] with now := 50 }, _, waiting_waitersMatch .host [], rfl, by decide⟩⟩

/-- The first and the last CPU. -/
theorem witness_AssertAndPulse : State.reset.cpuIndex 0 = some 0 ∧ State.reset.cpuIndex 2 = some 2 := by decide

/-- A running CPU with and without a request; a suspended one. -/
theorem witness_ClearAndTake :
    State.reset.cpuIndex 0 = some 0 ∧ (State.reset.cpu 0).wait = .running ∧ (State.reset.cpu 0).pulseM = false ∧
    (State.reset.cpu 0).pulseF = false ∧
    ((State.reset.setCpu 0 fun q => { q with pulseM := true, pulseF := true }).cpu 0).pulseM = true ∧
    ((State.reset.setCpu 0 fun q => { q with pulseM := true, pulseF := true }).cpu 0).pulseF = true ∧
    waiting.cpuIndex 0 = some 0 ∧ (waiting.cpu 0).wait ≠ .running := by decide

theorem witness_AdapterIdempotent :
    ∃ t, exec (.assertLine 2 .maskable) State.reset = .next t ∧
      Instr.assertLine 2 .maskable ∈ [Instr.assertLine 2 .maskable, .clearLine 2 .maskable, .pulse 2 .maskable] := ⟨_, rfl, by decide⟩

theorem witness_OutOfRangeCpu :
    ((-1 : Int) < 0) ∧ ((State.reset.cpus.length : Int) ≤ 3) ∧ ¬ ((State.reset.cpus.length : Int) ≤ 2) := by decide

/-- A request that stays, one taken, one that time drops. -/
theorem witness_PulseLifetime :
    ∃ s t u v : State, pulseOf (s.cpu 0) .fast = true ∧ exec (.take 0 .maskable) s = .next t ∧ exec (.take 0 .fast) s = .next u ∧
      exec (.adv 1) s = .next v ∧ pulseOf (t.cpu 0) .fast = true ∧ pulseOf (u.cpu 0) .fast = false ∧ pulseOf (v.cpu 0) .fast = false :=
  ⟨{ State.reset with cpus := [⟨false, false, true, true, .running⟩] }, _, _, _, rfl, rfl, rfl, rfl, rfl, rfl, rfl⟩

theorem witness_Configure : State.reset.chipIndex 0 = some 0 ∧ State.reset.chipIndex 7 = some 7 := by decide

theorem witness_ResetAndUnconfigure :
    Port.zero = ⟨0x00, 0x00, 0x00, 0b000000, false, false, false, false, false, false⟩ := by decide

theorem witness_ResetIdempotence :
    (wired (ctlPort 0x3F) Port.zero).chipIndex 0 = some 0 ∧ ((wired (ctlPort 0x3F) Port.zero).chip 0).addressing.bus = .b8 ∧
    slotAt ((wired (ctlPort 0x3F) Port.zero).chip 0).addressing 2 = dataSlotOf .b := by decide

end Sys2Proof.Tests
end

/-! PROOFS. Decoding what was encoded, operand form by operand form, and what a step does with the queue's head. -/

namespace Sys2Proof

/-! ### Decoders of operands on the bytes those operands are written as -/

section
variable {α β γ : Type} {r : Reader α} {q : Reader β} {t : Reader γ}

theorem decode1_of_read {mk : α → Instr} {bs rest : List Byte} {x : α} (h : r bs = some (x, rest)) :
    decode1 r mk bs = .ok (mk x, rest) := by
  simp only [decode1, h]

theorem decode2_of_read {mk : α → β → Instr} {bs rest : List Byte} {x : α} (h : r bs = some (x, rest)) :
    decode2 r q mk bs = decode1 q (mk x) rest := by
  simp only [decode2, h]

theorem decode3_of_read {mk : α → β → γ → Instr} {bs rest : List Byte} {x : α} (h : r bs = some (x, rest)) :
    decode3 r q t mk bs = decode2 q t (mk x) rest := by
  simp only [decode3, h]

end

theorem decode1_int (mk : Int → Instr) (z : Int) (tail : List Byte) :
    decode1 readInt mk (writeInt z ++ tail) = .ok (mk z, tail) :=
  decode1_of_read (readInt_writeInt z tail)

/-- An integer, then an operand whose reader undoes its writer. -/
theorem decode2_int {β : Type} {q : Reader β} {x : β} {written : List Byte} (mk : Int → β → Instr) (z : Int) (tail : List Byte)
    (hq : q (written ++ tail) = some (x, tail)) :
    decode2 readInt q mk (writeInt z ++ written ++ tail) = .ok (mk z x, tail) := by
  rw [List.append_assoc, decode2_of_read (readInt_writeInt z _), decode1_of_read hq]

/-- The operands of a bus write: chip, offset, and data whose reader undoes its writer. -/
theorem decode3_int_nat {γ : Type} {t : Reader γ} {x : γ} {written : List Byte} (mk : Int → Nat → γ → Instr) (z : Int) (n : Nat)
    (tail : List Byte) (ht : t (written ++ tail) = some (x, tail)) :
    decode3 readInt readNat t mk (writeInt z ++ writeNat n ++ written ++ tail) = .ok (mk z n x, tail) := by
  rw [List.append_assoc, List.append_assoc, decode3_of_read (readInt_writeInt z _), decode2_of_read (readNat_writeNat n _),
    decode1_of_read ht]

theorem decodeConfigure_written (c : Int) (m : Addressing) (f : Interface) (tail : List Byte) :
    decodeConfigure (writeInt c ++ codeOfAddressing m :: writeInterface f ++ tail) = .ok (.configure c m f, tail) := by
  rw [List.append_assoc, List.cons_append]
  simp only [decodeConfigure, readInt_writeInt, readByte_cons, addressingOfCode_codeOf]
  exact decode1_of_read (readInterface_write f tail)

/-! ### The round trip -/

/-- ADV is the one operation whose decoding needs its well-formedness: its operand byte stands for `dt - 1` (log 2). -/
theorem decode_encode_adv {dt : Nat} (h : 1 ≤ dt) (tail : List Byte) :
    decode (encode (.adv dt) ++ tail) = .ok (.adv dt, tail) :=
  calc decode (encode (.adv dt) ++ tail)
      = decode1 readNat (fun n => .adv (n + 1)) (writeNat (dt - 1) ++ tail) := rfl
    _ = .ok (.adv (dt - 1 + 1), tail) := decode1_of_read (readNat_writeNat (dt - 1) tail)
    _ = .ok (.adv dt, tail) := by rw [Nat.sub_add_cancel h]

/-- The operations fall into the operand forms above; the code selects the form by computation. -/
theorem decode_encode_append (i : Instr) (tail : List Byte) (h : i.wf = true) : decode (encode i ++ tail) = .ok (i, tail) := by
  cases i with
  | rdDdrA c n | rdDataA c n | rdCtlA c n | rdDdrB c n | rdDataB c n | rdCtlB c n | rd16L c n | rd16U c n | rd16A c n
  | sched c n | yieldT c n => exact decode2_int _ c tail (readNat_writeNat n tail)
  | wrDdrA c off d | wrDataA c off d | wrCtlA c off d | wrDdrB c off d | wrDataB c off d | wrCtlB c off d =>
    exact decode3_int_nat (written := [d]) _ c off tail (readByte_cons d tail)
  | wr16L c off w | wr16U c off w | wr16A c off w => exact decode3_int_nat _ c off tail (readWord_writeWord w tail)
  | lineCa1 c v | lineCa2 c v | lineCb1 c v | lineCb2 c v => exact decode2_int _ c tail (readLevel_writeLevel v tail)
  | yieldOn i id => exact decode2_int _ i tail (readInt_writeInt id tail)
  | fire z | expire z | wake z => exact decode1_int _ z tail
  | assertLine z k | clearLine z k | pulse z k | take z k => cases k <;> exact decode1_int _ z tail
  | adv dt => exact decode_encode_adv (by simpa [Instr.wf] using h) tail
  | configure c m f => exact decodeConfigure_written c m f tail
  | resetAll | unconfigureAll => rfl

theorem decode_encode (i : Instr) (h : i.wf = true) : decode (encode i) = .ok (i, []) := by
  simpa using decode_encode_append i [] h

end Sys2Proof

namespace Sys2Proof.Machine

/-! ### The queue and the step -/

theorem took_of_inbox {s : State} {p : Presented} {rest : List Presented} (h : s.inbox = p :: rest) :
    s.took = { s with inbox := rest } := by
  simp only [State.took, h, List.tail_cons]

@[simp] theorem presented_took (s : State) (who : Agent) (bytes : List Byte) : (s.presented who bytes).took = s := rfl

theorem step_of_empty {s : State} (h : s.inbox = []) : step s = .next s := by
  simp only [step, h]

section
variable {s : State} {p : Presented} {rest : List Presented}

theorem step_of_undecodable {e : DecodeError} (h : s.inbox = p :: rest) (hb : s.barred p.agent = none)
    (hd : decode p.bytes = .error e) : step s = .refused (.undecodable e) := by
  simp only [step, h, hb, hd]

theorem step_of_decodes {i : Instr} {tail : List Byte} (h : s.inbox = p :: rest) (hb : s.barred p.agent = none)
    (hd : decode p.bytes = .ok (i, tail)) : step s = exec i s.took := by
  simp only [step, h, hb, hd]

end

/-- The host is never barred (43 R155; log 17), so the operation it presents runs next. -/
theorem step_presented_host (s : State) {i : Instr} (h : i.wf = true) : step (s.presented .host (encode i)) = exec i s := by
  rw [step_of_decodes (p := ⟨.host, encode i⟩) (rest := s.inbox) rfl rfl (decode_encode i h), presented_took]

/-- Settles O4, by the cases of the queue and of the decoder's answer; the host's clause turns on the round trip of `encode`. -/
theorem stepRunsPresented : Obligations.StepRunsPresented := by
  intro s
  refine ⟨step_of_empty, fun who bytes rest hin hbar => ⟨fun i tail hdec => ?_, fun e hdec => ?_⟩, fun i hwf => ?_⟩
  · rw [step_of_decodes hin hbar hdec, took_of_inbox hin]
  · exact step_of_undecodable hin hbar hdec
  · exact step_presented_host s hwf

end Sys2Proof.Machine

/-! PROOFS. What `exec` can answer, said once: `ExecStep` has a case for each way an operation completes, its condition with it;
the invariants and the frames below are each a case analysis of it. -/

namespace Sys2Proof.Machine

/-! ### Samples: the answer of the environment, and the state without it (46 R191) -/

theorem drawSample_eq (s : State) : drawSample s = (s.sampled, s.afterSample) := by
  cases h : s.answers with
  | nil => simp only [drawSample, State.sampled, State.afterSample, h]
  | cons x rest => simp only [drawSample, State.sampled, State.afterSample, h]

/-- A sample takes an answer or a free value, and nothing else. -/
theorem afterSample_eq (s : State) : ∃ a d, s.afterSample = { s with answers := a, draws := d } := by
  unfold State.afterSample
  split
  · exact ⟨_, _, rfl⟩
  · exact ⟨_, _, rfl⟩

@[simp] theorem afterSample_chips (s : State) : s.afterSample.chips = s.chips := by
  obtain ⟨a, d, h⟩ := afterSample_eq s
  rw [h]

/-- Step 1 of a data read: the sample, if the source is bound, and the latch (40 R104). -/
theorem latchInput_eq (n : Nat) (p : PortId) (s : State) :
    latchInput n p s =
      (s.afterSampleOf (s.pins n p).inPort).setPort n p fun q =>
        { q with inp := s.latched (s.pins n p).inPort (s.port n p).inp } := by
  unfold latchInput State.afterSampleOf State.latched
  cases (s.pins n p).inPort with
  | none => exact (setPort_eq_self rfl).symm
  | some k => rw [drawSample_eq]

theorem sampleBound_some (n : Nat) (l : Line) (k : Nat) (s : State) :
    sampleBound n l (some k) s = setLine (driveFrom n s.afterSample) n l (s.sampled != 0) s.afterSample := by
  simp only [sampleBound, drawSample_eq]

/-- A presented line sample of an existing chip drives as any operation on that chip does. -/
theorem presentLine_of_chip {s : State} {c : Int} {n : Nat} (h : s.chipIndex c = some n) (l : Line) (v : Bool) :
    presentLine c l v s = setLine (driveFrom n s) n l v s := by
  simp [presentLine, deliverLine, driveFrom, h]

/-! ### The operations by what they are: what `exec` answers -/

theorem exec_op_line (c : Int) (l : Line) (v : Bool) (s : State) :
    exec (Action.op (.line c l v)) s = presentLine c l v s := by
  cases l <;> rfl

/-- An operation that can be routed and samples no chip is the routed action. -/
theorem exec_op_plain {s : State} {x : Action} (h : lineTarget s.chips.length x = none) :
    exec x.op s = .next (plainAction s x) := by
  cases x with
  | line c l v => rw [exec_op_line]; exact deliverLine_none _ _ c l v s h
  | assertLine | clearLine | pulse | fire | sched => rfl

/-- What a bus access, a line sample or an operation that can be routed leaves, if it completes: the first family of the cases
of `exec`. -/
inductive AccessStep (s : State) : Instr → State → Prop
  /-- a read of a chip that does not exist (20 R63) -/
  | readAbsent {i : Instr} {c : Int} {off : Nat} (r : BusResult) (hi : readAccess i = some (c, off))
      (hc : s.chipIndex c = none) : AccessStep s i { s with result := r, draws := s.draws + 1 }
  /-- a read of the register that the key selects (20 R62) -/
  | read {i : Instr} {c : Int} {off n : Nat} {t : State} {b : Byte} (hi : readAccess i = some (c, off))
      (hc : s.chipIndex c = some n) (ht : regRead (s.readKeyAt n off) n s = .next (t, b)) :
      AccessStep s i { t with result := s.given n b }
  /-- a write to a chip that does not exist, or one that the lane rule drops (20 R63, R66) -/
  | writeNothing {i : Instr} {c : Int} {off : Nat} (hi : writeAccess i = some (c, off))
      (hc : ∀ n, s.chipIndex c = some n → s.byteWritten n i = none) : AccessStep s i s
  /-- a write of the register that the key selects (20 R62) -/
  | write {i : Instr} {c : Int} {off n : Nat} {d : Byte} {t : State} (hi : writeAccess i = some (c, off))
      (hc : s.chipIndex c = some n) (hd : s.byteWritten n i = some d)
      (ht : regWrite (s.writeKeyAt n off) n d s = .next t) : AccessStep s i t
  /-- a sample of a line of an existing chip (41 R130) -/
  | line {c : Int} {l : Line} {v : Bool} {n : Nat} {t : State} (hc : s.chipIndex c = some n)
      (ht : setLine (driveFrom n s) n l v s = .next t) : AccessStep s (Action.op (.line c l v)) t
  /-- an operation that can be routed and samples no chip (46 R194) -/
  | plain {x : Action} (hx : lineTarget s.chips.length x = none) : AccessStep s x.op (plainAction s x)

/-- What an operation leaves, if it completes: every case of `exec`, its condition with it. -/
inductive ExecStep (s : State) : Instr → State → Prop
  | access {i : Instr} {t : State} (h : AccessStep s i t) : ExecStep s i t
  | yieldOn {i id : Int} {n : Nat} (hn : s.cpuIndex i = some n) (hw : (s.cpu n).wait = .running) :
      ExecStep s (.yieldOn i id) { setWait n (.onTrigger id) s with waiters := pairInsert (id, n) s.waiters }
  | yieldT {i : Int} {n time : Nat} (hn : s.cpuIndex i = some n) (hw : (s.cpu n).wait = .running) :
      ExecStep s (.yieldT i time) (setWait n (.untilTime time) s)
  | adv {dt : Nat} (hpos : dt ≠ 0) (hd : ∀ d ∈ s.deadlines, s.now + dt ≤ d) :
      ExecStep s (.adv dt) { s with now := s.now + dt, cpus := s.cpus.map dropPulses }
  | expire {id : Int} {d : Nat} (hd : mapGet id s.timeout = some d) (hnow : d ≤ s.now) :
      ExecStep s (.expire id) (fireTrigger id s)
  | wake {i : Int} {n time : Nat} (hn : s.cpuIndex i = some n) (hw : (s.cpu n).wait = .untilTime time)
      (hnow : time ≤ s.now) : ExecStep s (.wake i) (setWait n .running s)
  /-- of a CPU that does not exist it is a no-op, which `setPulse` is too (44 R177) -/
  | take {i : Int} {k : Kind}
      (hk : ∀ n, s.cpuIndex i = some n → (s.cpu n).wait = .running ∧ pulseOf (s.cpu n) k = true) :
      ExecStep s (.take i k) (setPulse i k false s)
  | configureAbsent {c : Int} {m : Addressing} {f : Interface} (hc : s.chipIndex c = none) :
      ExecStep s (.configure c m f) s
  | configure {c : Int} {m : Addressing} {f : Interface} {n : Nat} (hc : s.chipIndex c = some n) :
      ExecStep s (.configure c m f)
        { s with chips := s.chips.modify n fun ch => { ch with intf := f, addressing := m, configured := true } }
  | resetAll : ExecStep s .resetAll { s with chips := s.chips.map resetChip }
  | unconfigureAll : ExecStep s .unconfigureAll { s with chips := s.chips.map unconfigureChip }

section
variable {s t : State} {i : Instr} {c : Int} {off : Nat}

/-- The lane placement of a 16-bit read is what the master is given (20 R67). -/
theorem readLanes_eq_given {n : Nat} (h : (s.chip n).addressing.bus ≠ .b8) (b : Byte) :
    BusResult.word (readLanes (s.chip n).addressing.bus b) = s.given n b := by
  unfold State.given
  cases hb : (s.chip n).addressing.bus with
  | b8 => exact absurd hb h
  | b16Lower =>
    have hz : b.zeroExtend 16 = 0x00#8 ++ b := by
      apply BitVec.eq_of_toNat_eq
      simp only [BitVec.toNat_setWidth, BitVec.toNat_append, BitVec.toNat_zero, Nat.zero_shiftLeft, Nat.zero_or]
      exact Nat.mod_eq_of_lt (by omega)
    simp only [readLanes, hz]
  | b16Upper | b16Auto => rfl

/-- A row of family 0 that reads: its own operation is the one its key names, so it is the read of the slot (30 R81). -/
theorem busRead_of_chip {n : Nat} (op : ReadOp) (hc : s.chipIndex c = some n) (hb : (s.chip n).addressing.bus = .b8) :
    busRead op (regRead op) c off s = andThen (regRead (s.readKeyAt n off) n s) giveByte := by
  simp only [busRead, hc, hb, if_true, readSlot]
  split
  · next e => rw [e]
  · rfl

theorem busWrite_of_chip {n : Nat} (op : WriteOp) (data : Byte) (hc : s.chipIndex c = some n)
    (hb : (s.chip n).addressing.bus = .b8) :
    busWrite op (regWrite op) c off data s = regWrite (s.writeKeyAt n off) n data s := by
  simp only [busWrite, hc, hb, if_true, writeSlot]
  split
  · next e => rw [e]
  · rfl

theorem AccessStep.of_busRead {op : ReadOp} (hi : readAccess i = some (c, off))
    (h : busRead op (regRead op) c off s = .next t) : AccessStep s i t := by
  cases hc : s.chipIndex c with
  | none =>
    simp only [busRead, hc] at h
    cases h
    exact .readAbsent _ hi hc
  | some n =>
    by_cases hb : (s.chip n).addressing.bus = .b8
    · rw [busRead_of_chip op hc hb] at h
      obtain ⟨⟨u, b⟩, hu, ht⟩ := andThen_eq_next.1 h
      have hgiven : BusResult.byte b = s.given n b := by simp only [State.given, hb]
      cases ht
      rw [hgiven]
      exact .read hi hc hu
    · simp only [busRead, hc, if_neg hb] at h
      cases h

theorem AccessStep.of_busWrite {op : WriteOp} {data : Byte} (hi : writeAccess i = some (c, off))
    (hd : ∀ n, s.byteWritten n i = some data) (h : busWrite op (regWrite op) c off data s = .next t) :
    AccessStep s i t := by
  cases hc : s.chipIndex c with
  | none =>
    simp only [busWrite, hc] at h
    cases h
    exact .writeNothing hi fun n hn => nomatch hc.symm.trans hn
  | some n =>
    by_cases hb : (s.chip n).addressing.bus = .b8
    · rw [busWrite_of_chip op data hc hb] at h
      exact .write hi hc (hd n) h
    · simp only [busWrite, hc, if_neg hb] at h
      cases h

/-- A row of family 1 that reads: its own lane placement is that of its mode (20 R67). -/
theorem AccessStep.of_busRead16 {lane : BusMode} (hi : readAccess i = some (c, off))
    (h : busRead16 lane (readLanes lane) c off s = .next t) : AccessStep s i t := by
  unfold busRead16 at h
  split at h
  · next hc => cases h; exact .readAbsent _ hi hc
  · next n hc =>
    simp only at h
    split at h
    · cases h
    · next hb =>
      obtain ⟨⟨u, b⟩, hu, ht⟩ := andThen_eq_next.1 h
      have ht' : t = { u with result := .word (readLanes (s.chip n).addressing.bus b) } := by
        split at ht
        · next e => cases ht; rw [e]
        · cases ht; rfl
      rw [ht', readLanes_eq_given hb]
      exact .read hi hc hu

/-- A row of family 1 that writes: its own choice of the lane is that of its mode (20 R66). -/
theorem AccessStep.of_busWrite16 {lane : BusMode} {w : Word16} (hi : writeAccess i = some (c, off))
    (hw : ∀ n, s.byteWritten n i = writeLane s.autosenseZero (s.chip n).addressing.bus w)
    (h : busWrite16 lane (fun zero w => writeLane zero lane w) c off w s = .next t) : AccessStep s i t := by
  unfold busWrite16 at h
  split at h
  · next hc => cases h; exact .writeNothing hi fun n hn => nomatch hc.symm.trans hn
  · next n hc =>
    simp only at h
    split at h
    · cases h
    · have hlane : (if (s.chip n).addressing.bus = lane then writeLane s.autosenseZero lane w
          else writeLane s.autosenseZero (s.chip n).addressing.bus w) = s.byteWritten n i := by
        rw [hw]
        split
        · next e => rw [e]
        · rfl
      rw [hlane] at h
      split at h
      · next hb =>
        cases h
        refine .writeNothing hi fun m hm => ?_
        obtain rfl : n = m := Option.some.inj (hc.symm.trans hm)
        exact hb
      · next d hd => exact .write hi hc hd h

theorem AccessStep.of_presentLine {l : Line} {v : Bool} (h : presentLine c l v s = .next t) :
    AccessStep s (Action.op (.line c l v)) t := by
  cases hc : s.chipIndex c with
  | none =>
    have habsent : presentLine c l v s = .next s := deliverLine_none _ _ c l v s hc
    cases habsent.symm.trans h
    exact .plain (x := .line c l v) hc
  | some n => exact .line hc (presentLine_of_chip hc l v ▸ h)

theorem AccessStep.of_plain {x : Action} (hx : lineTarget s.chips.length x = none) (h : exec x.op s = .next t) :
    AccessStep s x.op t := by
  cases (exec_op_plain hx).symm.trans h
  exact .plain hx

end

section
variable {s t : State} {i : Int}

theorem whenRunning_eq_next {f : Nat → State → Answer} :
    whenRunning i f s = .next t ↔ ∃ n, s.cpuIndex i = some n ∧ (s.cpu n).wait = .running ∧ f n s = .next t := by
  unfold whenRunning
  cases s.cpuIndex i with
  | none => simp
  | some n => by_cases h : (s.cpu n).wait = .running <;> simp [h]

theorem deadlineOf_eq_some {q : Cpu} {time : Nat} : deadlineOf q = some time ↔ q.wait = .untilTime time := by
  unfold deadlineOf
  cases q.wait <;> simp

theorem ExecStep.of_yieldOn {id : Int} (h : execYieldOn i id s = .next t) : ExecStep s (.yieldOn i id) t := by
  obtain ⟨n, hn, hw, ht⟩ := whenRunning_eq_next.1 h
  cases ht
  exact .yieldOn hn hw

theorem ExecStep.of_yieldT {time : Nat} (h : execYieldT i time s = .next t) : ExecStep s (.yieldT i time) t := by
  obtain ⟨n, hn, hw, ht⟩ := whenRunning_eq_next.1 h
  cases ht
  exact .yieldT hn hw

theorem ExecStep.of_adv {dt : Nat} (h : execAdv dt s = .next t) : ExecStep s (.adv dt) t := by
  unfold execAdv at h
  split at h
  · cases h
  · next hpos =>
    split at h
    · next hd => cases h; exact .adv hpos (by simpa using hd)
    · cases h

theorem ExecStep.of_expire {id : Int} (h : execExpire id s = .next t) : ExecStep s (.expire id) t := by
  unfold execExpire at h
  split at h
  · cases h
  · next d hd =>
    split at h
    · next hnow => cases h; exact .expire hd hnow
    · cases h

theorem ExecStep.of_wake (h : execWake i s = .next t) : ExecStep s (.wake i) t := by
  unfold execWake at h
  split at h
  · cases h
  · next n hn =>
    split at h
    · cases h
    · next time hw =>
      split at h
      · next hnow => cases h; exact .wake hn (deadlineOf_eq_some.1 hw) hnow
      · cases h

theorem ExecStep.of_take {k : Kind} (h : execTake i k s = .next t) : ExecStep s (.take i k) t := by
  unfold execTake at h
  split at h
  · next hn =>
    have habsent : setPulse i k false s = s := by simp only [setPulse, hn]
    have hstep : ExecStep s (.take i k) (setPulse i k false s) := .take fun n h => nomatch hn.symm.trans h
    rw [habsent] at hstep
    cases h
    exact hstep
  · next n hn =>
    split at h
    · cases h
    · next hw =>
      split at h
      · next hk =>
        cases h
        refine .take fun m hm => ?_
        obtain rfl : n = m := Option.some.inj (hn.symm.trans hm)
        exact ⟨not_not.1 hw, hk⟩
      · cases h

theorem ExecStep.of_configure {c : Int} {m : Addressing} {f : Interface} (h : execConfigure c m f s = .next t) :
    ExecStep s (.configure c m f) t := by
  unfold execConfigure at h
  split at h
  · next hc => cases h; exact .configureAbsent hc
  · next n hc => cases h; exact .configure hc

end

/-- Every operation that completes is one of the cases of `ExecStep`. -/
theorem ExecStep.of_exec {s t : State} {i : Instr} (h : exec i s = .next t) : ExecStep s i t := by
  cases i with
  | rdDdrA => exact .access (.of_busRead (op := .ddrA) rfl h)
  | rdDataA => exact .access (.of_busRead (op := .dataA) rfl h)
  | rdCtlA => exact .access (.of_busRead (op := .ctlA) rfl h)
  | rdDdrB => exact .access (.of_busRead (op := .ddrB) rfl h)
  | rdDataB => exact .access (.of_busRead (op := .dataB) rfl h)
  | rdCtlB => exact .access (.of_busRead (op := .ctlB) rfl h)
  | wrDdrA => exact .access (.of_busWrite (op := .ddrA) rfl (fun _ => rfl) h)
  | wrDataA => exact .access (.of_busWrite (op := .dataA) rfl (fun _ => rfl) h)
  | wrCtlA => exact .access (.of_busWrite (op := .ctlA) rfl (fun _ => rfl) h)
  | wrDdrB => exact .access (.of_busWrite (op := .ddrB) rfl (fun _ => rfl) h)
  | wrDataB => exact .access (.of_busWrite (op := .dataB) rfl (fun _ => rfl) h)
  | wrCtlB => exact .access (.of_busWrite (op := .ctlB) rfl (fun _ => rfl) h)
  | rd16L => exact .access (.of_busRead16 (lane := .b16Lower) rfl h)
  | rd16U => exact .access (.of_busRead16 (lane := .b16Upper) rfl h)
  | rd16A => exact .access (.of_busRead16 (lane := .b16Auto) rfl h)
  | wr16L => exact .access (.of_busWrite16 (lane := .b16Lower) rfl (fun _ => rfl) h)
  | wr16U => exact .access (.of_busWrite16 (lane := .b16Upper) rfl (fun _ => rfl) h)
  | wr16A => exact .access (.of_busWrite16 (lane := .b16Auto) rfl (fun _ => rfl) h)
  | lineCa1 => exact .access (.of_presentLine (l := .ca1) h)
  | lineCa2 => exact .access (.of_presentLine (l := .ca2) h)
  | lineCb1 => exact .access (.of_presentLine (l := .cb1) h)
  | lineCb2 => exact .access (.of_presentLine (l := .cb2) h)
  | sched id delay => exact .access (.of_plain (x := .sched id delay) rfl h)
  | fire id => exact .access (.of_plain (x := .fire id) rfl h)
  | yieldOn => exact .of_yieldOn h
  | yieldT => exact .of_yieldT h
  | adv => exact .of_adv h
  | expire => exact .of_expire h
  | wake => exact .of_wake h
  | assertLine i k => exact .access (.of_plain (x := .assertLine i k) rfl h)
  | clearLine i k => exact .access (.of_plain (x := .clearLine i k) rfl h)
  | pulse i k => exact .access (.of_plain (x := .pulse i k) rfl h)
  | take => exact .of_take h
  | configure => exact .of_configure h
  | resetAll => cases h; exact .resetAll
  | unconfigureAll => cases h; exact .unconfigureAll

/-- A step is at rest, or applies one operation to the state without the queue's head. -/
theorem step_eq_next {s t : State} (h : step s = .next t) : t = s ∨ ∃ i, ExecStep s.took i t := by
  unfold step at h
  split at h
  · cases h; exact .inl rfl
  · split at h
    · cases h
    · split at h
      · cases h
      · next i _ _ => exact .inr ⟨i, .of_exec h⟩

end Sys2Proof.Machine

/-! PROOFS. What makes a property of the state one that every bus access, line sample and routed operation keeps, under any
wiring (`AccessInvariant`); the invariants of 10_state and the frames of an operation are each an application of it. -/

namespace Sys2Proof.Machine

/-! ### Properties that the updates of an access keep -/

/-- `I` is kept by each single update that a bus access, a line sample or a routed operation is made of. A port write is an
update only once the port's aggregate is stored with it: no drive happens between the two (42 R141). -/
structure AccessInvariant (I : State → Prop) : Prop where
  setPort : ∀ {s : State} (n : Nat) (p : PortId) (f : Port → Port),
    (portConsistent (s.port n p) → portConsistent (f (s.port n p))) → I s → I (s.setPort n p f)
  plain : ∀ {s : State} (x : Action), I s → I (plainAction s x)
  traced : ∀ {s : State} (e : Event), I s → I { s with trace := s.trace ++ [e] }
  /-- what stands outside the block: the environment's answers, and what the master got -/
  outside : ∀ {s : State} (a : List Byte) (d : Nat) (r : BusResult), I s → I { s with answers := a, draws := d, result := r }

/-- A driver that keeps `I`. -/
def DriverKeeps (I : State → Prop) (drive : Driver) : Prop := ∀ {b v s t}, drive b v s = .next t → I s → I t

theorem setPort_out_of_range {s : State} {n : Nat} (h : ¬ n < s.chips.length) (p : PortId) (f : Port → Port) :
    s.setPort n p f = s := by
  simp only [State.setPort, List.modify_eq_self (Nat.le_of_not_lt h)]

namespace AccessInvariant
variable {I : State → Prop} (hI : AccessInvariant I)
include hI

theorem afterSample {s : State} (hs : I s) : I s.afterSample := by
  obtain ⟨a, d, h⟩ := afterSample_eq s
  rw [h]
  exact hI.outside a d s.result hs

section
variable {drive : Driver} (hd : DriverKeeps I drive) {n : Nat} {p : PortId} {s t : State}
include hd

/-- A port write and `UpdateIrq` after it: the drive starts from a state with the aggregate stored. -/
theorem updateIrq {f : Port → Port} (h : Machine.updateIrq drive n p (s.setPort n p f) = .next t) (hs : I s) : I t := by
  have hset : ∀ g : Port → Port, (n < s.chips.length → portConsistent (g (f (s.port n p)))) →
      I ((s.setPort n p f).setPort n p g) := by
    intro g hg
    by_cases hn : n < s.chips.length
    · rw [setPort_setPort]
      exact hI.setPort n p _ (fun _ => hg hn) hs
    · rw [setPort_setPort, setPort_out_of_range hn]
      exact hs
  have hport : n < s.chips.length → (s.setPort n p f).port n p = f (s.port n p) := port_setPort_same s p f
  unfold Machine.updateIrq at h
  simp only at h
  split at h
  · next e =>
    cases h
    rw [← setPort_eq_self (s := s.setPort n p f) (n := n) (p := p) (f := id) rfl]
    exact hset id fun hn => by rw [hport hn] at e; exact e.symm
  · have hstored := hset (fun q => { q with irqState := aggregate ((s.setPort n p f).port n p) }) fun hn => by
      rw [hport hn]; rfl
    split at h
    · cases h; exact hstored
    · exact hd h hstored

theorem moveC2 {v : Bool} (h : Machine.moveC2 drive n p v s = .next t) (hs : I s) : I t := by
  obtain ⟨u, hu, ht⟩ := andThen_eq_next.1 h
  cases ht
  refine hI.setPort n p _ id ?_
  split at hu
  · cases hu; exact hs
  · exact hd hu hs

theorem strobe (h : Machine.strobe drive n p s = .next t) (hs : I s) : I t := by
  obtain ⟨u, hu, ht⟩ := andThen_eq_next.1 h
  have hlow := hI.moveC2 hd hu hs
  split at ht
  · obtain ⟨w, hw, ht⟩ := andThen_eq_next.1 ht
    cases ht
    exact hI.setPort n p _ id (hd hw hlow)
  · cases ht; exact hlow

theorem sampleC1 {v : Bool} (h : Machine.sampleC1 drive n p v s = .next t) (hs : I s) : I t := by
  obtain ⟨u, hu, ht⟩ := andThen_eq_next.1 h
  cases ht
  refine hI.setPort n p _ id ?_
  split at hu
  · obtain ⟨w, hw, hu⟩ := andThen_eq_next.1 hu
    have hraised := hI.updateIrq hd hw hs
    split at hu
    · exact hI.moveC2 hd hu hraised
    · cases hu; exact hraised
  · cases hu; exact hs

theorem sampleC2 {v : Bool} (h : Machine.sampleC2 drive n p v s = .next t) (hs : I s) : I t := by
  obtain ⟨u, hu, ht⟩ := andThen_eq_next.1 h
  cases ht
  refine hI.setPort n p _ id ?_
  split at hu
  · exact hI.updateIrq hd hu hs
  · cases hu; exact hs

theorem setLine {l : Line} {v : Bool} (h : Machine.setLine drive n l v s = .next t) (hs : I s) : I t := by
  unfold Machine.setLine at h
  split at h
  · exact hI.sampleC1 hd h hs
  · exact hI.sampleC2 hd h hs

end

/-! ### Drives -/

theorem performActions {sample : LineSampler} (hsample : ∀ {c l v s t}, sample c l v s = .next t → I s → I t)
    {as : List Action} {s t : State} (h : Machine.performActions sample as s = .next t) (hs : I s) : I t := by
  induction as generalizing s with
  | nil => cases h; exact hs
  | cons x as ih =>
    obtain ⟨u, hu, ht⟩ := andThen_eq_next.1 h
    refine ih ht ?_
    cases x with
    | line c l v => exact hsample hu hs
    | assertLine i k => cases hu; exact hI.plain (.assertLine i k) hs
    | clearLine i k => cases hu; exact hI.plain (.clearLine i k) hs
    | pulse i k => cases hu; exact hI.plain (.pulse i k) hs
    | fire id => cases hu; exact hI.plain (.fire id) hs
    | sched id delay => cases hu; exact hI.plain (.sched id delay) hs

theorem driveWith {sample : LineSampler} (hsample : ∀ {c l v s t}, sample c l v s = .next t → I s → I t) :
    DriverKeeps I (Machine.driveWith sample) := by
  intro b v s t h hs
  cases b with
  | none => cases h; exact hs
  | some k => exact hI.performActions hsample h (hI.traced ⟨k, v⟩ hs)

/-- By induction on the nesting that is left (46 R193). -/
theorem deliverLine (fuel : Nat) (busy : List Nat) {c : Int} {l : Line} {v : Bool} {s t : State}
    (h : Machine.deliverLine fuel busy c l v s = .next t) (hs : I s) : I t := by
  induction fuel generalizing busy c l v s t with
  | zero =>
    unfold Machine.deliverLine at h
    split at h
    · cases h; exact hs
    · cases h
  | succ fuel ih =>
    unfold Machine.deliverLine at h
    split at h
    · cases h; exact hs
    · next n _ =>
      split at h
      · cases h
      · exact hI.setLine (hI.driveWith (ih (n :: busy))) h hs

theorem driveFrom (n : Nat) (s : State) : DriverKeeps I (Machine.driveFrom n s) :=
  hI.driveWith (hI.deliverLine s.chips.length [n])

/-! ### The register operations -/

section
variable {n : Nat} {p : PortId} {s t : State}

theorem latchInput (hs : I s) : I (Machine.latchInput n p s) := by
  rw [latchInput_eq]
  refine hI.setPort n p _ id ?_
  cases (s.pins n p).inPort with
  | none => exact hs
  | some k => exact hI.afterSample hs

theorem readDataCommon {b : Byte} (h : Machine.readDataCommon n p s = .next (t, b)) (hs : I s) : I t := by
  obtain ⟨u, hu, ht⟩ := andThen_eq_next.1 h
  cases ht
  exact hI.updateIrq (hI.driveFrom n _) hu (hI.latchInput hs)

theorem strobeIfArmed (h : Machine.strobeIfArmed n p s = .next t) (hs : I s) : I t := by
  unfold Machine.strobeIfArmed at h
  split at h
  · exact hI.strobe (hI.driveFrom n s) h hs
  · cases h; exact hs

theorem sampleBound {l : Line} {source : Option Nat} (h : Machine.sampleBound n l source s = .next t) (hs : I s) : I t := by
  cases source with
  | none => cases h; exact hs
  | some k =>
    rw [sampleBound_some] at h
    exact hI.setLine (hI.driveFrom n _) h (hI.afterSample hs)

theorem readCtl {c1 c2 : Line} {b : Byte} (h : Machine.readCtl n c1 c2 s = .next (t, b)) (hs : I s) : I t := by
  obtain ⟨u, hu, h⟩ := andThen_eq_next.1 h
  obtain ⟨w, hw, ht⟩ := andThen_eq_next.1 h
  cases ht
  exact hI.sampleBound hw (hI.sampleBound hu hs)

theorem regRead {op : ReadOp} {b : Byte} (h : Machine.regRead op n s = .next (t, b)) (hs : I s) : I t := by
  cases op with
  | ddrA | ddrB => cases h; exact hs
  | dataA =>
    obtain ⟨⟨u, b'⟩, hu, h⟩ := andThen_eq_next.1 h
    obtain ⟨w, hw, ht⟩ := andThen_eq_next.1 h
    cases ht
    exact hI.strobeIfArmed hw (hI.readDataCommon hu hs)
  | dataB => exact hI.readDataCommon h hs
  | ctlA | ctlB => exact hI.readCtl h hs

theorem driveOutput (h : Machine.driveOutput n p s = .next t) (hs : I s) : I t := by
  unfold Machine.driveOutput at h
  simp only at h
  split at h
  · cases h; exact hs
  · exact hI.driveFrom n s h hs

theorem writeOut {d : Byte} (h : Machine.writeOut n p d s = .next t) (hs : I s) : I t :=
  hI.driveOutput h (hI.setPort n p _ id hs)

theorem writeDdr {d : Byte} (h : Machine.writeDdr n p d s = .next t) (hs : I s) : I t := by
  unfold Machine.writeDdr at h
  split at h
  · cases h; exact hs
  · exact hI.driveOutput h (hI.setPort n p _ id hs)

theorem writeCtl {d : Byte} (h : Machine.writeCtl n p d s = .next t) (hs : I s) : I t := by
  obtain ⟨u, hu, ht⟩ := andThen_eq_next.1 h
  refine hI.updateIrq (hI.driveFrom n _) ht ?_
  split at hu
  · exact hI.moveC2 (hI.driveFrom n s) hu hs
  · cases hu; exact hs

theorem regWrite {op : WriteOp} {d : Byte} (h : Machine.regWrite op n d s = .next t) (hs : I s) : I t := by
  cases op with
  | ddrA | ddrB => exact hI.writeDdr h hs
  | dataA => exact hI.writeOut h hs
  | dataB =>
    obtain ⟨u, hu, ht⟩ := andThen_eq_next.1 h
    exact hI.strobeIfArmed ht (hI.writeOut hu hs)
  | ctlA | ctlB => exact hI.writeCtl h hs

end

/-- Every bus access, line sample and operation that can be routed keeps an access invariant. -/
theorem accessStep {s t : State} {i : Instr} (h : AccessStep s i t) (hs : I s) : I t := by
  cases h with
  | readAbsent r => exact hI.outside s.answers (s.draws + 1) r hs
  | @read _ _ _ _ u _ _ _ hu => exact hI.outside u.answers u.draws _ (hI.regRead hu hs)
  | writeNothing => exact hs
  | write _ _ _ ht => exact hI.regWrite ht hs
  | line _ ht => exact hI.setLine (hI.driveFrom _ s) ht hs
  | @plain x _ => exact hI.plain x hs

end AccessInvariant

/-! ### Slots and ports after an update, in range or not -/

theorem chip_congr {s t : State} (h : t.chips = s.chips) (n : Nat) : t.chip n = s.chip n := by
  simp only [State.chip, h]

/-- A change of every slot that keeps the blank slot. -/
theorem chip_map (s : State) (n : Nat) {f : Chip → Chip} (hf : f Chip.unconfigured = Chip.unconfigured) :
    ({ s with chips := s.chips.map f } : State).chip n = f (s.chip n) := by
  have h := List.getD_map (d := Chip.unconfigured) (f := f) (n := n) (l := s.chips)
  rw [hf] at h
  exact h

theorem chip_modify (s : State) {n : Nat} (m : Nat) (f : Chip → Chip) (hn : n < s.chips.length) :
    ({ s with chips := s.chips.modify n f } : State).chip m = if m = n then f (s.chip m) else s.chip m := by
  unfold State.chip
  rw [List.getD_eq_getElem?_getD, List.getD_eq_getElem?_getD, List.getElem?_modify]
  by_cases hm : m = n
  · subst hm; simp [hn]
  · simp [hm, Ne.symm hm]

/-- What holds of the blank slot holds of every slot of the array exactly when it holds at every index. -/
theorem forall_chips_iff (s : State) {P : Chip → Prop} (hP : P Chip.unconfigured) :
    (∀ ch ∈ s.chips, P ch) ↔ ∀ n, P (s.chip n) := by
  constructor
  · intro h n
    by_cases hn : n < s.chips.length
    · rw [chip_eq_getElem hn]; exact h _ (List.getElem_mem hn)
    · rw [State.chip, List.getD_eq_default _ _ (Nat.le_of_not_lt hn)]; exact hP
  · intro h ch hch
    obtain ⟨n, hn, rfl⟩ := List.mem_iff_getElem.1 hch
    rw [← chip_eq_getElem hn]
    exact h n

theorem port_setPort (s : State) (n m : Nat) (p p' : PortId) (f : Port → Port) :
    (s.setPort n p f).port m p' = if m = n ∧ p' = p ∧ n < s.chips.length then f (s.port m p') else s.port m p' := by
  by_cases hn : n < s.chips.length
  · by_cases h : m = n ∧ p' = p
    · obtain ⟨rfl, rfl⟩ := h
      rw [port_setPort_same s p' f hn, if_pos ⟨rfl, rfl, hn⟩]
    · rw [port_setPort_other f (by tauto), if_neg (by tauto)]
  · rw [setPort_out_of_range hn, if_neg (by tauto)]

/-! ### The stored aggregates (10 R36) -/

theorem aggregatesConsistent_iff_chips (s : State) :
    s.aggregatesConsistent ↔ ∀ n, portConsistent (s.chip n).a ∧ portConsistent (s.chip n).b :=
  forall_chips_iff s ⟨rfl, rfl⟩

theorem aggregatesConsistent_iff (s : State) : s.aggregatesConsistent ↔ ∀ n p, portConsistent (s.port n p) := by
  rw [aggregatesConsistent_iff_chips]
  refine forall_congr' fun n => ⟨fun h p => ?_, fun h => ⟨h .a, h .b⟩⟩
  cases p with
  | a => exact h.1
  | b => exact h.2

theorem aggregatesConsistent_congr {s t : State} (h : t.chips = s.chips) :
    s.aggregatesConsistent → t.aggregatesConsistent := by
  unfold State.aggregatesConsistent
  rw [h]
  exact id

theorem aggregatesConsistent_access : AccessInvariant State.aggregatesConsistent where
  setPort := by
    intro s n p f hf hs
    rw [aggregatesConsistent_iff] at hs ⊢
    intro m p'
    rw [port_setPort]
    split
    · next h => obtain ⟨rfl, rfl, _⟩ := h; exact hf (hs m p')
    · exact hs m p'
  plain := fun x hs => aggregatesConsistent_congr (plainAction_outside _ x).chips hs
  traced := fun _ hs => hs
  outside := fun _ _ _ hs => hs

/-- CONFIGURE leaves the ports, and a reset leaves zeros, whose aggregate is false. -/
theorem ExecStep.keeps_aggregatesConsistent {s t : State} {i : Instr} (h : ExecStep s i t) (hs : s.aggregatesConsistent) :
    t.aggregatesConsistent := by
  cases h with
  | access h => exact aggregatesConsistent_access.accessStep h hs
  | yieldOn | yieldT | adv | wake | configureAbsent => exact hs
  | @expire id => exact aggregatesConsistent_congr (fireTrigger_outside id s).chips hs
  | @take i k => exact aggregatesConsistent_congr (setPulse_outside i k false s).chips hs
  | configure hn =>
    rw [aggregatesConsistent_iff_chips] at hs ⊢
    intro k
    rw [chip_modify s k _ (indexIn_lt hn)]
    split
    · exact hs k
    · exact hs k
  | resetAll | unconfigureAll =>
    intro ch hch
    obtain ⟨_, _, rfl⟩ := List.mem_map.1 hch
    exact ⟨rfl, rfl⟩

/-- Settles O32: every operation keeps the stored aggregates consistent, and the queue is no part of them. -/
theorem aggregatesKept : Obligations.AggregatesKept := by
  intro s t h hs
  rcases step_eq_next h with rfl | ⟨i, hi⟩
  · exact hs
  · exact hi.keeps_aggregatesConsistent hs

end Sys2Proof.Machine

/-! PROOFS. The scheduler's maps under every step (10 R38, R40), and what no step changes: bindings, parameters, time, trace. -/

namespace Sys2Proof.Machine

/-! ### What leaves the scheduler as it is -/

/-- The two maps and every CPU's wait are as they were. -/
structure SchedKept (s t : State) : Prop where
  timeout : t.timeout = s.timeout
  waiters : t.waiters = s.waiters
  cpus_length : t.cpus.length = s.cpus.length
  wait : ∀ n, (t.cpu n).wait = (s.cpu n).wait

theorem SchedKept.refl (s : State) : SchedKept s s := ⟨rfl, rfl, rfl, fun _ => rfl⟩

/-- What a CPU holds after an update of one: the update, where that CPU is it and exists. -/
theorem cpu_setCpu_cases (s : State) (n m : Nat) (f : Cpu → Cpu) :
    (s.setCpu n f).cpu m = if m = n ∧ n < s.cpus.length then f (s.cpu m) else s.cpu m := by
  by_cases hn : n < s.cpus.length
  · rw [cpu_setCpu s n m f hn]
    simp only [hn, and_true]
  · rw [setCpu_out_of_range s f hn, if_neg fun h => hn h.2]

theorem setCpu_schedKept {f : Cpu → Cpu} (hf : ∀ q, (f q).wait = q.wait) (n : Nat) (s : State) :
    SchedKept s (s.setCpu n f) := by
  refine ⟨rfl, rfl, setCpu_length s n f, fun m => ?_⟩
  rw [cpu_setCpu_cases]
  split
  · exact hf _
  · rfl

theorem setLevel_schedKept (i : Int) (k : Kind) (v : Bool) (s : State) : SchedKept s (setLevel i k v s) := by
  unfold setLevel
  split
  · exact .refl s
  · cases k with
    | maskable => exact setCpu_schedKept (f := fun q => { q with lineM := v }) (fun _ => rfl) _ s
    | fast => exact setCpu_schedKept (f := fun q => { q with lineF := v }) (fun _ => rfl) _ s

theorem setPulse_schedKept (i : Int) (k : Kind) (v : Bool) (s : State) : SchedKept s (setPulse i k v s) := by
  unfold setPulse
  split
  · exact .refl s
  · cases k with
    | maskable => exact setCpu_schedKept (f := fun q => { q with pulseM := v }) (fun _ => rfl) _ s
    | fast => exact setCpu_schedKept (f := fun q => { q with pulseF := v }) (fun _ => rfl) _ s

theorem cpu_map_dropPulses (s : State) (now n : Nat) :
    ({ s with now := now, cpus := s.cpus.map dropPulses } : State).cpu n = dropPulses (s.cpu n) :=
  List.getD_map (d := Cpu.powerOn) (f := dropPulses) (n := n) (l := s.cpus)

/-! ### Properties of the scheduler's maps that every operation keeps -/

/-- `I` speaks of the scheduler only, and each operation on the maps keeps it. -/
structure SchedInvariant (I : State → Prop) : Prop where
  kept : ∀ {s t : State}, I s → SchedKept s t → I t
  fire : ∀ {s : State} (id : Int), I s → I (fireTrigger id s)
  arm : ∀ {s : State} (id : Int) (delay : Nat), I s → I (armTimeout id delay s)
  suspend : ∀ {s : State} {n : Nat} (id : Int), n < s.cpus.length → (s.cpu n).wait = .running → I s →
    I { setWait n (.onTrigger id) s with waiters := pairInsert (id, n) s.waiters }
  /-- a wait on no trigger becomes another (43 R154, R158) -/
  timed : ∀ {s : State} {n : Nat} {w : Wait}, (∀ id, (s.cpu n).wait ≠ .onTrigger id) → (∀ id, w ≠ .onTrigger id) → I s →
    I (setWait n w s)

theorem SchedInvariant.access {I : State → Prop} (hI : SchedInvariant I) : AccessInvariant I where
  setPort := fun _ _ _ _ hs => hI.kept hs ⟨rfl, rfl, rfl, fun _ => rfl⟩
  plain := fun {s} x hs => by
    cases x with
    | line => exact hs
    | assertLine i k => exact hI.kept hs (setLevel_schedKept i k true s)
    | clearLine i k => exact hI.kept hs (setLevel_schedKept i k false s)
    | pulse i k => exact hI.kept hs (setPulse_schedKept i k true s)
    | fire id => exact hI.fire id hs
    | sched id delay => exact hI.arm id delay hs
  traced := fun _ hs => hI.kept hs ⟨rfl, rfl, rfl, fun _ => rfl⟩
  outside := fun _ _ _ hs => hI.kept hs ⟨rfl, rfl, rfl, fun _ => rfl⟩

theorem SchedInvariant.execStep {I : State → Prop} (hI : SchedInvariant I) {s t : State} {i : Instr} (h : ExecStep s i t)
    (hs : I s) : I t := by
  cases h with
  | access h => exact hI.access.accessStep h hs
  | yieldOn hn hw => exact hI.suspend _ (indexIn_lt hn) hw hs
  | yieldT hn hw => exact hI.timed (by simp [hw]) (by simp) hs
  | adv => exact hI.kept hs ⟨rfl, rfl, List.length_map _, fun n => by rw [cpu_map_dropPulses]; rfl⟩
  | expire => exact hI.fire _ hs
  | wake hn hw => exact hI.timed (by simp [hw]) (by simp) hs
  | take => exact hI.kept hs (setPulse_schedKept _ _ false s)
  | configureAbsent => exact hs
  | configure | resetAll | unconfigureAll => exact hI.kept hs ⟨rfl, rfl, rfl, fun _ => rfl⟩

theorem SchedInvariant.step {I : State → Prop} (hI : SchedInvariant I) {s t : State} (h : Machine.step s = .next t)
    (hs : I s) : I t := by
  rcases step_eq_next h with rfl | ⟨i, hi⟩
  · exact hs
  · exact hI.execStep hi (hI.kept hs ⟨rfl, rfl, rfl, fun _ => rfl⟩)

@[simp] theorem fireTrigger_timeout (id : Int) (s : State) : (fireTrigger id s).timeout = mapErase id s.timeout := by
  rw [fireTrigger_eq]

@[simp] theorem fireTrigger_waiters (id : Int) (s : State) : (fireTrigger id s).waiters = mapErase id s.waiters := by
  rw [fireTrigger_eq]

/-- A CPU after `Fire`: it runs if it waited on the trigger and exists, and is as before otherwise (43 R152). -/
theorem cpu_fireTrigger (id : Int) (s : State) (n : Nat) :
    (fireTrigger id s).cpu n =
      if (id, n) ∈ s.waiters ∧ n < s.cpus.length then { s.cpu n with wait := .running } else s.cpu n := by
  have h : (fireTrigger id s).cpu n = (resumeAll (waitersOf id s.waiters) s).cpu n := by rw [fireTrigger_eq]; rfl
  rw [h, cpu_resumeAll]
  simp only [mem_waitersOf]

theorem timeoutsCanonical_sched : SchedInvariant State.timeoutsCanonical where
  kept := fun hs h => by unfold State.timeoutsCanonical; rw [h.timeout]; exact hs
  fire := fun id hs => by unfold State.timeoutsCanonical; rw [fireTrigger_timeout]; exact mapErase_pairwise id hs
  arm := fun id _ hs => mapSet_sorted id _ hs
  suspend := fun _ _ _ hs => hs
  timed := fun _ _ hs => hs

theorem waitersCanonical_sched : SchedInvariant State.waitersCanonical where
  kept := fun hs h => by unfold State.waitersCanonical; rw [h.waiters]; exact hs
  fire := fun id hs => by unfold State.waitersCanonical; rw [fireTrigger_waiters]; exact mapErase_pairwise id hs
  arm := fun _ _ hs => hs
  suspend := fun id _ _ hs => pairInsert_sorted (id, _) hs
  timed := fun _ _ hs => hs

/-- A CPU waits on a trigger after an update of its wait: that is its new wait, or it is another CPU (or none). -/
theorem wait_setWait (n m : Nat) (w : Wait) (s : State) (id : Int) :
    ((setWait n w s).cpu m).wait = .onTrigger id ↔
      if m = n ∧ n < s.cpus.length then w = .onTrigger id else (s.cpu m).wait = .onTrigger id := by
  unfold setWait
  rw [cpu_setCpu_cases]
  split <;> rfl

/-- Only the waiters of the fired trigger leave their wait: the others wait on another one. -/
theorem waitersMatch_fire {s : State} (id : Int) (hs : s.waitersMatch) : (fireTrigger id s).waitersMatch := by
  intro id' m
  have hlen : (fireTrigger id s).cpus.length = s.cpus.length := (fireTrigger_outside id s).cpus_length
  rw [fireTrigger_waiters, mem_mapErase, cpu_fireTrigger, hlen]
  split
  · next h =>
    have hwait : (s.cpu m).wait = .onTrigger id := ((hs id m).1 h.1).2
    constructor
    · rintro ⟨hmem, hne⟩
      have hwait' := ((hs id' m).1 hmem).2
      rw [hwait] at hwait'
      exact absurd (Wait.onTrigger.inj hwait').symm hne
    · rintro ⟨_, hrun⟩
      cases hrun
  · next h =>
    rw [hs id' m]
    refine ⟨fun hm => hm.1, fun hm => ⟨hm, ?_⟩⟩
    rintro rfl
    exact h ⟨(hs _ m).2 hm, hm.1⟩

theorem waitersMatch_suspend {s : State} {n : Nat} (id : Int) (hn : n < s.cpus.length) (hw : (s.cpu n).wait = .running)
    (hs : s.waitersMatch) :
    ({ setWait n (.onTrigger id) s with waiters := pairInsert (id, n) s.waiters } : State).waitersMatch := by
  intro id' m
  show (id', m) ∈ pairInsert (id, n) s.waiters ↔
    m < (setWait n (.onTrigger id) s).cpus.length ∧ ((setWait n (.onTrigger id) s).cpu m).wait = .onTrigger id'
  rw [mem_pairInsert, hs id' m, wait_setWait, setWait, setCpu_length, Prod.mk.injEq]
  by_cases h : m = n
  · subst h
    simp [hn, hw, eq_comm]
  · simp [h]

theorem waitersMatch_timed {s : State} {n : Nat} {w : Wait} (hold : ∀ id, (s.cpu n).wait ≠ .onTrigger id)
    (hnew : ∀ id, w ≠ .onTrigger id) (hs : s.waitersMatch) : (setWait n w s).waitersMatch := by
  intro id m
  show (id, m) ∈ s.waiters ↔ m < (setWait n w s).cpus.length ∧ ((setWait n w s).cpu m).wait = .onTrigger id
  rw [hs id m, wait_setWait, setWait, setCpu_length]
  split
  · next h =>
    obtain ⟨rfl, _⟩ := h
    simp [hold, hnew]
  · rfl

theorem waitersMatch_sched : SchedInvariant State.waitersMatch where
  kept := fun hs h id n => by rw [h.waiters, h.cpus_length, h.wait]; exact hs id n
  fire := waitersMatch_fire
  arm := fun _ _ hs => hs
  suspend := waitersMatch_suspend
  timed := waitersMatch_timed

/-- Settles O33: each of the three properties is one that every operation on the maps keeps. -/
theorem schedulerMapsKept : Obligations.SchedulerMapsKept := by
  intro s t h
  exact ⟨timeoutsCanonical_sched.step h, waitersCanonical_sched.step h, waitersMatch_sched.step h⟩

/-! ### Bindings and addressing (10 R32 to R34) -/

/-- Every slot's bindings, addressing and configured mark are as they were. -/
def BindingsKept (s t : State) : Prop :=
  ∀ n, (t.chip n).intf = (s.chip n).intf ∧ (t.chip n).addressing = (s.chip n).addressing ∧
    (t.chip n).configured = (s.chip n).configured

theorem BindingsKept.of_chips {s t : State} (h : t.chips = s.chips) : BindingsKept s t := fun n => by
  rw [chip_congr h]; exact ⟨rfl, rfl, rfl⟩

theorem BindingsKept.trans {s t u : State} (h : BindingsKept s t) (g : BindingsKept t u) : BindingsKept s u := fun n =>
  ⟨(g n).1.trans (h n).1, (g n).2.1.trans (h n).2.1, (g n).2.2.trans (h n).2.2⟩

theorem bindingsKept_access (s : State) : AccessInvariant (BindingsKept s) where
  setPort := fun {t} n p f _ h => h.trans fun m => chip_setPort_fixed t n m p f
  plain := fun {t} x h => h.trans (.of_chips (plainAction_outside t x).chips)
  traced := fun _ h => h
  outside := fun _ _ _ h => h

theorem ExecStep.bindingsKept {s t : State} {i : Instr} (h : ExecStep s i t) (hc : ∀ c m f, i ≠ .configure c m f)
    (hu : i ≠ .unconfigureAll) : BindingsKept s t := by
  cases h with
  | access h => exact (bindingsKept_access s).accessStep h (.of_chips rfl)
  | yieldOn | yieldT | adv | wake => exact .of_chips rfl
  | expire => exact .of_chips (fireTrigger_outside _ s).chips
  | take => exact .of_chips (setPulse_outside _ _ _ s).chips
  | configureAbsent | configure => exact absurd rfl (hc _ _ _)
  | resetAll =>
    intro n
    rw [chip_map s n rfl]
    exact ⟨rfl, rfl, rfl⟩
  | unconfigureAll => exact absurd rfl hu

theorem unconfiguredBlank_iff (s : State) :
    s.unconfiguredBlank ↔
      ∀ n, (s.chip n).configured = false → (s.chip n).intf = unbound ∧ (s.chip n).addressing = ⟨.standard, .b8⟩ :=
  forall_chips_iff s fun _ => ⟨rfl, rfl⟩

theorem BindingsKept.unconfiguredBlank {s t : State} (h : BindingsKept s t) (hs : s.unconfiguredBlank) :
    t.unconfiguredBlank := by
  rw [unconfiguredBlank_iff] at hs ⊢
  intro n
  obtain ⟨hintf, haddr, hconf⟩ := h n
  rw [hintf, haddr, hconf]
  exact hs n

/-- CONFIGURE marks its slot configured, and UNCONFIGURE_ALL blanks every slot; the rest keeps the bindings. -/
theorem ExecStep.keeps_unconfiguredBlank {s t : State} {i : Instr} (h : ExecStep s i t) (hs : s.unconfiguredBlank) :
    t.unconfiguredBlank := by
  by_cases hc : ∃ c m f, i = .configure c m f
  · obtain ⟨c, m, f, rfl⟩ := hc
    cases h with
    | access h => exact ((bindingsKept_access s).accessStep h (.of_chips rfl)).unconfiguredBlank hs
    | configureAbsent => exact hs
    | configure hn =>
      rw [unconfiguredBlank_iff] at hs ⊢
      intro k
      rw [chip_modify s k _ (indexIn_lt hn)]
      split
      · intro hfalse; cases hfalse
      · exact hs k
  · by_cases hu : i = .unconfigureAll
    · subst hu
      cases h with
      | access h => exact ((bindingsKept_access s).accessStep h (.of_chips rfl)).unconfiguredBlank hs
      | unconfigureAll =>
        rw [unconfiguredBlank_iff]
        intro k _
        rw [chip_map s k rfl]
        exact ⟨rfl, rfl⟩
    · exact (h.bindingsKept (fun c m f e => hc ⟨c, m, f, e⟩) hu).unconfiguredBlank hs

/-- Settles O35, from the cases of `exec`. -/
theorem bindingsByLifecycleOnly : Obligations.BindingsByLifecycleOnly := by
  intro s t i h
  have hstep := ExecStep.of_exec h
  exact ⟨hstep.bindingsKept, hstep.keeps_unconfiguredBlank⟩

/-! ### Parameters and time (46 R197, 43 R150) -/

/-- The parameters of a system: the sizes of the two arrays, ROUTE and AUTOSENSE_ZERO. -/
structure ParametersKept (s t : State) : Prop where
  chips_length : t.chips.length = s.chips.length
  cpus_length : t.cpus.length = s.cpus.length
  routes : t.routes = s.routes
  autosenseZero : t.autosenseZero = s.autosenseZero

theorem ParametersKept.refl (s : State) : ParametersKept s s := ⟨rfl, rfl, rfl, rfl⟩

theorem ParametersKept.trans {s t u : State} (h : ParametersKept s t) (g : ParametersKept t u) : ParametersKept s u :=
  ⟨g.chips_length.trans h.chips_length, g.cpus_length.trans h.cpus_length, g.routes.trans h.routes,
    g.autosenseZero.trans h.autosenseZero⟩

theorem OutsideOnly.parametersKept {s t : State} (h : OutsideOnly s t) : ParametersKept s t :=
  ⟨by rw [h.chips], h.cpus_length, h.routes, h.autosenseZero⟩

theorem parametersKept_access (s : State) : AccessInvariant (ParametersKept s) where
  setPort := fun {t} n p f _ h => h.trans ⟨setPort_length t n p f, rfl, rfl, rfl⟩
  plain := fun {t} x h => h.trans (plainAction_outside t x).parametersKept
  traced := fun _ h => h.trans ⟨rfl, rfl, rfl, rfl⟩
  outside := fun _ _ _ h => h.trans ⟨rfl, rfl, rfl, rfl⟩

theorem setWait_outside (n : Nat) (w : Wait) (s : State) : OutsideOnly s (setWait n w s) := setCpu_outside n _ s

theorem ExecStep.parametersKept {s t : State} {i : Instr} (h : ExecStep s i t) : ParametersKept s t := by
  cases h with
  | access h => exact (parametersKept_access s).accessStep h (.refl s)
  | @yieldOn _ id n => exact (setWait_outside n (.onTrigger id) s).parametersKept.trans ⟨rfl, rfl, rfl, rfl⟩
  | yieldT | wake => exact (setWait_outside _ _ s).parametersKept
  | adv => exact ⟨rfl, List.length_map _, rfl, rfl⟩
  | expire => exact (fireTrigger_outside _ s).parametersKept
  | take => exact (setPulse_outside _ _ _ s).parametersKept
  | configureAbsent => exact .refl s
  | configure => exact ⟨List.length_modify _ _ _, rfl, rfl, rfl⟩
  | resetAll | unconfigureAll => exact ⟨List.length_map _, rfl, rfl, rfl⟩

theorem now_access (time : Nat) : AccessInvariant (fun s => s.now = time) where
  setPort := fun _ _ _ _ h => h
  plain := fun {s} x h => (plainAction_outside s x).now.trans h
  traced := fun _ h => h
  outside := fun _ _ _ h => h

theorem AccessStep.ne_adv {s t : State} {i : Instr} (h : AccessStep s i t) (dt : Nat) : i ≠ .adv dt := by
  rintro rfl
  generalize hi : Instr.adv dt = i at h
  cases h with
  | readAbsent _ ha | read ha => subst hi; cases ha
  | writeNothing ha | write ha => subst hi; cases ha
  | @line _ l => cases l <;> cases hi
  | @plain x =>
    cases x with
    | line _ l => cases l <;> cases hi
    | assertLine | clearLine | pulse | fire | sched => cases hi

/-- How far an operation moves time: ADV by its operand, the others not at all (43 R150). -/
theorem ExecStep.now_eq {s t : State} {i : Instr} :
    ExecStep s i t → t.now = s.now + match i with | .adv dt => dt | _ => 0 := by
  intro h
  cases h with
  | access h =>
    split
    · exact absurd rfl (h.ne_adv _)
    · exact (now_access s.now).accessStep h rfl
  | yieldOn | yieldT | adv | wake | configureAbsent | configure | resetAll | unconfigureAll => rfl
  | expire => exact (fireTrigger_outside _ s).now
  | take => exact (setPulse_outside _ _ _ s).now

/-- Settles O36, from the cases of `exec`. -/
theorem parametersAndTime : Obligations.ParametersAndTime := by
  refine ⟨fun s t h => ?_, fun s t i h => ?_⟩
  · have hkept : ParametersKept s t := by
      rcases step_eq_next h with rfl | ⟨i, hi⟩
      · exact .refl _
      · exact ParametersKept.trans (t := s.took) ⟨rfl, rfl, rfl, rfl⟩ hi.parametersKept
    exact ⟨hkept.chips_length, hkept.cpus_length, hkept.routes, hkept.autosenseZero⟩
  · exact (ExecStep.of_exec h).now_eq

/-! ### The trace (10 R41) -/

theorem trace_access (es : List Event) : AccessInvariant (fun s => es <+: s.trace) where
  setPort := fun _ _ _ _ h => h
  plain := fun {s} x h => by rw [(plainAction_outside s x).trace]; exact h
  traced := fun {s} e h => h.trans ⟨[e], rfl⟩
  outside := fun _ _ _ h => h

/-- A bus access of an existing chip targets it (30 R81). -/
theorem target_ne_none_of_access {s : State} {i : Instr} {c : Int} {off n : Nat}
    (hi : readAccess i = some (c, off) ∨ writeAccess i = some (c, off)) (hc : s.chipIndex c = some n) : s.target i ≠ none := by
  have key : s.target i = (s.chipIndex c).map fun n => (n, (s.slot n off).port) := by
    cases i <;> rcases hi with hi | hi <;> cases hi <;> rfl
  rw [key, hc]
  exact Option.some_ne_none _

theorem target_line (s : State) (c : Int) (l : Line) (v : Bool) :
    s.target (Action.op (.line c l v)) = (s.chipIndex c).map fun n => (n, linePort l) := by
  cases l <;> rfl

/-- Only an access or a sample of an existing chip drives; the lifecycle operations drive nothing (D35). -/
theorem ExecStep.trace_eq {s t : State} {i : Instr} (h : ExecStep s i t) (hi : s.target i = none) : t.trace = s.trace := by
  cases h with
  | access h =>
    cases h with
    | readAbsent | writeNothing => rfl
    | read ha hc => exact absurd hi (target_ne_none_of_access (.inl ha) hc)
    | write ha hc => exact absurd hi (target_ne_none_of_access (.inr ha) hc)
    | line hc => rw [target_line, hc] at hi; cases hi
    | plain => exact (plainAction_outside s _).trace
  | yieldOn | yieldT | adv | wake | configureAbsent | configure | resetAll | unconfigureAll => rfl
  | expire => exact (fireTrigger_outside _ s).trace
  | take => exact (setPulse_outside _ _ _ s).trace

theorem ExecStep.trace_grows {s t : State} {i : Instr} (h : ExecStep s i t) : s.trace <+: t.trace := by
  cases h with
  | access h => exact (trace_access s.trace).accessStep h (List.prefix_refl _)
  | yieldOn | yieldT | adv | wake | configureAbsent | configure | resetAll | unconfigureAll => exact List.prefix_refl _
  | expire => rw [(fireTrigger_outside _ s).trace]
  | take => rw [(setPulse_outside _ _ _ s).trace]

/-- Settles O37, from the cases of `exec`. -/
theorem traceGrows : Obligations.TraceGrows := by
  intro s t i h
  have hstep := ExecStep.of_exec h
  exact ⟨hstep.trace_grows, hstep.trace_eq⟩

end Sys2Proof.Machine

/-! PROOFS. What an operation leaves in the ports, under any wiring: the one register its key names, and the rest kept. -/

namespace Sys2Proof.Machine

/-! ### The ports of a chip with an operation in progress -/

/-- The registers and the flags of a port are the same; its C2 level, line memories and aggregate may differ. -/
structure SameRegs (q r : Port) : Prop where
  ddr : r.ddr = q.ddr
  out : r.out = q.out
  inp : r.inp = q.inp
  ctl : r.ctl = q.ctl
  irq1 : r.irq1 = q.irq1
  irq2 : r.irq2 = q.irq2

theorem SameRegs.refl (q : Port) : SameRegs q q := ⟨rfl, rfl, rfl, rfl, rfl, rfl⟩

theorem SameRegs.of_eq {q r : Port} (h : r = q) : SameRegs q r := h ▸ .refl q

theorem SameRegs.trans {q r u : Port} (h : SameRegs q r) (g : SameRegs r u) : SameRegs q u :=
  ⟨g.ddr.trans h.ddr, g.out.trans h.out, g.inp.trans h.inp, g.ctl.trans h.ctl, g.irq1.trans h.irq1, g.irq2.trans h.irq2⟩

theorem SameRegs.portKept {q r : Port} (h : SameRegs q r) : PortKept q r :=
  ⟨h.ddr, h.out, h.inp, h.ctl, fun e => h.irq1.trans e, fun e => h.irq2.trans e⟩

/-- What the drives of an operation on chip `n` leave in the ports: that chip's registers and flags as they are, everywhere else
the registers, and the flags that are set. -/
structure Held (n : Nat) (s t : State) : Prop where
  chips_length : t.chips.length = s.chips.length
  own : ∀ p, SameRegs (s.port n p) (t.port n p)
  kept : ∀ m p, PortKept (s.port m p) (t.port m p)

namespace Held
variable {n : Nat} {s t u : State}

theorem of_chips (h : t.chips = s.chips) : Held n s t where
  chips_length := by rw [h]
  own := fun p => .of_eq (by simp only [State.port, chip_congr h])
  kept := fun m p => SameRegs.portKept (.of_eq (by simp only [State.port, chip_congr h]))

theorem refl (s : State) : Held n s s := of_chips rfl

theorem trans (h : Held n s t) (g : Held n t u) : Held n s u :=
  ⟨g.chips_length.trans h.chips_length, fun p => (h.own p).trans (g.own p), fun m p => (h.kept m p).trans (g.kept m p)⟩

theorem of_cascade (h : Cascade [n] s t) : Held n s t where
  chips_length := h.chips_length
  own := fun p => .of_eq (by simp only [State.port, h.busy n (List.mem_singleton.2 rfl)])
  kept := h.kept

/-- A write of the C2 level, a line memory or the aggregate. -/
theorem of_setPort {f : Port → Port} (hf : ∀ q, SameRegs q (f q)) (p : PortId) : Held n s (s.setPort n p f) where
  chips_length := setPort_length s n p f
  own := fun p' => by
    rw [port_setPort]
    split
    · exact hf _
    · exact .refl _
  kept := fun m p' => by
    rw [port_setPort]
    split
    · exact (hf _).portKept
    · exact .refl _

/-- A register write after the drives, or before them: the same is held. -/
theorem setPort (h : Held n s t) {f : Port → Port} (hf : ∀ {q r}, SameRegs q r → SameRegs (f q) (f r)) (p : PortId) :
    Held n (s.setPort n p f) (t.setPort n p f) where
  chips_length := by simpa using h.chips_length
  own := fun p' => by
    rw [port_setPort, port_setPort, h.chips_length]
    split
    · exact hf (h.own p')
    · exact h.own p'
  kept := fun m p' => by
    rw [port_setPort, port_setPort, h.chips_length]
    split
    · next e => obtain ⟨rfl, _⟩ := e; exact (hf (h.own p')).portKept
    · exact h.kept m p'

/-- The port written before the drives, where the chip exists. -/
theorem written {p : PortId} {f : Port → Port} (h : Held n (s.setPort n p f) t) (hn : n < s.chips.length) :
    SameRegs (f (s.port n p)) (t.port n p) :=
  port_setPort_same s p f hn ▸ h.own p

/-- Every other port. -/
theorem other {m : Nat} {p p' : PortId} {f : Port → Port} (h : Held n (s.setPort n p f) t) (hne : ¬ (m = n ∧ p' = p)) :
    PortKept (s.port m p') (t.port m p') := by
  have hk := h.kept m p'
  rwa [port_setPort, if_neg fun e => hne ⟨e.1, e.2.1⟩] at hk

end Held

section
variable {n : Nat} {p : PortId} {s t : State} {drive : Driver}

theorem held_setIrqState (v : Bool) : Held n s (s.setPort n p fun q => { q with irqState := v }) :=
  .of_setPort (f := fun q => { q with irqState := v }) (fun _ => ⟨rfl, rfl, rfl, rfl, rfl, rfl⟩) p

theorem held_setOutC2 (v : Bool) : Held n s (s.setPort n p fun q => { q with outC2 := v }) :=
  .of_setPort (f := fun q => { q with outC2 := v }) (fun _ => ⟨rfl, rfl, rfl, rfl, rfl, rfl⟩) p

theorem updateIrq_held (hd : CascadeDriver [n] drive) (h : updateIrq drive n p s = .next t) : Held n s t :=
  (held_setIrqState _).trans (.of_cascade (updateIrq_cascade hd h))

theorem moveC2_held (hd : CascadeDriver [n] drive) {v : Bool} (h : moveC2 drive n p v s = .next t) : Held n s t := by
  obtain ⟨u, hu, rfl⟩ := moveC2_cascade hd h
  exact (Held.of_cascade hu).trans (held_setOutC2 v)

theorem strobe_held (hd : CascadeDriver [n] drive) (h : strobe drive n p s = .next t) : Held n s t := by
  obtain ⟨u, hu, ht⟩ := andThen_eq_next.1 h
  have hlow := moveC2_held hd hu
  split at ht
  · obtain ⟨w, hw, ht⟩ := andThen_eq_next.1 ht
    cases ht
    exact hlow.trans ((Held.of_cascade (hd _ _ _ _ hw)).trans (held_setOutC2 true))
  · cases ht; exact hlow

theorem strobeIfArmed_held (h : strobeIfArmed n p s = .next t) : Held n s t := by
  unfold strobeIfArmed at h
  split at h
  · exact strobe_held (driveFrom_cascade n s) h
  · cases h; exact .refl s

theorem driveOutput_held (h : driveOutput n p s = .next t) : Held n s t := by
  unfold driveOutput at h
  simp only at h
  split at h
  · cases h; exact .refl s
  · exact .of_cascade (driveFrom_cascade n s _ _ _ _ h)

/-! ### The register operations, by port -/

/-- What a data read stores in its port: the latched byte, and both flags clear (40 R104 steps 1, 3). -/
def clearedWith (x : Byte) (q : Port) : Port := { q with inp := x, irq1 := false, irq2 := false }

theorem readDataCommon_held {b : Byte} (h : readDataCommon n p s = .next (t, b)) :
    Held n (s.setPort n p (clearedWith (s.latched (s.pins n p).inPort (s.port n p).inp))) t := by
  obtain ⟨u, hu, ht⟩ := andThen_eq_next.1 h
  cases ht
  have hdrives := updateIrq_held (driveFrom_cascade n _) hu
  rw [latchInput_eq, setPort_setPort] at hdrives
  have hsample : Held n s (s.afterSampleOf (s.pins n p).inPort) := by
    cases (s.pins n p).inPort with
    | none => exact .refl s
    | some k => exact .of_chips (afterSample_chips s)
  refine (hsample.setPort (f := clearedWith _) ?_ p).trans hdrives
  intro q r e
  exact ⟨e.ddr, e.out, rfl, e.ctl, rfl, rfl⟩

theorem regReadData_held {b : Byte} (h : regRead (dataReadOf p) n s = .next (t, b)) :
    Held n (s.setPort n p (clearedWith (s.latched (s.pins n p).inPort (s.port n p).inp))) t := by
  cases p with
  | a =>
    obtain ⟨⟨u, b'⟩, hu, h⟩ := andThen_eq_next.1 h
    obtain ⟨w, hw, ht⟩ := andThen_eq_next.1 h
    cases ht
    exact (readDataCommon_held hu).trans (strobeIfArmed_held hw)
  | b => exact readDataCommon_held h

theorem regReadDdr_eq (n : Nat) (p : PortId) (s : State) : regRead (ddrReadOf p) n s = .next (s, (s.port n p).ddr) := by
  cases p <;> rfl

theorem sampleBound_kept {l : Line} {source : Option Nat} (h : sampleBound n l source s = .next t) (m : Nat) (p : PortId) :
    PortKept (s.port m p) (t.port m p) := by
  cases source with
  | none => cases h; exact .refl _
  | some k =>
    rw [sampleBound_some] at h
    have hcascade : Cascade [] s.afterSample t := setLine_cascade List.not_mem_nil (driveFrom_cascade n _) h
    exact ((Held.of_chips (n := n) (afterSample_chips s)).kept m p).trans (hcascade.kept m p)

/-- A control read samples lines, and a sample keeps every register and every set flag (41 R135). -/
theorem regReadCtl_kept {b : Byte} (h : regRead (ctlReadOf p) n s = .next (t, b)) (m : Nat) (p' : PortId) :
    PortKept (s.port m p') (t.port m p') := by
  have key : ∀ {c1 c2 : Line}, readCtl n c1 c2 s = .next (t, b) → PortKept (s.port m p') (t.port m p') := by
    intro c1 c2 h
    obtain ⟨u, hu, h⟩ := andThen_eq_next.1 h
    obtain ⟨w, hw, ht⟩ := andThen_eq_next.1 h
    cases ht
    exact (sampleBound_kept hu m p').trans (sampleBound_kept hw m p')
  cases p with
  | a => exact key h
  | b => exact key h

theorem writeOut_held {d : Byte} (h : writeOut n p d s = .next t) : Held n (s.setPort n p fun q => { q with out := d }) t :=
  driveOutput_held h

theorem regWriteData_held {d : Byte} (h : regWrite (dataWriteOf p) n d s = .next t) :
    Held n (s.setPort n p fun q => { q with out := d }) t := by
  cases p with
  | a => exact writeOut_held h
  | b =>
    obtain ⟨u, hu, ht⟩ := andThen_eq_next.1 h
    exact (writeOut_held hu).trans (strobeIfArmed_held ht)

theorem regWriteDdr_held {d : Byte} (h : regWrite (ddrWriteOf p) n d s = .next t) :
    Held n (s.setPort n p fun q => { q with ddr := d }) t := by
  have h : writeDdr n p d s = .next t := by cases p <;> exact h
  unfold writeDdr at h
  split at h
  · next hd =>
    cases h
    rw [setPort_eq_self (by rw [hd])]
    exact .refl s
  · exact driveOutput_held h

/-- The drive of C2 comes before the store, the aggregate's after it; neither touches the chip (40 R109). -/
theorem regWriteCtl_held {d : Byte} (h : regWrite (ctlWriteOf p) n d s = .next t) :
    Held n (s.setPort n p fun q => { q with ctl := ctlOfData d }) t := by
  have h : writeCtl n p d s = .next t := by cases p <;> exact h
  obtain ⟨u, hu, ht⟩ := andThen_eq_next.1 h
  have hmove : Held n s u := by
    split at hu
    · exact moveC2_held (driveFrom_cascade n s) hu
    · cases hu; exact .refl s
  refine (hmove.setPort ?_ p).trans (updateIrq_held (driveFrom_cascade n _) ht)
  intro q r e
  exact ⟨e.ddr, e.out, e.inp, rfl, e.irq1, e.irq2⟩

end

theorem readOp_cases (op : ReadOp) : ∃ p, op = ddrReadOf p ∨ op = dataReadOf p ∨ op = ctlReadOf p := by
  cases op with
  | ddrA | dataA | ctlA => exact ⟨.a, by decide⟩
  | ddrB | dataB | ctlB => exact ⟨.b, by decide⟩

theorem writeOp_cases (op : WriteOp) : ∃ p, op = ddrWriteOf p ∨ op = dataWriteOf p ∨ op = ctlWriteOf p := by
  cases op with
  | ddrA | dataA | ctlA => exact ⟨.a, by decide⟩
  | ddrB | dataB | ctlB => exact ⟨.b, by decide⟩

/-! ### What a completed operation leaves in every port -/

/-- Every port is kept, or one register operation has written its own register first, or a lifecycle operation has zeroed every
port. -/
inductive PortsAfter (s : State) (i : Instr) (t : State) : Prop
  | kept (h : ∀ m p, PortKept (s.port m p) (t.port m p))
  | dataRead (n : Nat) (p : PortId) (hi : s.reads i n (dataReadOf p))
      (h : Held n (s.setPort n p (clearedWith (s.latched (s.pins n p).inPort (s.port n p).inp))) t)
  | dataWrite (n : Nat) (p : PortId) (d : Byte) (hi : s.writes i n (dataWriteOf p))
      (h : Held n (s.setPort n p fun q => { q with out := d }) t)
  | ddrWrite (n : Nat) (p : PortId) (d : Byte) (hi : s.writes i n (ddrWriteOf p))
      (h : Held n (s.setPort n p fun q => { q with ddr := d }) t)
  | ctlWrite (n : Nat) (p : PortId) (d : Byte) (hi : s.writes i n (ctlWriteOf p))
      (h : Held n (s.setPort n p fun q => { q with ctl := ctlOfData d }) t)
  | zeroed (hi : zeroesChips i = true) (h : ∀ m p, t.port m p = Port.zero)

section
variable {s t : State} {i : Instr}

theorem PortsAfter.of_chips (h : t.chips = s.chips) : PortsAfter s i t := .kept (Held.of_chips (n := 0) h).kept

theorem AccessStep.portsAfter (h : AccessStep s i t) : PortsAfter s i t := by
  cases h with
  | readAbsent | writeNothing => exact .of_chips rfl
  | @read _ c off n u b hi hc hu =>
    obtain ⟨p, hop | hop | hop⟩ := readOp_cases (s.readKeyAt n off)
    · rw [hop, regReadDdr_eq] at hu
      cases hu
      exact .of_chips rfl
    · have hheld := regReadData_held (hop ▸ hu)
      exact .dataRead n p ⟨c, off, hi, hc, hop⟩ (hheld.trans (.of_chips rfl))
    · have hkept := regReadCtl_kept (hop ▸ hu)
      exact .kept hkept
  | @write _ c off n d u hi hc _ hu =>
    obtain ⟨p, hop | hop | hop⟩ := writeOp_cases (s.writeKeyAt n off)
    · exact .ddrWrite n p d ⟨c, off, hi, hc, hop⟩ (regWriteDdr_held (hop ▸ hu))
    · exact .dataWrite n p d ⟨c, off, hi, hc, hop⟩ (regWriteData_held (hop ▸ hu))
    · exact .ctlWrite n p d ⟨c, off, hi, hc, hop⟩ (regWriteCtl_held (hop ▸ hu))
  | @line _ _ _ n _ _ hu =>
    have hcascade : Cascade [] s t := setLine_cascade List.not_mem_nil (driveFrom_cascade n s) hu
    exact .kept hcascade.kept
  | plain => exact .of_chips (plainAction_outside s _).chips

theorem port_map_zero {f : Chip → Chip} (hf : ∀ ch p, portOf (f ch) p = Port.zero) (m : Nat) (p : PortId) :
    ({ s with chips := s.chips.map f } : State).port m p = Port.zero := by
  unfold State.port State.chip
  rw [List.getD_eq_getElem?_getD, List.getElem?_map]
  cases s.chips[m]? with
  | none => cases p <;> rfl
  | some ch => exact hf ch p

theorem ExecStep.portsAfter (h : ExecStep s i t) : PortsAfter s i t := by
  cases h with
  | access h => exact h.portsAfter
  | yieldOn | yieldT | adv | wake | configureAbsent => exact .of_chips rfl
  | expire => exact .of_chips (fireTrigger_outside _ s).chips
  | take => exact .of_chips (setPulse_outside _ _ _ s).chips
  | configure hn =>
    refine .kept fun m p => SameRegs.portKept (.of_eq ?_)
    rw [State.port, chip_modify s m _ (indexIn_lt hn)]
    split
    · cases p <;> rfl
    · rfl
  | resetAll => exact .zeroed rfl fun m p => port_map_zero (fun ch p => by cases p <;> rfl) m p
  | unconfigureAll => exact .zeroed rfl fun m p => port_map_zero (fun ch p => by cases p <;> rfl) m p

end

/-! ### The flags (10 R37) and the writers of each register (10 R21 to R24) -/

section
variable {s t : State} {i : Instr} {n : Nat} {p : PortId}

/-- A write of one register, and drives after it, keep the flags that are set. -/
theorem Held.flags_kept {m : Nat} {p' : PortId} {f : Port → Port} (h : Held m (s.setPort m p' f) t)
    (hf : ∀ q, (f q).irq1 = q.irq1 ∧ (f q).irq2 = q.irq2) :
    ((s.port n p).irq1 = true → (t.port n p).irq1 = true) ∧ ((s.port n p).irq2 = true → (t.port n p).irq2 = true) := by
  have hk := h.kept n p
  have hsame : ((s.setPort m p' f).port n p).irq1 = (s.port n p).irq1 ∧
      ((s.setPort m p' f).port n p).irq2 = (s.port n p).irq2 := by
    rw [port_setPort]
    split
    · exact hf _
    · exact ⟨rfl, rfl⟩
  exact ⟨fun e => hk.irq1 (hsame.1.trans e), fun e => hk.irq2 (hsame.2.trans e)⟩

theorem PortsAfter.flags_kept (h : PortsAfter s i t) (hz : zeroesChips i = false) (hr : ¬ s.reads i n (dataReadOf p)) :
    ((s.port n p).irq1 = true → (t.port n p).irq1 = true) ∧ ((s.port n p).irq2 = true → (t.port n p).irq2 = true) := by
  cases h with
  | kept h => exact ⟨(h n p).irq1, (h n p).irq2⟩
  | dataRead m p' hi h =>
    have hk := h.other (m := n) (p' := p) (by rintro ⟨rfl, rfl⟩; exact hr hi)
    exact ⟨hk.irq1, hk.irq2⟩
  | dataWrite _ _ _ _ h | ddrWrite _ _ _ _ h | ctlWrite _ _ _ _ h => exact h.flags_kept fun _ => ⟨rfl, rfl⟩
  | zeroed hi => rw [hz] at hi; cases hi

theorem readAccess_op (x : Action) : readAccess x.op = none := by
  cases x with
  | line c l v => cases l <;> rfl
  | assertLine | clearLine | pulse | fire | sched => rfl

theorem writeAccess_of_readAccess {x : Int × Nat} (h : readAccess i = some x) : writeAccess i = none := by
  cases i <;> cases h <;> rfl

/-- An operation that reads register `op` and completes has performed that read. -/
theorem ExecStep.of_reads {op : ReadOp} (h : ExecStep s i t) (hi : s.reads i n op) :
    ∃ u b, regRead op n s = .next (u, b) ∧ t = { u with result := s.given n b } := by
  obtain ⟨c, off, ha, hc, hkey⟩ := hi
  cases h with
  | access h =>
    cases h with
    | readAbsent r ha' hc' =>
      cases ha.symm.trans ha'
      cases hc.symm.trans hc'
    | read ha' hc' hu =>
      cases ha.symm.trans ha'
      cases hc.symm.trans hc'
      exact ⟨_, _, hkey ▸ hu, rfl⟩
    | writeNothing ha' => cases (writeAccess_of_readAccess ha).symm.trans ha'
    | write ha' => cases (writeAccess_of_readAccess ha).symm.trans ha'
    | line | plain => rw [readAccess_op] at ha; cases ha
  | yieldOn | yieldT | adv | expire | wake | take | configureAbsent | configure | resetAll | unconfigureAll => cases ha

theorem port_of_zeroesChips (h : exec i s = .next t) (hz : zeroesChips i = true) : t.port n p = Port.zero := by
  cases i <;> cases hz
  case resetAll => cases h; exact port_map_zero (fun ch p => by cases p <;> rfl) n p
  case unconfigureAll => cases h; exact port_map_zero (fun ch p => by cases p <;> rfl) n p

/-- A data read clears both flags of its port, and its drives leave them clear; a reset leaves zeros. -/
theorem flags_cleared (h : exec i s = .next t) (hi : zeroesChips i = true ∨ s.reads i n (dataReadOf p)) :
    (t.port n p).irq1 = false ∧ (t.port n p).irq2 = false := by
  rcases hi with hz | hr
  · rw [port_of_zeroesChips h hz]
    exact ⟨rfl, rfl⟩
  · obtain ⟨u, b, hu, rfl⟩ := (ExecStep.of_exec h).of_reads hr
    obtain ⟨c, off, _, hc, _⟩ := hr
    have hport := (regReadData_held hu).written (indexIn_lt hc)
    exact ⟨hport.irq1, hport.irq2⟩

/-- Settles O28, from what an operation leaves in every port. -/
theorem flagsClearedByDataReadOnly : Obligations.FlagsClearedByDataReadOnly := by
  intro s t i n p h
  exact ⟨(ExecStep.of_exec h).portsAfter.flags_kept, flags_cleared h⟩

/-- A register that differs after a write of port `p'` of chip `m`, and drives after it, is one that the write itself changes in
that port. -/
theorem Held.changed {α : Type} {m : Nat} {p' : PortId} {f : Port → Port} {reg : Port → α} (h : Held m (s.setPort m p' f) t)
    (hreg : ∀ {q r}, PortKept q r → reg r = reg q) (hne : reg (t.port n p) ≠ reg (s.port n p)) :
    (n = m ∧ p = p') ∧ reg (f (s.port n p)) ≠ reg (s.port n p) := by
  have hk := hreg (h.kept n p)
  rw [port_setPort] at hk
  split at hk
  · next e => exact ⟨⟨e.1, e.2.1⟩, hk ▸ hne⟩
  · exact absurd hk hne

/-- A register that drives keep and that an operation changes: which register operation it performed there, and that it writes
that register. -/
theorem PortsAfter.writer {α : Type} {reg : Port → α} (h : PortsAfter s i t) (hz : zeroesChips i = false)
    (hreg : ∀ {q r}, PortKept q r → reg r = reg q) (hne : reg (t.port n p) ≠ reg (s.port n p)) :
    (s.reads i n (dataReadOf p) ∧
      reg (clearedWith (s.latched (s.pins n p).inPort (s.port n p).inp) (s.port n p)) ≠ reg (s.port n p)) ∨
    (∃ d, s.writes i n (dataWriteOf p) ∧ reg { s.port n p with out := d } ≠ reg (s.port n p)) ∨
    (∃ d, s.writes i n (ddrWriteOf p) ∧ reg { s.port n p with ddr := d } ≠ reg (s.port n p)) ∨
    (∃ d, s.writes i n (ctlWriteOf p) ∧ reg { s.port n p with ctl := ctlOfData d } ≠ reg (s.port n p)) := by
  cases h with
  | kept h => exact absurd (hreg (h n p)) hne
  | dataRead _ _ hi h =>
    obtain ⟨⟨rfl, rfl⟩, hw⟩ := h.changed hreg hne
    exact .inl ⟨hi, hw⟩
  | dataWrite _ _ d hi h =>
    obtain ⟨⟨rfl, rfl⟩, hw⟩ := h.changed hreg hne
    exact .inr (.inl ⟨d, hi, hw⟩)
  | ddrWrite _ _ d hi h =>
    obtain ⟨⟨rfl, rfl⟩, hw⟩ := h.changed hreg hne
    exact .inr (.inr (.inl ⟨d, hi, hw⟩))
  | ctlWrite _ _ d hi h =>
    obtain ⟨⟨rfl, rfl⟩, hw⟩ := h.changed hreg hne
    exact .inr (.inr (.inr ⟨d, hi, hw⟩))
  | zeroed hi => rw [hz] at hi; cases hi

/-- Settles O29: of the register operations, each register has one that writes it. -/
theorem registerWriters : Obligations.RegisterWriters := by
  intro s t i n p h hz
  have hports := (ExecStep.of_exec h).portsAfter
  refine ⟨fun hne => ?_, fun hne => ?_, fun hne => ?_, fun hne => ?_⟩
  · rcases hports.writer hz PortKept.ddr hne with ⟨_, hw⟩ | ⟨_, _, hw⟩ | ⟨_, hi, _⟩ | ⟨_, _, hw⟩
    · exact absurd rfl hw
    · exact absurd rfl hw
    · exact hi
    · exact absurd rfl hw
  · rcases hports.writer hz PortKept.out hne with ⟨_, hw⟩ | ⟨_, hi, _⟩ | ⟨_, _, hw⟩ | ⟨_, _, hw⟩
    · exact absurd rfl hw
    · exact hi
    · exact absurd rfl hw
    · exact absurd rfl hw
  · rcases hports.writer hz PortKept.ctl hne with ⟨_, hw⟩ | ⟨_, _, hw⟩ | ⟨_, _, hw⟩ | ⟨_, hi, _⟩
    · exact absurd rfl hw
    · exact absurd rfl hw
    · exact absurd rfl hw
    · exact hi
  · rcases hports.writer hz PortKept.inp hne with ⟨hi, hw⟩ | ⟨_, _, hw⟩ | ⟨_, _, hw⟩ | ⟨_, _, hw⟩
    · refine ⟨hi, fun hnone => hw ?_⟩
      rw [hnone]
      rfl
    · exact absurd rfl hw
    · exact absurd rfl hw
    · exact absurd rfl hw

end

end Sys2Proof.Machine

/-! PROOFS. The control read, a control write read back, FIRE, RESET_ALL, the power-on values and the operations whose whole effect
is one field. -/

namespace Sys2Proof.Machine

/-! ### The rows of one port, on the 8-bit bus -/

section
variable {s : State} {c : Int} {off n : Nat} {p : PortId}

theorem State.AtCtl.readKey (h : s.AtCtl c off n p) : s.readKeyAt n off = ctlReadOf p := by
  unfold State.readKeyAt State.slot
  rw [h.slot]
  cases p <;> rfl

theorem State.AtCtl.writeKey (h : s.AtCtl c off n p) : s.writeKeyAt n off = ctlWriteOf p := by
  unfold State.writeKeyAt State.slot
  rw [h.slot]
  cases p <;> rfl

theorem State.AtData.ddrReadKey (h : s.AtData c off n p false) : s.readKeyAt n off = ddrReadOf p := by
  have hsel : s.select n (dataSlotOf p) = false := by cases p <;> exact h.select
  unfold State.readKeyAt State.slot
  rw [h.slot, hsel]
  cases p <;> rfl

theorem exec_rdCtlOf (h : s.AtCtl c off n p) :
    exec (rdCtlOf p c off) s = andThen (regRead (ctlReadOf p) n s) giveByte := by
  rw [← h.readKey]
  cases p with
  | a => exact busRead_of_chip .ctlA h.chip h.bus
  | b => exact busRead_of_chip .ctlB h.chip h.bus

theorem exec_wrCtlOf (h : s.AtCtl c off n p) (data : Byte) :
    exec (wrCtlOf p c off data) s = regWrite (ctlWriteOf p) n data s := by
  rw [← h.writeKey]
  cases p with
  | a => exact busWrite_of_chip .ctlA data h.chip h.bus
  | b => exact busWrite_of_chip .ctlB data h.chip h.bus

theorem exec_rdDdrOf (h : s.AtData c off n p false) :
    exec (rdDdrOf p c off) s = .next { s with result := .byte (s.port n p).ddr } := by
  have hread : exec (rdDdrOf p c off) s = andThen (regRead (ddrReadOf p) n s) giveByte := by
    rw [← h.ddrReadKey]
    cases p with
    | a => exact busRead_of_chip .ddrA h.chip h.bus
    | b => exact busRead_of_chip .ddrB h.chip h.bus
  rw [hread, regReadDdr_eq]
  rfl

end

/-! ### The control read (40 R108, R113) -/

/-- The two control lines of a port (30 R80). -/
def c1Line : PortId → Line
  | .a => .ca1
  | .b => .cb1

def c2Line : PortId → Line
  | .a => .ca2
  | .b => .cb2

theorem lineC1Of_eq (p : PortId) (c : Int) (v : Bool) : lineC1Of p c v = Action.op (.line c (c1Line p) v) := by
  cases p <;> rfl

theorem lineC2Of_eq (p : PortId) (c : Int) (v : Bool) : lineC2Of p c v = Action.op (.line c (c2Line p) v) := by
  cases p <;> rfl

/-- The C1 sample, then the C2 sample in the state it leaves, then the view. -/
theorem regReadCtl_eq (n : Nat) (p : PortId) (s : State) :
    regRead (ctlReadOf p) n s =
      andThen (sampleBound n (c1Line p) (s.pins n p).inC1 s) fun s1 =>
        andThen (sampleBound n (c2Line p) (s1.pins n p).inC2 s1) fun s2 => .next (s2, ctlView (s2.port n p)) := by
  cases p <;> rfl

section
variable {s u : State} {c : Int} {n : Nat} {l : Line} {b : Option Nat}

/-- The sample of a bound line is the LINE operation with the environment's answer (40 R108; 41 R130). -/
theorem sampleBound_of_exec (hc : s.chipIndex c = some n) (hnone : b = none → u = s)
    (hsome : b ≠ none → exec (Action.op (.line c l (s.sampled != 0))) s.afterSample = .next u) :
    sampleBound n l b s = .next u := by
  cases b with
  | none => rw [hnone rfl]; rfl
  | some k =>
    have hc' : s.afterSample.chipIndex c = some n := by unfold State.chipIndex; rw [afterSample_chips]; exact hc
    rw [sampleBound_some, ← presentLine_of_chip hc', ← exec_op_line]
    exact hsome (Option.some_ne_none k)

theorem BindingsKept.pins {t : State} (h : BindingsKept s t) (m : Nat) (p : PortId) : t.pins m p = s.pins m p := by
  obtain ⟨hintf, _, _⟩ := h m
  unfold State.pins pinsOf
  rw [hintf]

theorem ParametersKept.chipIndex {t : State} (h : ParametersKept s t) (c : Int) : t.chipIndex c = s.chipIndex c := by
  unfold State.chipIndex
  rw [h.chips_length]

theorem regReadCtl_of_ctlSampled {p : PortId} {t : State} (hc : s.chipIndex c = some n) (h : s.ctlSampled c n p t) :
    regRead (ctlReadOf p) n s = .next (t, ctlView (t.port n p)) := by
  obtain ⟨s1, hnone1, hsome1, hnone2, hsome2⟩ := h
  rw [lineC1Of_eq] at hsome1
  rw [lineC2Of_eq] at hsome2
  have hfirst : sampleBound n (c1Line p) (s.pins n p).inC1 s = .next s1 := sampleBound_of_exec hc hnone1 hsome1
  have hpins : s1.pins n p = s.pins n p :=
    ((bindingsKept_access s).sampleBound hfirst (.of_chips rfl)).pins n p
  have hc1 : s1.chipIndex c = some n :=
    (((parametersKept_access s).sampleBound hfirst (.refl s)).chipIndex c).trans hc
  have hsecond : sampleBound n (c2Line p) (s.pins n p).inC2 s1 = .next t := sampleBound_of_exec hc1 hnone2 hsome2
  rw [regReadCtl_eq, hfirst, andThen_next, hpins, hsecond, andThen_next]

/-- With no line bound nothing is sampled. -/
theorem ctlSampled_unbound {p : PortId} (h1 : (s.pins n p).inC1 = none) (h2 : (s.pins n p).inC2 = none) :
    s.ctlSampled c n p s :=
  ⟨s, fun _ => rfl, fun h => absurd h1 h, fun _ => rfl, fun h => absurd h2 h⟩

end

theorem exec_rdCtlOf_of_ctlSampled {s t : State} {c : Int} {off n : Nat} {p : PortId} (h : s.AtCtl c off n p)
    (ht : s.ctlSampled c n p t) :
    exec (rdCtlOf p c off) s = .next { t with result := .byte (ctlView (t.port n p)) } := by
  rw [exec_rdCtlOf h, regReadCtl_of_ctlSampled h.chip ht]
  rfl

/-- Settles O17: the unbound case is the one whose samples leave the state as it is. -/
theorem readControl : Obligations.ReadControl := by
  intro s c off n p h
  exact ⟨fun h1 h2 => exec_rdCtlOf_of_ctlSampled h (ctlSampled_unbound h1 h2), fun t => exec_rdCtlOf_of_ctlSampled h⟩

/-! ### A control write read back (40 R121) -/

/-- What completes without moving bindings or chips leaves a control slot where it was. -/
theorem State.AtCtl.kept {s t : State} {c : Int} {off n : Nat} {p : PortId} (h : s.AtCtl c off n p) (hb : BindingsKept s t)
    (hp : ParametersKept s t) : t.AtCtl c off n p := by
  obtain ⟨_, haddr, _⟩ := hb n
  exact ⟨(hp.chipIndex c).trans h.chip, by rw [haddr]; exact h.bus, by rw [haddr]; exact h.slot⟩

/-- Settles O30: the write keeps bindings and flags and stores the six bits; the read is then the unbound case. -/
theorem controlWriteThenRead : Obligations.ControlWriteThenRead := by
  intro s t c off n p data h h1 h2 hwrite
  have hstep := ExecStep.of_exec hwrite
  have hbind : BindingsKept s t :=
    hstep.bindingsKept (by cases p <;> exact fun _ _ _ e => nomatch e) (by cases p <;> exact fun e => nomatch e)
  have hport : SameRegs { s.port n p with ctl := ctlOfData data } (t.port n p) :=
    (regWriteCtl_held ((exec_wrCtlOf h data).symm.trans hwrite)).written (indexIn_lt h.chip)
  have hpins := hbind.pins n p
  have hread := exec_rdCtlOf_of_ctlSampled (h.kept hbind hstep.parametersKept)
    (ctlSampled_unbound (by rw [hpins]; exact h1) (by rw [hpins]; exact h2))
  rw [hread, ctlView, hport.irq1, hport.irq2, hport.ctl]

/-! ### FIRE (43 R152) -/

/-- A trigger without waiters and without a deadline: FIRE finds nothing. -/
theorem fireTrigger_idem (id : Int) (s : State) : fireTrigger id (fireTrigger id s) = fireTrigger id s := by
  have hnone : waitersOf id (mapErase id s.waiters) = [] := by
    refine List.eq_nil_iff_forall_not_mem.2 fun n hn => ?_
    rw [mem_waitersOf, mem_mapErase] at hn
    exact hn.2 rfl
  rw [fireTrigger_eq id (fireTrigger id s), fireTrigger_waiters, fireTrigger_timeout, hnone, mapErase_mapErase,
    mapErase_mapErase, resumeAll, ← fireTrigger_waiters, ← fireTrigger_timeout]

theorem mapGet_mapErase (id id' : Int) (m : List (Int × Nat)) :
    mapGet id' (mapErase id m) = if id' = id then none else mapGet id' m := by
  split
  · next h => rw [h, mapGet_mapErase_same]
  · next h => exact mapGet_mapErase_other h m

/-- Settles O47, from what `Fire` leaves in the CPUs and in the two maps. -/
theorem fireResumesWaiters : Obligations.FireResumesWaiters := by
  intro s id
  refine ⟨fireTrigger id s, rfl, cpu_fireTrigger id s, (fireTrigger_outside id s).cpus_length, fun id' n => ?_, fun id' => ?_,
    (fireTrigger_outside id s).same.trans rfl, congrArg Host.Outcome.next (fireTrigger_idem id s)⟩
  · rw [fireTrigger_waiters, mem_mapErase]
  · rw [fireTrigger_timeout, mapGet_mapErase]

/-! ### RESET_ALL (45 R182) -/

/-- Settles O60: the ports are all zero, so the data slots show their direction registers. -/
theorem resetIdempotence : Obligations.ResetIdempotence := by
  intro s
  refine ⟨{ s with chips := s.chips.map resetChip }, rfl, ?_, fun c n p hc => ?_⟩
  · show execResetAll _ = _
    simp only [execResetAll, List.map_map]
    rfl
  · have hport : ({ s with chips := s.chips.map resetChip } : State).port n p = Port.zero :=
      port_of_zeroesChips (i := .resetAll) (s := s) rfl rfl
    refine ⟨by rw [hport]; rfl, fun hb off hslot => ?_⟩
    have hchip := chip_map s n (f := resetChip) rfl
    have hat : ({ s with chips := s.chips.map resetChip } : State).AtData c off n p false :=
      ⟨by simpa [State.chipIndex] using hc, by rw [hchip]; exact hb, by rw [hchip]; exact hslot, by rw [hport]; rfl⟩
    rw [exec_rdDdrOf hat, hport]
    rfl

/-! ### Power-on (10 R47) -/

/-- Settles O6: every slot is the blank one, every CPU the one at power-on. -/
theorem powerOnValues : Obligations.PowerOnValues := by
  refine ⟨fun ch hch => ?_, rfl, rfl, rfl, fun q hq => ?_, rfl⟩
  · obtain rfl : ch = Chip.unconfigured := List.eq_of_mem_replicate hch
    refine ⟨fun p => ?_, rfl, rfl⟩
    cases p <;> exact ⟨rfl, rfl, rfl, rfl, rfl, rfl, rfl, rfl, rfl, rfl, rfl⟩
  · obtain rfl : q = Cpu.powerOn := List.eq_of_mem_replicate hq
    exact ⟨rfl, rfl, rfl, rfl, rfl⟩

theorem reset_cpu (n : Nat) : State.reset.cpu n = Cpu.powerOn := by
  unfold State.cpu State.reset
  rw [List.getD_eq_getElem?_getD, List.getElem?_replicate]
  split <;> rfl

/-- Settles O7: blank slots and empty maps, and every CPU runs. -/
theorem resetMeetsInvariants : Obligations.ResetMeetsInvariants where
  aggregates := fun ch hch => by
    obtain rfl : ch = Chip.unconfigured := List.eq_of_mem_replicate hch
    exact ⟨rfl, rfl⟩
  unconfigured := fun ch hch _ => by
    obtain rfl : ch = Chip.unconfigured := List.eq_of_mem_replicate hch
    exact ⟨rfl, rfl⟩
  timeouts := List.Pairwise.nil
  waiters := List.Pairwise.nil
  waits := fun id n => by
    rw [reset_cpu]
    exact ⟨fun h => absurd h List.not_mem_nil, fun h => nomatch h.2⟩
  ahead := fun e he => absurd he List.not_mem_nil

/-! ### Control bits (10 R25 to R27) -/

/-- The view, bit by bit: the two flags above the six stored bits (10 R25). -/
theorem getLsbD_ctlView (q : Port) (k : Nat) :
    (ctlView q).getLsbD k =
      if k < 6 then q.ctl.getLsbD k
      else if k = 6 then q.irq2 && c2Input q.ctl
      else if k = 7 then q.irq1 else false := by
  unfold ctlView
  rw [BitVec.getLsbD_append, BitVec.getLsbD_append]
  by_cases hstored : k < 6
  · simp [hstored]
  · obtain ⟨j, rfl⟩ := Nat.exists_eq_add_of_le (Nat.le_of_not_lt hstored)
    match j with
    | 0 => simp
    | 1 => simp
    | j + 2 => simp; omega

/-- Settles O8: the predicates are the bits they are defined by, and the view is read bit by bit. -/
theorem controlFields : Obligations.ControlFields := by
  intro v q
  exact ⟨rfl, rfl, rfl, rfl, rfl, rfl, rfl, rfl, rfl, rfl, rfl, getLsbD_ctlView q 7, getLsbD_ctlView q 6,
    fun k hk => (getLsbD_ctlView q k).trans (if_pos hk)⟩

/-! ### SCHED and CONFIGURE (43 R151, 45 R180) -/

/-- Settles O46: the deadline is a write of the map at one id. -/
theorem schedule : Obligations.Schedule := by
  intro s id delay
  exact ⟨armTimeout id delay s, rfl, mapGet_mapSet_same id _ s.timeout, fun id' h => mapGet_mapSet_other h _ s.timeout, rfl⟩

/-- Settles O58: of an existing slot, CONFIGURE is that one update. -/
theorem configure : Obligations.Configure := by
  intro s c n m f hc
  show execConfigure c m f s = _
  simp only [execConfigure, hc]

end Sys2Proof.Machine

/-! PROOFS. Offset decoding, the lanes of the 16-bit bus, and each family of bus rows as one access: what it answers for a chip of
its width, for a chip of the other width and for no chip. -/

namespace Sys2Proof.Machine

/-! ### Offset decoding (20 R64, R65) -/

theorem decodeOffset_b8 (o : SlotOrdering) (off : Nat) :
    decodeOffset ⟨o, .b8⟩ off = if o = .alternate then swap12 (off % 4) else off % 4 := by
  cases o <;> rfl

/-- A 16-bit mode decodes the halved offset as the 8-bit bus decodes an offset. -/
theorem decodeOffset_halved (o : SlotOrdering) {bus : BusMode} (h : bus ≠ .b8) (off : Nat) :
    decodeOffset ⟨o, bus⟩ off = decodeOffset ⟨o, .b8⟩ (off / 2) := by
  cases bus with
  | b8 => exact absurd rfl h
  | b16Lower | b16Upper | b16Auto => rfl

theorem decodeOffset_b8_congr (o : SlotOrdering) {x y : Nat} (h : x % 4 = y % 4) :
    decodeOffset ⟨o, .b8⟩ x = decodeOffset ⟨o, .b8⟩ y := by
  rw [decodeOffset_b8, decodeOffset_b8, h]

theorem swap12_lt_four {r : Nat} (h : r < 4) : swap12 r < 4 := by
  unfold swap12
  split <;> omega

theorem decodeOffset_b8_lt (o : SlotOrdering) (off : Nat) : decodeOffset ⟨o, .b8⟩ off < 4 := by
  have hr : off % 4 < 4 := Nat.mod_lt _ (by decide)
  rw [decodeOffset_b8]
  split
  · exact swap12_lt_four hr
  · exact hr

/-- Settles O9: only the remainder modulo 4 of the offset, or of the halved offset, decides. -/
theorem offsetDecoding : Obligations.OffsetDecoding := by
  intro o bus off
  refine ⟨?_, fun h => ⟨?_, ?_, ?_⟩, ?_⟩
  · rintro rfl
    exact ⟨decodeOffset_b8 o off, decodeOffset_b8_congr o (by omega)⟩
  · rw [decodeOffset_halved o h, decodeOffset_b8]
  · rw [decodeOffset_halved o h, decodeOffset_halved o h]
    exact decodeOffset_b8_congr o (by omega)
  · rw [decodeOffset_halved o h, decodeOffset_halved o h]
    exact decodeOffset_b8_congr o (by omega)
  · by_cases h : bus = .b8
    · rw [h]; exact decodeOffset_b8_lt o off
    · rw [decodeOffset_halved o h]; exact decodeOffset_b8_lt o _

/-- On the 8-bit bus the slot is that of the remainder. -/
theorem slotAt_b8_of_mod {off r : Nat} (o : SlotOrdering) (h : off % 4 = r) : slotAt ⟨o, .b8⟩ off = slotAt ⟨o, .b8⟩ r :=
  congrArg slotOrder (decodeOffset_b8_congr o (by omega))

theorem slotAt_halved (o : SlotOrdering) {bus : BusMode} (h : bus ≠ .b8) (off : Nat) :
    slotAt ⟨o, bus⟩ off = slotAt ⟨o, .b8⟩ (off / 2) :=
  congrArg slotOrder (decodeOffset_halved o h off)

/-- The table of 20 R65, on the 8-bit bus. -/
theorem slotAt_b8 (off : Nat) :
    (off % 4 = 0 → slotAt ⟨.standard, .b8⟩ off = .dataA ∧ slotAt ⟨.alternate, .b8⟩ off = .dataA) ∧
    (off % 4 = 1 → slotAt ⟨.standard, .b8⟩ off = .ctlA ∧ slotAt ⟨.alternate, .b8⟩ off = .dataB) ∧
    (off % 4 = 2 → slotAt ⟨.standard, .b8⟩ off = .dataB ∧ slotAt ⟨.alternate, .b8⟩ off = .ctlA) ∧
    (off % 4 = 3 → slotAt ⟨.standard, .b8⟩ off = .ctlB ∧ slotAt ⟨.alternate, .b8⟩ off = .ctlB) :=
  ⟨fun h => ⟨slotAt_b8_of_mod _ h, slotAt_b8_of_mod _ h⟩, fun h => ⟨slotAt_b8_of_mod _ h, slotAt_b8_of_mod _ h⟩,
    fun h => ⟨slotAt_b8_of_mod _ h, slotAt_b8_of_mod _ h⟩, fun h => ⟨slotAt_b8_of_mod _ h, slotAt_b8_of_mod _ h⟩⟩

/-- Settles O10: the table on the 8-bit bus, at the halved offset in the other modes. -/
theorem registerMap : Obligations.RegisterMap := by
  refine ⟨rfl, rfl, rfl, rfl, slotAt_b8, fun bus hbus off => ?_⟩
  have hb : bus ≠ .b8 := by rintro rfl; exact absurd hbus (by decide)
  rw [slotAt_halved _ hb, slotAt_halved _ hb]
  exact slotAt_b8 (off / 2)

/-! ### The lanes of the 16-bit bus (20 R66, R67) -/

section
variable {lo hi : Byte}

@[simp] theorem lowByte_append (hi lo : Byte) : lowByte (hi ++ lo) = lo := BitVec.extractLsb'_append_eq_right

@[simp] theorem highByte_append (hi lo : Byte) : highByte (hi ++ lo) = hi := BitVec.extractLsb'_append_eq_left

theorem autosense_low (zero : AutosenseZero) (hlo : lo ≠ 0) (hhi : hi = 0) : autosense zero (hi ++ lo) = some lo := by
  unfold autosense
  rw [lowByte_append, highByte_append, if_neg fun h => h.2 hhi, if_neg fun h => hlo h.1, hhi]
  exact congrArg some BitVec.or_zero

theorem autosense_high (zero : AutosenseZero) (hlo : lo = 0) (hhi : hi ≠ 0) : autosense zero (hi ++ lo) = some hi := by
  unfold autosense
  rw [lowByte_append, highByte_append, if_neg fun h => h.1 hlo, if_neg fun h => hhi h.2, hlo]
  exact congrArg some BitVec.zero_or

theorem autosense_both (zero : AutosenseZero) (hlo : lo ≠ 0) (hhi : hi ≠ 0) : autosense zero (hi ++ lo) = none := by
  unfold autosense
  rw [lowByte_append, highByte_append, if_pos ⟨hlo, hhi⟩]

theorem autosense_neither (zero : AutosenseZero) (hlo : lo = 0) (hhi : hi = 0) :
    autosense zero (hi ++ lo) = match zero with | .writeZero => some 0x00 | .drop => none := by
  subst hlo hhi
  cases zero <;> rfl

end

theorem readLanes_b16Lower (b : Byte) : readLanes .b16Lower b = 0x00#8 ++ b :=
  (BitVec.setWidth_eq_append (by decide)).trans rfl

/-- Settles O11: a word is its two bytes, and autosense is read off them case by case. -/
theorem busLanes : Obligations.BusLanes := by
  intro zero lo hi
  exact ⟨lowByte_append hi lo, highByte_append hi lo, congrArg some (lowByte_append hi lo),
    congrArg some (highByte_append hi lo), autosense_low zero, autosense_high zero, autosense_both zero,
    fun hlo hhi => ⟨autosense_neither .writeZero hlo hhi, autosense_neither .drop hlo hhi⟩, readLanes_b16Lower lo, rfl, rfl⟩

/-! ### The rows of a family are one access (30 R80) -/

section
variable {i : Instr} {c : Int} {off : Nat}

theorem exec_of_mem_byteReads (h : i ∈ byteReads c off) : ∃ op, ∀ s, exec i s = busRead op (regRead op) c off s := by
  simp only [byteReads, List.mem_cons, List.not_mem_nil, or_false] at h
  rcases h with rfl | rfl | rfl | rfl | rfl | rfl
  · exact ⟨.ddrA, fun _ => rfl⟩
  · exact ⟨.dataA, fun _ => rfl⟩
  · exact ⟨.ctlA, fun _ => rfl⟩
  · exact ⟨.ddrB, fun _ => rfl⟩
  · exact ⟨.dataB, fun _ => rfl⟩
  · exact ⟨.ctlB, fun _ => rfl⟩

theorem exec_of_mem_byteWrites {data : Byte} (h : i ∈ byteWrites c off data) :
    ∃ op, ∀ s, exec i s = busWrite op (regWrite op) c off data s := by
  simp only [byteWrites, List.mem_cons, List.not_mem_nil, or_false] at h
  rcases h with rfl | rfl | rfl | rfl | rfl | rfl
  · exact ⟨.ddrA, fun _ => rfl⟩
  · exact ⟨.dataA, fun _ => rfl⟩
  · exact ⟨.ctlA, fun _ => rfl⟩
  · exact ⟨.ddrB, fun _ => rfl⟩
  · exact ⟨.dataB, fun _ => rfl⟩
  · exact ⟨.ctlB, fun _ => rfl⟩

theorem exec_of_mem_wordReads (h : i ∈ wordReads c off) :
    ∃ lane, ∀ s, exec i s = busRead16 lane (readLanes lane) c off s := by
  simp only [wordReads, List.mem_cons, List.not_mem_nil, or_false] at h
  rcases h with rfl | rfl | rfl
  · exact ⟨.b16Lower, fun _ => rfl⟩
  · exact ⟨.b16Upper, fun _ => rfl⟩
  · exact ⟨.b16Auto, fun _ => rfl⟩

theorem exec_of_mem_wordWrites {w : Word16} (h : i ∈ wordWrites c off w) :
    ∃ lane, ∀ s, exec i s = busWrite16 lane (fun zero w => writeLane zero lane w) c off w s := by
  simp only [wordWrites, List.mem_cons, List.not_mem_nil, or_false] at h
  rcases h with rfl | rfl | rfl
  · exact ⟨.b16Lower, fun _ => rfl⟩
  · exact ⟨.b16Upper, fun _ => rfl⟩
  · exact ⟨.b16Auto, fun _ => rfl⟩

theorem exec_of_mem_lineSamples {v : Bool} (h : i ∈ lineSamples c v) : ∃ l, ∀ s, exec i s = presentLine c l v s := by
  simp only [lineSamples, List.mem_cons, List.not_mem_nil, or_false] at h
  rcases h with rfl | rfl | rfl | rfl
  · exact ⟨.ca1, fun _ => rfl⟩
  · exact ⟨.ca2, fun _ => rfl⟩
  · exact ⟨.cb1, fun _ => rfl⟩
  · exact ⟨.cb2, fun _ => rfl⟩

end

/-! ### No chip (20 R63) -/

section
variable {s : State} {c : Int} {off : Nat}

theorem indexIn_eq_none {len : Nat} (h : c < 0 ∨ (len : Int) ≤ c) : indexIn len c = none := by
  rw [Option.eq_none_iff_forall_ne_some]
  intro n hn
  obtain ⟨rfl, hlt⟩ := indexIn_eq_some.1 hn
  omega

theorem busRead_absent (op : ReadOp) (own : Nat → State → ReadAnswer) (hc : s.chipIndex c = none) :
    busRead op own c off s = .next (drawOpenBus s) := by
  simp only [busRead, hc]

theorem busWrite_absent (op : WriteOp) (own : Nat → Byte → State → Answer) (data : Byte) (hc : s.chipIndex c = none) :
    busWrite op own c off data s = .next s := by
  simp only [busWrite, hc]

theorem busRead16_absent (lane : BusMode) (place : Byte → Word16) (hc : s.chipIndex c = none) :
    busRead16 lane place c off s = .next (drawOpenBusWord s) := by
  simp only [busRead16, hc]

theorem busWrite16_absent (lane : BusMode) (pick : AutosenseZero → Word16 → Option Byte) (w : Word16)
    (hc : s.chipIndex c = none) : busWrite16 lane pick c off w s = .next s := by
  simp only [busWrite16, hc]

end

/-- Settles O19: an index outside the array names no chip, and every access path asks for the chip first. -/
theorem outOfRangeChip : Obligations.OutOfRangeChip := by
  intro s c hout
  have hc : s.chipIndex c = none := indexIn_eq_none hout
  refine ⟨fun off i hi => ?_, fun off i hi => ?_, fun off data i hi => ?_, fun off w i hi => ?_, fun v i hi => ?_,
    fun m f => ?_⟩
  · obtain ⟨op, hexec⟩ := exec_of_mem_byteReads hi
    rw [hexec, busRead_absent op _ hc, drawOpenBus]
  · obtain ⟨lane, hexec⟩ := exec_of_mem_wordReads hi
    rw [hexec, busRead16_absent lane _ hc, drawOpenBusWord]
  · obtain ⟨op, hexec⟩ := exec_of_mem_byteWrites hi
    rw [hexec, busWrite_absent op _ data hc]
  · obtain ⟨lane, hexec⟩ := exec_of_mem_wordWrites hi
    rw [hexec, busWrite16_absent lane _ w hc]
  · obtain ⟨l, hexec⟩ := exec_of_mem_lineSamples hi
    rw [hexec]
    exact deliverLine_none _ _ c l v s hc
  · show execConfigure c m f s = _
    simp only [execConfigure, hc]

/-! ### The wrong width (20 R71) -/

section
variable {s : State} {c : Int} {off n : Nat} (hc : s.chipIndex c = some n)
include hc

theorem busRead_wide (op : ReadOp) (own : Nat → State → ReadAnswer) (hb : (s.chip n).addressing.bus ≠ .b8) :
    busRead op own c off s = .refused .widthMismatch := by
  simp only [busRead, hc, if_neg hb]

theorem busWrite_wide (op : WriteOp) (own : Nat → Byte → State → Answer) (data : Byte)
    (hb : (s.chip n).addressing.bus ≠ .b8) : busWrite op own c off data s = .refused .widthMismatch := by
  simp only [busWrite, hc, if_neg hb]

theorem busRead16_narrow (lane : BusMode) (place : Byte → Word16) (hb : (s.chip n).addressing.bus = .b8) :
    busRead16 lane place c off s = .refused .widthMismatch := by
  simp only [busRead16, hc, if_pos hb]

theorem busWrite16_narrow (lane : BusMode) (pick : AutosenseZero → Word16 → Option Byte) (w : Word16)
    (hb : (s.chip n).addressing.bus = .b8) : busWrite16 lane pick c off w s = .refused .widthMismatch := by
  simp only [busWrite16, hc, if_pos hb]

end

/-- Settles O20: every row of a family asks for the width before anything else. -/
theorem widthMismatchRefused : Obligations.WidthMismatchRefused := by
  intro s c off n hc
  refine ⟨fun hb => ⟨fun i hi => ?_, fun data i hi => ?_⟩, fun hb => ⟨fun i hi => ?_, fun w i hi => ?_⟩⟩
  · obtain ⟨op, hexec⟩ := exec_of_mem_byteReads hi
    rw [hexec, busRead_wide hc op _ hb]
  · obtain ⟨op, hexec⟩ := exec_of_mem_byteWrites hi
    rw [hexec, busWrite_wide hc op _ data hb]
  · obtain ⟨lane, hexec⟩ := exec_of_mem_wordReads hi
    rw [hexec, busRead16_narrow hc lane _ hb]
  · obtain ⟨lane, hexec⟩ := exec_of_mem_wordWrites hi
    rw [hexec, busWrite16_narrow hc lane _ w hb]

/-! ### The right width: the key selects the register operation (20 R62, 30 R81) -/

section
variable {s : State} {c : Int} {off n : Nat}

/-- A row of family 1 that reads: on the lane of its mode, and on the chip's where that is another (log 4). -/
theorem busRead16_of_chip (lane : BusMode) (hc : s.chipIndex c = some n) (hb : (s.chip n).addressing.bus ≠ .b8) :
    busRead16 lane (readLanes lane) c off s = andThen (readSlot n off s) (giveLanes (s.chip n).addressing.bus) := by
  simp only [busRead16, hc, if_neg hb]
  congr 1
  funext r
  split
  · next e => rw [giveLanes, e]
  · rfl

theorem busWrite16_of_chip (lane : BusMode) (w : Word16) (hc : s.chipIndex c = some n) (hb : (s.chip n).addressing.bus ≠ .b8) :
    busWrite16 lane (fun zero w => writeLane zero lane w) c off w s =
      match writeLane s.autosenseZero (s.chip n).addressing.bus w with
      | none => .next s
      | some d => writeSlot n off d s := by
  have hlane : (if (s.chip n).addressing.bus = lane then writeLane s.autosenseZero lane w
      else writeLane s.autosenseZero (s.chip n).addressing.bus w) =
        writeLane s.autosenseZero (s.chip n).addressing.bus w := by
    split
    · next e => rw [e]
    · rfl
  cases hd : writeLane s.autosenseZero (s.chip n).addressing.bus w with
  | none => simp only [busWrite16, hc, if_neg hb, hlane.trans hd]
  | some d => simp only [busWrite16, hc, if_neg hb, hlane.trans hd]

theorem readKey_dataSlot (p : PortId) (select : Bool) :
    readKey (dataSlotOf p) select = if select then dataReadOf p else ddrReadOf p := by
  cases p <;> cases select <;> rfl

theorem readKey_ctlSlot (p : PortId) (select : Bool) : readKey (ctlSlotOf p) select = ctlReadOf p := by
  cases p <;> rfl

theorem writeKey_dataSlot (p : PortId) (select : Bool) :
    writeKey (dataSlotOf p) select = if select then dataWriteOf p else ddrWriteOf p := by
  cases p <;> cases select <;> rfl

theorem writeKey_ctlSlot (p : PortId) (select : Bool) : writeKey (ctlSlotOf p) select = ctlWriteOf p := by
  cases p <;> rfl

end

/-- Settles O12: the keys slot by slot, and the rows of each family as the one access they are. -/
theorem accessFollowsKey : Obligations.AccessFollowsKey := by
  intro s c off n hc
  refine ⟨?_, ?_, fun hb => ⟨fun i hi => ?_, fun data i hi => ?_⟩, fun hb => ⟨fun i hi => ?_, fun w i hi => ?_⟩⟩
  · unfold State.readKeyAt State.slot
    cases slotAt (s.chip n).addressing off with
    | dataA => exact readKey_dataSlot .a _
    | ctlA => exact readKey_ctlSlot .a _
    | dataB => exact readKey_dataSlot .b _
    | ctlB => exact readKey_ctlSlot .b _
  · unfold State.writeKeyAt State.slot
    cases slotAt (s.chip n).addressing off with
    | dataA => exact writeKey_dataSlot .a _
    | ctlA => exact writeKey_ctlSlot .a _
    | dataB => exact writeKey_dataSlot .b _
    | ctlB => exact writeKey_ctlSlot .b _
  · obtain ⟨op, hexec⟩ := exec_of_mem_byteReads hi
    exact (hexec s).trans (busRead_of_chip op hc hb)
  · obtain ⟨op, hexec⟩ := exec_of_mem_byteWrites hi
    exact (hexec s).trans (busWrite_of_chip op data hc hb)
  · obtain ⟨lane, hexec⟩ := exec_of_mem_wordReads hi
    exact (hexec s).trans (busRead16_of_chip lane hc hb)
  · obtain ⟨lane, hexec⟩ := exec_of_mem_wordWrites hi
    exact (hexec s).trans (busWrite16_of_chip lane w hc hb)

end Sys2Proof.Machine

/-! PROOFS. What a bus access leaves in its own port, exactly, under any wiring: each shared operation is one write of the port
and a cascade that leaves the chip alone (`Cascade [n] (s.setPort n p f) t`). -/

namespace Sys2Proof.Machine

/-! ### A write of a port of the chip in progress, and a cascade -/

section
variable {n : Nat} {p : PortId} {s t u : State} {f g k : Port → Port}

theorem Cascade.port (h : Cascade [n] s t) (p : PortId) : t.port n p = s.port n p := by
  rw [State.port, h.busy n (List.mem_singleton.2 rfl), State.port]

theorem Cascade.pins {busy : List Nat} (h : Cascade busy s t) (m : Nat) (p : PortId) : t.pins m p = s.pins m p :=
  BindingsKept.pins h.fixed m p

/-- The port that was written before the cascade. -/
theorem Cascade.written (h : Cascade [n] (s.setPort n p f) t) (hn : n < s.chips.length) : t.port n p = f (s.port n p) :=
  (h.port p).trans (port_setPort_same s p f hn)

/-- What a cascade does not look at may be written before it as well as after it. -/
theorem Cascade.setPort (h : Cascade [n] s t) (p : PortId) (f : Port → Port) :
    Cascade [n] (s.setPort n p f) (t.setPort n p f) where
  chips_length := by simpa using h.chips_length
  cpus_length := h.cpus_length
  now := h.now
  autosenseZero := h.autosenseZero
  routes := h.routes
  inbox := h.inbox
  answers := h.answers
  draws := h.draws
  result := h.result
  trace := h.trace
  busy := fun m hm => by
    obtain rfl : m = n := List.mem_singleton.1 hm
    have hchip : t.chip m = s.chip m := h.busy m hm
    by_cases hl : m < s.chips.length
    · rw [chip_setPort_same s p f hl, chip_setPort_same t p f (h.chips_length.symm ▸ hl), hchip]
    · rw [setPort_out_of_range hl, setPort_out_of_range (h.chips_length.symm ▸ hl), hchip]
  fixed := fun m => by
    obtain ⟨hintf, haddr, hconf⟩ := h.fixed m
    obtain ⟨hintf_s, haddr_s, hconf_s⟩ := chip_setPort_fixed s n m p f
    obtain ⟨hintf_t, haddr_t, hconf_t⟩ := chip_setPort_fixed t n m p f
    exact ⟨(hintf_t.trans hintf).trans hintf_s.symm, (haddr_t.trans haddr).trans haddr_s.symm,
      (hconf_t.trans hconf).trans hconf_s.symm⟩
  kept := fun m p' => by
    rw [port_setPort, port_setPort, h.chips_length]
    split
    · next e => obtain ⟨rfl, _⟩ := e; rw [h.port p']; exact .refl _
    · exact h.kept m p'

/-- Two writes of the port, each with its cascade, are one write with a cascade. -/
theorem Cascade.then_write (h : Cascade [n] (s.setPort n p f) u) (h' : Cascade [n] (u.setPort n p g) t) :
    Cascade [n] (s.setPort n p (g ∘ f)) t := by
  rw [← setPort_setPort]
  exact (h.setPort p g).trans h'

theorem Cascade.congr_write (h : Cascade [n] (s.setPort n p f) t) (hk : f (s.port n p) = k (s.port n p)) :
    Cascade [n] (s.setPort n p k) t := setPort_congr hk ▸ h

end

/-! ### The aggregate, C2, the line samples -/

/-- A port with its aggregate stored (42 R141). -/
def storeAggregate (q : Port) : Port := { q with irqState := aggregate q }

/-- A port after a strobe in strobe mode, and as it was in the other modes (40 R104 step 4, R111 step 3). -/
def strobed (q : Port) : Port := if strobes q.ctl then afterStrobe q else q

section
variable {drive : Driver} {n : Nat} (hd : CascadeDriver [n] drive) {p : PortId} {s t : State}
include hd

theorem updateIrq_write (h : updateIrq drive n p s = .next t) : Cascade [n] (s.setPort n p storeAggregate) t :=
  (updateIrq_cascade hd h).congr_write rfl

theorem moveC2_write {v : Bool} (h : moveC2 drive n p v s = .next t) :
    Cascade [n] (s.setPort n p fun q => { q with outC2 := v }) t := by
  obtain ⟨u, hu, rfl⟩ := moveC2_cascade hd h
  exact hu.setPort p _

theorem strobe_write (hn : n < s.chips.length) (h : strobe drive n p s = .next t) :
    Cascade [n] (s.setPort n p afterStrobe) t := by
  obtain ⟨u, hu, ht⟩ := andThen_eq_next.1 h
  have hlow := moveC2_write hd hu
  rw [hlow.written hn] at ht
  split at ht
  · next he =>
    obtain ⟨w, hw, ht⟩ := andThen_eq_next.1 ht
    cases ht
    exact (hlow.then_write ((hd _ _ _ _ hw).setPort p _)).congr_write (by simp only [Function.comp_apply, afterStrobe, he])
  · next he =>
    cases ht
    exact hlow.congr_write (by simp only [afterStrobe, eq_false_of_ne_true he])

/-- The flag and the aggregate, the restore, then the stored sample (41 R131). -/
theorem sampleC1_write (hn : n < s.chips.length) {v : Bool} (h : sampleC1 drive n p v s = .next t) :
    Cascade [n] (s.setPort n p (afterC1 v)) t := by
  obtain ⟨u, hu, ht⟩ := andThen_eq_next.1 h
  cases ht
  split at hu
  · next harmed =>
    obtain ⟨w, hw, hu⟩ := andThen_eq_next.1 hu
    have hraised := updateIrq_write hd hw
    rw [setPort_setPort] at hraised
    rw [hraised.written hn] at hu
    split at hu
    · next hr =>
      have hr : restoredByC1 (s.port n p).ctl = true := hr
      refine ((hraised.then_write (moveC2_write hd hu)).then_write (.refl _ _)).congr_write ?_
      simp only [Function.comp_apply, storeAggregate, afterC1, harmed, hr, if_true, Bool.true_or]
    · next hr =>
      have hr : restoredByC1 (s.port n p).ctl = false := eq_false_of_ne_true hr
      cases hu
      refine (hraised.then_write (.refl _ _)).congr_write ?_
      simp only [Function.comp_apply, storeAggregate, afterC1, harmed, hr, if_true, Bool.false_or]
  · next harmed =>
    cases hu
    exact (Cascade.refl _ _).congr_write (by simp only [afterC1, if_neg harmed])

theorem sampleC2_write {v : Bool} (h : sampleC2 drive n p v s = .next t) :
    Cascade [n] (s.setPort n p (afterC2 v)) t := by
  obtain ⟨u, hu, ht⟩ := andThen_eq_next.1 h
  cases ht
  split at hu
  · next harmed =>
    have hraised := updateIrq_write hd hu
    rw [setPort_setPort] at hraised
    refine (hraised.then_write (.refl _ _)).congr_write ?_
    simp only [Function.comp_apply, storeAggregate, afterC2, harmed, if_true]
  · next harmed =>
    cases hu
    exact (Cascade.refl _ _).congr_write (by simp only [afterC2, if_neg harmed])

end

/-! ### The register operations -/

theorem afterSampleOf_eq (s : State) (b : Option Nat) : ∃ a d, s.afterSampleOf b = { s with answers := a, draws := d } := by
  cases b with
  | none => exact ⟨_, _, rfl⟩
  | some k => exact afterSample_eq s

@[simp] theorem afterSampleOf_chips (s : State) (b : Option Nat) : (s.afterSampleOf b).chips = s.chips := by
  obtain ⟨a, d, h⟩ := afterSampleOf_eq s b
  rw [h]

@[simp] theorem port_afterSampleOf (s : State) (b : Option Nat) (n : Nat) (p : PortId) :
    (s.afterSampleOf b).port n p = s.port n p := by
  simp only [State.port, State.chip, afterSampleOf_chips]

@[simp] theorem pins_afterSampleOf (s : State) (b : Option Nat) (n : Nat) (p : PortId) :
    (s.afterSampleOf b).pins n p = s.pins n p := by
  simp only [State.pins, State.chip, afterSampleOf_chips]

/-- The next answer is fixed by what the environment has chosen and by what has been drawn (46 R191). -/
theorem Cascade.sampled {busy : List Nat} {s t : State} (h : Cascade busy s t) : t.sampled = s.sampled := by
  simp only [State.sampled, h.answers, h.draws]

/-- The state of a data read once its flags are cleared, before any drive (40 R104 steps 1 to 3). -/
def State.dataCleared (s : State) (n : Nat) (p : PortId) : State :=
  (s.afterSampleOf (s.pins n p).inPort).setPort n p fun q =>
    afterClear { q with inp := s.latched (s.pins n p).inPort (s.port n p).inp }

/-- On port A the strobe comes on top (40 R104 step 4). -/
theorem dataLatched_a (s : State) (n : Nat) : s.dataLatched n .a = (s.dataCleared n .a).setPort n .a strobed := by
  rw [State.dataCleared, setPort_setPort]
  exact setPort_congr rfl

theorem dataLatched_b (s : State) (n : Nat) : s.dataLatched n .b = s.dataCleared n .b := rfl

/-- The port with what a sample of a bound line does to it; as it was where no line is bound (40 R108). -/
def sampledIf (b : Option Nat) (f : Port → Port) (q : Port) : Port :=
  match b with
  | none => q
  | some _ => f q

theorem portSampled_eq (s : State) (n : Nat) (p : PortId) :
    s.portSampled n p =
      sampledIf (s.pins n p).inC2 (afterC2 ((s.afterSampleOf (s.pins n p).inC1).sampled != 0))
        (sampledIf (s.pins n p).inC1 (afterC1 (s.sampled != 0)) (s.port n p)) := rfl

section
variable {n : Nat} {p : PortId} {s t : State}

theorem strobeIfArmed_write (hn : n < s.chips.length) (h : strobeIfArmed n p s = .next t) :
    Cascade [n] (s.setPort n p strobed) t := by
  unfold strobeIfArmed at h
  split at h
  · next hs => exact (strobe_write (driveFrom_cascade n s) hn h).congr_write (by rw [strobed, if_pos hs])
  · next hs =>
    cases h
    rw [setPort_eq_self (by rw [strobed, if_neg hs])]
    exact .refl _ _

theorem driveOutput_cascade (h : driveOutput n p s = .next t) : Cascade [n] s t := by
  unfold driveOutput at h
  simp only at h
  split at h
  · cases h; exact .refl _ _
  · exact driveFrom_cascade n s _ _ _ _ h

theorem portMix_latchInput (hn : n < s.chips.length) : portMix ((latchInput n p s).port n p) = s.dataByte n p := by
  rw [latchInput_eq, port_setPort_same _ _ _ (by simpa using hn), port_afterSampleOf]
  rfl

theorem readDataCommon_write {b : Byte} (hn : n < s.chips.length) (h : readDataCommon n p s = .next (t, b)) :
    Cascade [n] (s.dataCleared n p) t ∧ b = s.dataByte n p := by
  obtain ⟨u, hu, ht⟩ := andThen_eq_next.1 h
  cases ht
  have hcleared := updateIrq_write (driveFrom_cascade n _) hu
  rw [latchInput_eq, setPort_setPort, setPort_setPort] at hcleared
  exact ⟨hcleared, portMix_latchInput hn⟩

theorem regReadData_write {b : Byte} (hn : n < s.chips.length) (h : regRead (dataReadOf p) n s = .next (t, b)) :
    Cascade [n] (s.dataLatched n p) t ∧ b = s.dataByte n p := by
  cases p with
  | a =>
    obtain ⟨⟨u, b'⟩, hu, h⟩ := andThen_eq_next.1 h
    obtain ⟨w, hw, ht⟩ := andThen_eq_next.1 h
    cases ht
    obtain ⟨hcleared, hb⟩ := readDataCommon_write hn hu
    have hlen : u.chips.length = s.chips.length := by simpa [State.dataCleared] using hcleared.chips_length
    refine ⟨?_, hb⟩
    rw [dataLatched_a]
    exact (hcleared.setPort .a strobed).trans (strobeIfArmed_write (hlen.symm ▸ hn) hw)
  | b => exact readDataCommon_write hn h

theorem sampleBound_c1_write {b : Option Nat} (hn : n < s.chips.length) (h : sampleBound n (c1Line p) b s = .next t) :
    Cascade [n] ((s.afterSampleOf b).setPort n p (sampledIf b (afterC1 (s.sampled != 0)))) t := by
  cases b with
  | none =>
    cases h
    rw [setPort_eq_self rfl]
    exact .refl _ _
  | some k =>
    rw [sampleBound_some] at h
    have h : sampleC1 (driveFrom n s.afterSample) n p (s.sampled != 0) s.afterSample = .next t := by cases p <;> exact h
    exact sampleC1_write (driveFrom_cascade n _) (by simpa using hn) h

theorem sampleBound_c2_write {b : Option Nat} (h : sampleBound n (c2Line p) b s = .next t) :
    Cascade [n] ((s.afterSampleOf b).setPort n p (sampledIf b (afterC2 (s.sampled != 0)))) t := by
  cases b with
  | none =>
    cases h
    rw [setPort_eq_self rfl]
    exact .refl _ _
  | some k =>
    rw [sampleBound_some] at h
    have h : sampleC2 (driveFrom n s.afterSample) n p (s.sampled != 0) s.afterSample = .next t := by cases p <;> exact h
    exact sampleC2_write (driveFrom_cascade n _) h

/-- The drives of the first sample leave the bindings and the environment's answers, so the second is the one that the rule
names. -/
theorem regReadCtl_write {b : Byte} (hn : n < s.chips.length) (h : regRead (ctlReadOf p) n s = .next (t, b)) :
    t.port n p = s.portSampled n p ∧ b = ctlView (s.portSampled n p) := by
  rw [regReadCtl_eq] at h
  obtain ⟨u, hu, h⟩ := andThen_eq_next.1 h
  obtain ⟨w, hw, ht⟩ := andThen_eq_next.1 h
  cases ht
  have hfirst := sampleBound_c1_write hn hu
  have hlen : u.chips.length = s.chips.length := by simpa using hfirst.chips_length
  have hpins : u.pins n p = s.pins n p := by simpa using hfirst.pins n p
  have hanswer : u.sampled = (s.afterSampleOf (s.pins n p).inC1).sampled := hfirst.sampled
  have hport : t.port n p = s.portSampled n p := by
    rw [(sampleBound_c2_write hw).written (by simpa [hlen] using hn), port_afterSampleOf,
      hfirst.written (by simpa using hn), port_afterSampleOf, hpins, hanswer, portSampled_eq]
  exact ⟨hport, by rw [hport]⟩

theorem writeOut_write {d : Byte} (h : writeOut n p d s = .next t) :
    Cascade [n] (s.setPort n p fun q => { q with out := d }) t := driveOutput_cascade h

theorem regWriteData_write {d : Byte} (hn : n < s.chips.length) (h : regWrite (dataWriteOf p) n d s = .next t) :
    Cascade [n] (s.setPort n p (afterDataWrite p d)) t := by
  cases p with
  | a => exact writeOut_write h
  | b =>
    obtain ⟨u, hu, ht⟩ := andThen_eq_next.1 h
    have hstored := writeOut_write hu
    have hlen : u.chips.length = s.chips.length := by simpa using hstored.chips_length
    exact (hstored.then_write (strobeIfArmed_write (hlen.symm ▸ hn) ht)).congr_write rfl

theorem regWriteDdr_write {d : Byte} (h : regWrite (ddrWriteOf p) n d s = .next t) :
    Cascade [n] (s.setPort n p fun q => { q with ddr := d }) t := by
  have h : writeDdr n p d s = .next t := by cases p <;> exact h
  unfold writeDdr at h
  split at h
  · next hsame =>
    cases h
    rw [setPort_eq_self (by rw [hsame])]
    exact .refl _ _
  · exact driveOutput_cascade h

/-- C2 moves first if the new value makes it an output, then the value and the aggregate are stored (40 R109). -/
theorem regWriteCtl_write {d : Byte} (h : regWrite (ctlWriteOf p) n d s = .next t) :
    Cascade [n] (s.setPort n p (afterCtlWrite d)) t := by
  have h : writeCtl n p d s = .next t := by cases p <;> exact h
  obtain ⟨u, hu, ht⟩ := andThen_eq_next.1 h
  have hstored := updateIrq_write (driveFrom_cascade n _) ht
  rw [setPort_setPort] at hstored
  split at hu
  · next hout =>
    refine ((moveC2_write (driveFrom_cascade n s) hu).then_write hstored).congr_write ?_
    simp only [Function.comp_apply, storeAggregate, afterCtlWrite, hout, if_true]
  · next hout =>
    cases hu
    refine hstored.congr_write ?_
    simp only [Function.comp_apply, storeAggregate, afterCtlWrite, if_neg hout]

end

/-! ### Every bus access, by its key -/

section
variable {s t : State} {i : Instr} {n : Nat} {p : PortId}

theorem writeAccess_op (x : Action) : writeAccess x.op = none := by
  cases x with
  | line c l v => cases l <;> rfl
  | assertLine | clearLine | pulse | fire | sched => rfl

/-- An operation that writes register `op` and completes has performed that write with the byte it brings, or has dropped its
word. -/
theorem ExecStep.of_writes {op : WriteOp} (h : ExecStep s i t) (hi : s.writes i n op) :
    (s.byteWritten n i = none ∧ t = s) ∨ ∃ d, s.byteWritten n i = some d ∧ regWrite op n d s = .next t := by
  obtain ⟨c, off, ha, hc, hkey⟩ := hi
  cases h with
  | access h =>
    cases h with
    | readAbsent r ha' => cases (writeAccess_of_readAccess ha').symm.trans ha
    | read ha' => cases (writeAccess_of_readAccess ha').symm.trans ha
    | writeNothing ha' hd =>
      cases ha.symm.trans ha'
      exact .inl ⟨hd n hc, rfl⟩
    | write ha' hc' hd hu =>
      cases ha.symm.trans ha'
      cases hc.symm.trans hc'
      exact .inr ⟨_, hd, hkey ▸ hu⟩
    | line | plain => rw [writeAccess_op] at ha; cases ha
  | yieldOn | yieldT | adv | expire | wake | take | configureAbsent | configure | resetAll | unconfigureAll => cases ha

theorem State.reads.lt {op : ReadOp} (h : s.reads i n op) : n < s.chips.length := by
  obtain ⟨_, _, _, hc, _⟩ := h
  exact indexIn_lt hc

theorem State.writes.lt {op : WriteOp} (h : s.writes i n op) : n < s.chips.length := by
  obtain ⟨_, _, _, hc, _⟩ := h
  exact indexIn_lt hc

/-- A write that brings a byte has performed the register operation with it. -/
theorem ExecStep.regWrite_of_writes {op : WriteOp} {data : Byte} (h : ExecStep s i t) (hd : s.byteWritten n i = some data)
    (hi : s.writes i n op) : regWrite op n data s = .next t := by
  rcases h.of_writes hi with ⟨hnone, _⟩ | ⟨d, hsome, hw⟩
  · cases hd.symm.trans hnone
  · cases hd.symm.trans hsome
    exact hw

theorem port_dataLatched (hn : n < s.chips.length) :
    (s.dataLatched n p).port n p = afterDataRead p (s.latched (s.pins n p).inPort (s.port n p).inp) (s.port n p) := by
  unfold State.dataLatched
  rw [port_setPort_same _ _ _ (by simpa using hn), port_afterSampleOf]

end

/-- Settles O25: the register operation that the key names is one write of the port, and its drives leave the chip alone. -/
theorem ownPortUnderAnyWiring : Obligations.OwnPortUnderAnyWiring := by
  intro s t i n p h
  have hstep := ExecStep.of_exec h
  refine ⟨fun hr => ?_, fun hr => ?_, fun hr => ?_, fun data hd => ⟨fun hw => ?_, fun hw => ?_, fun hw => ?_⟩,
    fun op hw hnone => ?_⟩
  · obtain ⟨u, b, hu, rfl⟩ := hstep.of_reads hr
    rw [regReadDdr_eq] at hu
    cases hu
    exact ⟨rfl, rfl⟩
  · obtain ⟨u, b, hu, rfl⟩ := hstep.of_reads hr
    obtain ⟨hcascade, rfl⟩ := regReadData_write hr.lt hu
    exact ⟨(hcascade.port p).trans (port_dataLatched hr.lt), rfl⟩
  · obtain ⟨u, b, hu, rfl⟩ := hstep.of_reads hr
    obtain ⟨hport, rfl⟩ := regReadCtl_write hr.lt hu
    exact ⟨hport, rfl⟩
  · exact (regWriteData_write hw.lt (hstep.regWrite_of_writes hd hw)).written hw.lt
  · exact (regWriteDdr_write (hstep.regWrite_of_writes hd hw)).written hw.lt
  · exact (regWriteCtl_write (hstep.regWrite_of_writes hd hw)).written hw.lt
  · rcases hstep.of_writes hw with ⟨_, ht⟩ | ⟨d, hsome, _⟩
    · exact ht
    · cases hnone.symm.trans hsome

end Sys2Proof.Machine

/-! PROOFS. The register operations exactly, under a wiring without line routes, and from them the 16-bit accesses of every
slot. -/

namespace Sys2Proof.Machine

/-! ### Emission leaves the chips -/

@[simp] theorem port_emitAll (s : State) (es : List Event) (n : Nat) (p : PortId) : (s.emitAll es).port n p = s.port n p := by
  simp only [State.port, State.chip, emitAll_chips]

@[simp] theorem pins_emitAll (s : State) (es : List Event) (n : Nat) (p : PortId) : (s.emitAll es).pins n p = s.pins n p := by
  simp only [State.pins, State.chip, emitAll_chips]

theorem irqEvent_setPort (old new : Bool) (b : Option Nat) (s : State) (n : Nat) (p : PortId) {f : Port → Port}
    (hf : ∀ q, (f q).irqState = q.irqState) : irqEvent old new b (s.setPort n p f).chips = irqEvent old new b s.chips := by
  cases b with
  | none => rfl
  | some k => simp only [irqEvent, wireLevel_setPort k n p f s hf]

/-- `UpdateIrq` after a write of its port and the events of that write: the aggregate joins the write, its event the
others (42 R141). -/
theorem updateIrq_emits {drive : Driver} (hd : PlainDriver drive) {n : Nat} {p : PortId} {s : State} (hn : n < s.chips.length)
    (hs : s.noLineRoutes = true) (f : Port → Port) (es : List Event) :
    updateIrq drive n p ((s.setPort n p f).emitAll es) =
      .next ((s.setPort n p (storeAggregate ∘ f)).emitAll
        (es ++ irqEvent (f (s.port n p)).irqState (aggregate (f (s.port n p))) (s.pins n p).irq
          (s.setPort n p (storeAggregate ∘ f)).chips)) := by
  have h := updateIrq_plain hd (n := n) (p := p) (s := (s.setPort n p f).emitAll es) (by simpa using hs)
  have hstore : ∀ u : State,
      (u.setPort n p fun q => { q with irqState := aggregate (u.port n p) }) = u.setPort n p storeAggregate :=
    fun u => setPort_congr rfl
  simp only [hstore] at h
  rw [← emitAll_setPort, setPort_setPort] at h
  rw [h, port_emitAll, pins_emitAll, port_setPort_same s p f hn, pins_setPort, emitAll_chips, ← emitAll_append]

/-! ### The data read and the data write (40 R104 to R106, R111) -/

/-- The drive events of a strobe in strobe mode; none in the other modes (40 R104 step 4, R111 step 3). -/
def strobedEvents (b : Option Nat) (q : Port) : List Event := if strobes q.ctl then strobeEvents b q else []

theorem strobed_irqState (q : Port) : (strobed q).irqState = q.irqState := by
  unfold strobed
  split <;> rfl

section
variable {n : Nat} {p : PortId} {s : State}

@[simp] theorem noLineRoutes_afterSampleOf (b : Option Nat) : (s.afterSampleOf b).noLineRoutes = s.noLineRoutes := by
  obtain ⟨a, d, h⟩ := afterSampleOf_eq s b
  rw [h]
  rfl

@[simp] theorem noLineRoutes_dataCleared : (s.dataCleared n p).noLineRoutes = s.noLineRoutes := by
  rw [State.dataCleared, noLineRoutes_setPort, noLineRoutes_afterSampleOf]

theorem port_dataCleared (hn : n < s.chips.length) :
    (s.dataCleared n p).port n p =
      afterClear { s.port n p with inp := s.latched (s.pins n p).inPort (s.port n p).inp } := by
  rw [State.dataCleared, port_setPort_same _ _ _ (by simpa using hn), port_afterSampleOf]

@[simp] theorem pins_dataCleared : (s.dataCleared n p).pins n p = s.pins n p := by
  rw [State.dataCleared, pins_setPort, pins_afterSampleOf]

theorem strobeIfArmed_plain (hn : n < s.chips.length) (hs : s.noLineRoutes = true) :
    strobeIfArmed n p s =
      .next ((s.setPort n p strobed).emitAll (strobedEvents (s.pins n p).outC2 (s.port n p))) := by
  unfold strobeIfArmed strobedEvents
  split
  · next hstrobe =>
    rw [strobe_plain (driveFrom_plain n s) hn hs, setPort_congr (g := strobed) (by rw [strobed, if_pos hstrobe])]
  · next hstrobe => rw [setPort_eq_self (by rw [strobed, if_neg hstrobe]), emitAll_nil]

theorem driveOutput_plain (hs : s.noLineRoutes = true) :
    driveOutput n p s = .next (s.emitAll (outputEvents (s.pins n p).outPort (s.port n p))) := by
  unfold driveOutput outputEvents
  simp only
  split
  · rfl
  · exact driveFrom_plain n s _ _ _ hs

theorem dataReadEvents_a :
    s.dataReadEvents n .a =
      irqEvent (s.port n .a).irqState false (s.pins n .a).irq (s.dataCleared n .a).chips ++
        strobedEvents (s.pins n .a).outC2 (s.port n .a) := by
  show irqEvent _ _ _ (s.dataLatched n .a).chips ++ _ = _
  rw [dataLatched_a, irqEvent_setPort _ _ _ _ _ _ strobed_irqState]
  rfl

theorem dataReadEvents_b :
    s.dataReadEvents n .b = irqEvent (s.port n .b).irqState false (s.pins n .b).irq (s.dataCleared n .b).chips :=
  List.append_nil _

theorem readDataCommon_plain (hn : n < s.chips.length) (hs : s.noLineRoutes = true) :
    readDataCommon n p s =
      .next ((s.dataCleared n p).emitAll
        (irqEvent (s.port n p).irqState false (s.pins n p).irq (s.dataCleared n p).chips), s.dataByte n p) := by
  have hclear := updateIrq_emits (driveFrom_plain n (latchInput n p s)) (n := n) (p := p)
    (s := s.afterSampleOf (s.pins n p).inPort) (by simpa using hn) (by simpa using hs)
    ((fun q => { q with irq1 := false, irq2 := false }) ∘
      fun q => { q with inp := s.latched (s.pins n p).inPort (s.port n p).inp }) []
  rw [← setPort_setPort, ← latchInput_eq, emitAll_nil, port_afterSampleOf, pins_afterSampleOf] at hclear
  unfold readDataCommon clearFlags
  simp only
  rw [hclear, andThen_next, portMix_latchInput hn]
  rfl

theorem regReadData_plain (hn : n < s.chips.length) (hs : s.noLineRoutes = true) :
    regRead (dataReadOf p) n s = .next (s.dataRead n p, s.dataByte n p) := by
  unfold State.dataRead
  cases p with
  | a =>
    show andThen (readDataCommon n .a s) (fun r => andThen (strobeIfArmed n .a r.1) fun s3 => .next (s3, r.2)) = _
    rw [readDataCommon_plain hn hs, andThen_next,
      strobeIfArmed_plain (by simpa [State.dataCleared] using hn) (by simpa using hs), andThen_next, ← emitAll_setPort,
      ← emitAll_append, port_emitAll, pins_emitAll, port_dataCleared hn, pins_dataCleared, dataReadEvents_a, dataLatched_a]
    rfl
  | b =>
    show readDataCommon n .b s = _
    rw [readDataCommon_plain hn hs, dataReadEvents_b, dataLatched_b]

theorem writeOut_plain (hn : n < s.chips.length) (hs : s.noLineRoutes = true) (d : Byte) :
    writeOut n p d s =
      .next ((s.setPort n p fun q => { q with out := d }).emitAll
        (outputEvents (s.pins n p).outPort { s.port n p with out := d })) := by
  rw [writeOut, driveOutput_plain (by simpa using hs), pins_setPort, port_setPort_same s p _ hn]

theorem regWriteData_plain (hn : n < s.chips.length) (hs : s.noLineRoutes = true) (d : Byte) :
    regWrite (dataWriteOf p) n d s = .next (s.dataWritten n p d) := by
  unfold State.dataWritten State.dataWriteEvents
  cases p with
  | a =>
    show writeOut n .a d s = _
    rw [writeOut_plain hn hs]
    simp only [List.append_nil]
    rfl
  | b =>
    show andThen (writeOut n .b d s) (fun s1 => strobeIfArmed n .b s1) = _
    rw [writeOut_plain hn hs, andThen_next, strobeIfArmed_plain (by simpa using hn) (by simpa using hs), ← emitAll_setPort,
      ← emitAll_append, setPort_setPort, port_emitAll, pins_emitAll, port_setPort_same s .b _ hn, pins_setPort]
    rfl

/-! ### The direction write and the control write (40 R107, R109, R112, R114) -/

theorem regWriteDdr_plain (hn : n < s.chips.length) (hs : s.noLineRoutes = true) (d : Byte) :
    regWrite (ddrWriteOf p) n d s = .next (s.ddrWritten n p d) := by
  have hrow : regWrite (ddrWriteOf p) n d s = writeDdr n p d s := by cases p <;> rfl
  rw [hrow]
  unfold writeDdr State.ddrWritten
  split
  · rfl
  · rw [driveOutput_plain (by simpa using hs), pins_setPort, port_setPort_same s p _ hn]

/-- C2 moves to the set/reset level where the new value makes it an output (40 R109 steps 2 to 5). -/
theorem moveC2_ctlWrite_plain (hs : s.noLineRoutes = true) (d : Byte) :
    (if c2Output (ctlOfData d) then moveC2 (driveFrom n s) n p (setC2 (ctlOfData d)) s else .next s) =
      .next ((s.setPort n p fun q => { q with outC2 := if c2Output (ctlOfData d) then setC2 (ctlOfData d) else q.outC2 }).emitAll
        (ctlWriteEvents d (s.pins n p).outC2 (s.port n p))) := by
  unfold ctlWriteEvents
  split
  · next hout =>
    rw [moveC2_plain (driveFrom_plain n s) hs]
    by_cases hlevel : (s.port n p).outC2 = setC2 (ctlOfData d) <;> simp [hlevel, hout]
  · next hout =>
    rw [setPort_eq_self rfl]
    simp [hout]

theorem regWriteCtl_plain (hn : n < s.chips.length) (hs : s.noLineRoutes = true) (d : Byte) :
    regWrite (ctlWriteOf p) n d s = .next (s.ctlWritten n p d) := by
  have hrow : regWrite (ctlWriteOf p) n d s = writeCtl n p d s := by cases p <;> rfl
  rw [hrow]
  unfold writeCtl
  simp only
  rw [moveC2_ctlWrite_plain hs, andThen_next, ← emitAll_setPort, setPort_setPort,
    updateIrq_emits (driveFrom_plain n _) hn hs]
  rfl

end

/-! ### The slots of a chip, on either bus (30 R81) -/

section
variable {s : State} {off n : Nat} {p : PortId}

theorem readSlot_of_dataSlot (h : slotAt (s.chip n).addressing off = dataSlotOf p) :
    readSlot n off s = regRead (if outputSelected (s.port n p).ctl then dataReadOf p else ddrReadOf p) n s := by
  have hport : (dataSlotOf p).port = p := by cases p <;> rfl
  unfold readSlot State.readKeyAt State.slot State.select
  rw [h, readKey_dataSlot, hport]

theorem readSlot_of_ctlSlot (h : slotAt (s.chip n).addressing off = ctlSlotOf p) :
    readSlot n off s = regRead (ctlReadOf p) n s := by
  unfold readSlot State.readKeyAt State.slot
  rw [h, readKey_ctlSlot]

theorem writeSlot_of_dataSlot (h : slotAt (s.chip n).addressing off = dataSlotOf p) (d : Byte) :
    writeSlot n off d s = regWrite (if outputSelected (s.port n p).ctl then dataWriteOf p else ddrWriteOf p) n d s := by
  have hport : (dataSlotOf p).port = p := by cases p <;> rfl
  unfold writeSlot State.writeKeyAt State.slot State.select
  rw [h, writeKey_dataSlot, hport]

theorem writeSlot_of_ctlSlot (h : slotAt (s.chip n).addressing off = ctlSlotOf p) (d : Byte) :
    writeSlot n off d s = regWrite (ctlWriteOf p) n d s := by
  unfold writeSlot State.writeKeyAt State.slot
  rw [h, writeKey_ctlSlot]

/-! The reads and the writes of the slots, each where its key selects it. -/

theorem readSlot_ddr (h : slotAt (s.chip n).addressing off = dataSlotOf p) (hsel : outputSelected (s.port n p).ctl = false) :
    readSlot n off s = .next (s, (s.port n p).ddr) := by
  rw [readSlot_of_dataSlot h, hsel]
  exact regReadDdr_eq n p s

theorem readSlot_data (h : slotAt (s.chip n).addressing off = dataSlotOf p) (hsel : outputSelected (s.port n p).ctl = true)
    (hn : n < s.chips.length) (hs : s.noLineRoutes = true) : readSlot n off s = .next (s.dataRead n p, s.dataByte n p) := by
  rw [readSlot_of_dataSlot h, hsel]
  exact regReadData_plain hn hs

theorem readSlot_ctl {c : Int} {t : State} (h : slotAt (s.chip n).addressing off = ctlSlotOf p) (hc : s.chipIndex c = some n)
    (ht : s.ctlSampled c n p t) : readSlot n off s = .next (t, ctlView (t.port n p)) := by
  rw [readSlot_of_ctlSlot h]
  exact regReadCtl_of_ctlSampled hc ht

theorem writeSlot_data (h : slotAt (s.chip n).addressing off = dataSlotOf p) (hsel : outputSelected (s.port n p).ctl = true)
    (hn : n < s.chips.length) (hs : s.noLineRoutes = true) (d : Byte) :
    writeSlot n off d s = .next (s.dataWritten n p d) := by
  rw [writeSlot_of_dataSlot h, hsel]
  exact regWriteData_plain hn hs d

theorem writeSlot_ddr (h : slotAt (s.chip n).addressing off = dataSlotOf p) (hsel : outputSelected (s.port n p).ctl = false)
    (hn : n < s.chips.length) (hs : s.noLineRoutes = true) (d : Byte) :
    writeSlot n off d s = .next (s.ddrWritten n p d) := by
  rw [writeSlot_of_dataSlot h, hsel]
  exact regWriteDdr_plain hn hs d

theorem writeSlot_ctl (h : slotAt (s.chip n).addressing off = ctlSlotOf p) (hn : n < s.chips.length)
    (hs : s.noLineRoutes = true) (d : Byte) : writeSlot n off d s = .next (s.ctlWritten n p d) := by
  rw [writeSlot_of_ctlSlot h]
  exact regWriteCtl_plain hn hs d

end

/-! ### The 16-bit reads (40 R115 to R117) -/

/-- The three 16-bit reads: the mode each is for, the row, the lanes its byte stands on (20 R67). -/
def wordReadRows (c : Int) (off : Nat) : List (BusMode × Instr × (Byte → Word16)) :=
  [(.b16Lower, .rd16L c off, fun b => 0x00#8 ++ b), (.b16Upper, .rd16U c off, fun b => b ++ 0x00#8),
    (.b16Auto, .rd16A c off, fun b => b ++ b)]

section
variable {c : Int} {off : Nat} {row : BusMode × Instr × (Byte → Word16)}

theorem wordReadRows_access (h : row ∈ wordReadRows c off) :
    row.1 ≠ .b8 ∧ row.2.1 ∈ wordReads c off ∧ ∀ b, readLanes row.1 b = row.2.2 b := by
  simp only [wordReadRows, List.mem_cons, List.not_mem_nil, or_false] at h
  rcases h with rfl | rfl | rfl
  · exact ⟨nofun, by simp [wordReads], readLanes_b16Lower⟩
  · exact ⟨nofun, by simp [wordReads], fun _ => rfl⟩
  · exact ⟨nofun, by simp [wordReads], fun _ => rfl⟩

theorem exec_wordReadRow {s t : State} {n : Nat} {b : Byte} (h : row ∈ wordReadRows c off) (hc : s.chipIndex c = some n)
    (hbus : (s.chip n).addressing.bus = row.1) (hread : readSlot n off s = .next (t, b)) :
    exec row.2.1 s = .next { t with result := .word (row.2.2 b) } := by
  obtain ⟨hwide, hmem, hlanes⟩ := wordReadRows_access h
  obtain ⟨lane, hexec⟩ := exec_of_mem_wordReads hmem
  rw [hexec, busRead16_of_chip lane hc (hbus ▸ hwide), hread, andThen_next, giveLanes, hbus, hlanes]

end

/-- Settles O21: a row gives what the slot's read gives, and each slot's read is known. -/
theorem read16 : Obligations.Read16 := by
  intro s c off n hc row hrow hbus
  have hexec : ∀ t b, readSlot n off s = .next (t, b) → exec row.2.1 s = .next { t with result := .word (row.2.2 b) } :=
    fun t b => exec_wordReadRow hrow hc hbus
  refine ⟨hexec, fun p hslot => ⟨fun hsel => ?_, fun hsel hs => ?_⟩, fun p hslot => ⟨fun h1 h2 => ?_, fun t ht => ?_⟩⟩
  · exact hexec _ _ (readSlot_ddr hslot hsel)
  · exact hexec _ _ (readSlot_data hslot hsel (indexIn_lt hc) hs)
  · exact hexec _ _ (readSlot_ctl hslot hc (ctlSampled_unbound h1 h2))
  · exact hexec _ _ (readSlot_ctl hslot hc ht)

/-! ### The 16-bit writes (40 R118 to R120) -/

/-- The 16-bit writes of the word `hi ++ lo`: the mode each is for, the row, the byte it brings, and when it brings that one
(20 R66). -/
def wordWriteRows (c : Int) (off : Nat) (lo hi : Byte) (zero : AutosenseZero) : List (BusMode × Instr × Byte × Prop) :=
  [(.b16Lower, .wr16L c off (hi ++ lo), lo, True), (.b16Upper, .wr16U c off (hi ++ lo), hi, True),
    (.b16Auto, .wr16A c off (hi ++ lo), lo, lo ≠ 0 ∧ hi = 0), (.b16Auto, .wr16A c off (hi ++ lo), hi, lo = 0 ∧ hi ≠ 0),
    (.b16Auto, .wr16A c off (hi ++ lo), 0x00, lo = 0 ∧ hi = 0 ∧ zero = .writeZero)]

section
variable {s : State} {c : Int} {off n : Nat} {lo hi : Byte}

theorem wordWriteRows_access {zero : AutosenseZero} {row : BusMode × Instr × Byte × Prop}
    (h : row ∈ wordWriteRows c off lo hi zero) (hcond : row.2.2.2) :
    row.1 ≠ .b8 ∧ row.2.1 ∈ wordWrites c off (hi ++ lo) ∧ writeLane zero row.1 (hi ++ lo) = some row.2.2.1 := by
  simp only [wordWriteRows, List.mem_cons, List.not_mem_nil, or_false] at h
  rcases h with rfl | rfl | rfl | rfl | rfl
  · exact ⟨nofun, by simp [wordWrites], congrArg some (lowByte_append hi lo)⟩
  · exact ⟨nofun, by simp [wordWrites], congrArg some (highByte_append hi lo)⟩
  · obtain ⟨hlo, hhi⟩ := hcond
    exact ⟨nofun, by simp [wordWrites], autosense_low zero hlo hhi⟩
  · obtain ⟨hlo, hhi⟩ := hcond
    exact ⟨nofun, by simp [wordWrites], autosense_high zero hlo hhi⟩
  · obtain ⟨hlo, hhi, rfl⟩ := hcond
    exact ⟨nofun, by simp [wordWrites], autosense_neither .writeZero hlo hhi⟩

theorem exec_of_lane_some {i : Instr} {w : Word16} {d : Byte} (h : i ∈ wordWrites c off w) (hc : s.chipIndex c = some n)
    (hb : (s.chip n).addressing.bus ≠ .b8) (hlane : writeLane s.autosenseZero (s.chip n).addressing.bus w = some d) :
    exec i s = writeSlot n off d s := by
  obtain ⟨lane, hexec⟩ := exec_of_mem_wordWrites h
  rw [hexec, busWrite16_of_chip lane w hc hb, hlane]

theorem exec_of_lane_none {i : Instr} {w : Word16} (h : i ∈ wordWrites c off w) (hc : s.chipIndex c = some n)
    (hb : (s.chip n).addressing.bus ≠ .b8) (hlane : writeLane s.autosenseZero (s.chip n).addressing.bus w = none) :
    exec i s = .next s := by
  obtain ⟨lane, hexec⟩ := exec_of_mem_wordWrites h
  rw [hexec, busWrite16_of_chip lane w hc hb, hlane]

end

/-- Settles O22: a row is the slot's write with the byte of its lane, and each slot's write is known; autosense drops the other
words. -/
theorem write16 : Obligations.Write16 := by
  intro s c off n lo hi hc
  refine ⟨fun row hrow hbus hcond => ?_, fun hbus => ⟨fun hlo hhi => ?_, fun hlo hhi hdrop => ?_⟩⟩
  · obtain ⟨hwide, hmem, hlane⟩ := wordWriteRows_access hrow hcond
    have hexec : exec row.2.1 s = writeSlot n off row.2.2.1 s :=
      exec_of_lane_some hmem hc (hbus ▸ hwide) (hbus ▸ hlane)
    have hn := indexIn_lt hc
    exact ⟨hexec, fun hs p => ⟨fun hslot hsel => hexec.trans (writeSlot_data hslot hsel hn hs _),
      fun hslot hsel => hexec.trans (writeSlot_ddr hslot hsel hn hs _),
      fun hslot => hexec.trans (writeSlot_ctl hslot hn hs _)⟩⟩
  · refine exec_of_lane_none (off := off) (w := hi ++ lo) (by simp [wordWrites]) hc (by rw [hbus]; decide) ?_
    rw [hbus]
    exact autosense_both _ hlo hhi
  · refine exec_of_lane_none (off := off) (w := hi ++ lo) (by simp [wordWrites]) hc (by rw [hbus]; decide) ?_
    rw [hbus, hdrop]
    exact autosense_neither .drop hlo hhi

end Sys2Proof.Machine

/-! PROOFS. Decoding: the round trip, the codes that name no operation, and written-out operations. -/

namespace Sys2Proof

/-- Settles O1, by the operand forms of the operations. -/
theorem decodeEncodeRoundTrip : Obligations.DecodeEncodeRoundTrip := decode_encode_append

/-! ### The codes that name no operation (30 R86) -/

/-- The codes of 30 R86, as numbers. -/
def unlistedCode (k : Nat) : Prop :=
  k = 0x10 ∨ (0x14 ≤ k ∧ k ≤ 0x18) ∨ (0x1C ≤ k ∧ k ≤ 0x1F) ∨ (0x24 ≤ k ∧ k ≤ 0x2F) ∨ (0x37 ≤ k ∧ k ≤ 0x3F) ∨
    (0x48 ≤ k ∧ k ≤ 0x4F) ∨ 0x53 ≤ k

theorem unlistedCode_toNat (op : Byte) :
    unlistedCode op.toNat ↔
      op = 0x10 ∨ (0x14 ≤ op ∧ op ≤ 0x18) ∨ (0x1C ≤ op ∧ op ≤ 0x1F) ∨ (0x24 ≤ op ∧ op ≤ 0x2F) ∨
        (0x37 ≤ op ∧ op ≤ 0x3F) ∨ (0x48 ≤ op ∧ op ≤ 0x4F) ∨ 0x53 ≤ op := by
  simp [unlistedCode, BitVec.le_def, ← BitVec.toNat_inj]

/-! What follows a listed code is an operation, or its own reason why there is none. -/

section
variable {α β γ : Type} (r : Reader α) (q : Reader β) (t : Reader γ) (op : Byte) (bs : List Byte)

@[simp] theorem decode1_ne_invalidCode (mk : α → Instr) : decode1 r mk bs ≠ .error (.invalidCode op) := by
  unfold decode1
  split <;> simp

@[simp] theorem decode2_ne_invalidCode (mk : α → β → Instr) : decode2 r q mk bs ≠ .error (.invalidCode op) := by
  unfold decode2
  split
  · simp
  · exact decode1_ne_invalidCode q op _ _

@[simp] theorem decode3_ne_invalidCode (mk : α → β → γ → Instr) : decode3 r q t mk bs ≠ .error (.invalidCode op) := by
  unfold decode3
  split
  · simp
  · exact decode2_ne_invalidCode q t op _ _

@[simp] theorem decodeConfigure_ne_invalidCode : decodeConfigure bs ≠ .error (.invalidCode op) := by
  unfold decodeConfigure
  split
  · simp
  · split
    · simp
    · split
      · simp
      · exact decode1_ne_invalidCode readInterface op _ _

end

/-- The arms of `decodeCode` are the codes of 30 R85, none of them unlisted, and its default arm is the unlisted ones. -/
theorem decodeCode_invalid_iff (op : Byte) (bs : List Byte) :
    decodeCode op bs = .error (.invalidCode op) ↔ unlistedCode op.toNat := by
  unfold decodeCode
  split
  case h_45 => -- the default arm: the code is none of the listed ones
    simp only [unlistedCode, true_iff, imp_false] at *
    omega
  all_goals simp [unlistedCode, *]

/-- Settles O2, by the arms of `decodeCode`. -/
theorem unlistedCodesInvalid : Obligations.UnlistedCodesInvalid := by
  intro op bs
  exact (decodeCode_invalid_iff op bs).trans (unlistedCode_toNat op)

/-- Settles O3: eight of the nine are what `encode` writes; the second has its ignored bit 0 set (log 2). -/
theorem specCodesDecode : Obligations.SpecCodesDecode :=
  ⟨decode_encode (.rdDataA 3 2) rfl, decode2_int .rdCtlA 0 [] (readNat_writeNat 1 []), decode_encode (.wrDataB 1 2 0x55) rfl,
    decode_encode (.rd16A 1 4) rfl, decode_encode (.wr16U 1 0 0x12AB) rfl, decode_encode (.lineCb1 1 true) rfl,
    decode_encode (.sched 7 100) rfl, decode_encode (.assertLine 2 .fast) rfl, decode_encode .resetAll rfl⟩

end Sys2Proof

/-! PROOFS. The pseudo-operation SETDDR (30 R88): each of its writes is one write of the port, and the three compose. -/

namespace Sys2Proof.Machine

/-! ### The writes of one port on the 8-bit bus, under a wiring without line routes -/

section
variable {s t : State} {c : Int} {off n : Nat} {p : PortId}

theorem exec_wrDdrOf (h : s.AtData c off n p false) (data : Byte) :
    exec (wrDdrOf p c off data) s = regWrite (ddrWriteOf p) n data s := by
  have hmem : wrDdrOf p c off data ∈ byteWrites c off data := by cases p <;> simp [wrDdrOf, byteWrites]
  obtain ⟨op, hexec⟩ := exec_of_mem_byteWrites hmem
  have hslot := writeSlot_of_dataSlot h.slot data
  rw [h.select] at hslot
  exact (hexec s).trans ((busWrite_of_chip op data h.chip h.bus).trans hslot)

/-- A control write completes, and is one write of its port. -/
theorem exec_wrCtlOf_writes (h : s.AtCtl c off n p) (hs : s.noLineRoutes = true) (data : Byte) :
    ∃ t, exec (wrCtlOf p c off data) s = .next t ∧ Cascade [n] (s.setPort n p (afterCtlWrite data)) t := by
  have hwrite := regWriteCtl_plain (p := p) (indexIn_lt h.chip) hs data
  exact ⟨_, (exec_wrCtlOf h data).trans hwrite, regWriteCtl_write hwrite⟩

/-- A direction write completes, and is one write of its port. -/
theorem exec_wrDdrOf_writes (h : s.AtData c off n p false) (hs : s.noLineRoutes = true) (data : Byte) :
    ∃ t, exec (wrDdrOf p c off data) s = .next t ∧ Cascade [n] (s.setPort n p fun q => { q with ddr := data }) t := by
  have hwrite := regWriteDdr_plain (p := p) (indexIn_lt h.chip) hs data
  exact ⟨_, (exec_wrDdrOf h data).trans hwrite, regWriteDdr_write hwrite⟩

/-! ### What such a write keeps of the access path -/

theorem Cascade.chipIndex {busy : List Nat} (h : Cascade busy s t) (c : Int) : t.chipIndex c = s.chipIndex c := by
  unfold State.chipIndex
  rw [h.chips_length]

theorem Cascade.addressing {busy : List Nat} (h : Cascade busy s t) (m : Nat) :
    (t.chip m).addressing = (s.chip m).addressing := by
  obtain ⟨_, haddr, _⟩ := h.fixed m
  exact haddr

theorem Cascade.noLineRoutes {busy : List Nat} (h : Cascade busy s t) : t.noLineRoutes = s.noLineRoutes :=
  noLineRoutes_congr h.routes h.chips_length

/-- The offset that stands for a slot reaches it (30 R88). -/
theorem slotAt_offsetOf {m : Addressing} (h : m.bus = .b8) (slot : Slot) : slotAt m (offsetOf m slot) = slot := by
  obtain ⟨o, bus⟩ := m
  obtain rfl : bus = .b8 := h
  cases o <;> cases slot <;> rfl

theorem atCtl_offsetOf (hc : s.chipIndex c = some n) (hb : (s.chip n).addressing.bus = .b8) (p : PortId) :
    s.AtCtl c (offsetOf (s.chip n).addressing (ctlSlotOf p)) n p :=
  ⟨hc, hb, slotAt_offsetOf hb _⟩

theorem atData_offsetOf (hc : s.chipIndex c = some n) (hb : (s.chip n).addressing.bus = .b8) (p : PortId) :
    s.AtData c (offsetOf (s.chip n).addressing (dataSlotOf p)) n p (outputSelected (s.port n p).ctl) :=
  ⟨hc, hb, slotAt_offsetOf hb _, rfl⟩

end

/-! ### SETDDR -/

theorem setDdr_eq (m : Addressing) (c : Int) (p : PortId) (mask ctl : Byte) :
    setDdr m c p mask ctl =
      [wrCtlOf p c (offsetOf m (ctlSlotOf p)) (ctl &&& 0xFB), wrDdrOf p c (offsetOf m (dataSlotOf p)) mask,
        wrCtlOf p c (offsetOf m (ctlSlotOf p)) (ctl ||| 0x04)] := by
  cases p <;> rfl

/-- Bit 2 of the byte of a control write is the register that it selects (10 R26). -/
theorem outputSelected_ctlOfData (data : Byte) : outputSelected (ctlOfData data) = data.getLsbD 2 := by
  simp [outputSelected, ctlOfData]

theorem outputSelected_cleared (ctl : Byte) : outputSelected (ctlOfData (ctl &&& 0xFB)) = false := by
  rw [outputSelected_ctlOfData, BitVec.getLsbD_and]
  exact Bool.and_false _

theorem outputSelected_set (ctl : Byte) : outputSelected (ctlOfData (ctl ||| 0x04)) = true := by
  rw [outputSelected_ctlOfData, BitVec.getLsbD_or]
  exact Bool.or_true _

/-- A port after SETDDR: its three writes, in order. -/
def afterSetDdr (mask ctl : Byte) (q : Port) : Port :=
  afterCtlWrite (ctl ||| 0x04) { afterCtlWrite (ctl &&& 0xFB) q with ddr := mask }

/-- The first write deselects the output register, so that the second reaches the direction register. -/
theorem execAll_setDdr {s : State} {c : Int} {n : Nat} (hc : s.chipIndex c = some n) (hb : (s.chip n).addressing.bus = .b8)
    (hs : s.noLineRoutes = true) (p : PortId) (mask ctl : Byte) :
    ∃ t, execAll (setDdr (s.chip n).addressing c p mask ctl) s = .next t ∧
      Cascade [n] (s.setPort n p (afterSetDdr mask ctl)) t := by
  have hn := indexIn_lt hc
  obtain ⟨s1, hexec1, hw1⟩ := exec_wrCtlOf_writes (atCtl_offsetOf hc hb p) hs (ctl &&& 0xFB)
  have hc1 : s1.chipIndex c = some n := by rw [hw1.chipIndex, chipIndex_setPort, hc]
  have haddr1 : (s1.chip n).addressing = (s.chip n).addressing := by rw [hw1.addressing, addressing_setPort]
  have hat1 := atData_offsetOf hc1 (haddr1 ▸ hb) p
  have hsel1 : outputSelected (s1.port n p).ctl = false := by rw [hw1.written hn]; exact outputSelected_cleared ctl
  rw [haddr1, hsel1] at hat1
  obtain ⟨s2, hexec2, hw2⟩ :=
    exec_wrDdrOf_writes hat1 (by rw [hw1.noLineRoutes, noLineRoutes_setPort, hs]) mask
  have hw12 := hw1.then_write hw2
  have hc2 : s2.chipIndex c = some n := by rw [hw12.chipIndex, chipIndex_setPort, hc]
  have haddr2 : (s2.chip n).addressing = (s.chip n).addressing := by rw [hw12.addressing, addressing_setPort]
  have hat2 := atCtl_offsetOf hc2 (haddr2 ▸ hb) p
  rw [haddr2] at hat2
  obtain ⟨t, hexec3, hw3⟩ :=
    exec_wrCtlOf_writes hat2 (by rw [hw12.noLineRoutes, noLineRoutes_setPort, hs]) (ctl ||| 0x04)
  refine ⟨t, ?_, hw12.then_write hw3⟩
  rw [setDdr_eq, execAll, hexec1, andThen_next, execAll, hexec2, andThen_next, execAll, hexec3, andThen_next, execAll]

/-- Settles O31: the registers are read off the port after the three writes. -/
theorem setDdrSequence : Obligations.SetDdrSequence := by
  intro s c n p mask ctl hc hb hs
  obtain ⟨t, hexec, hw⟩ := execAll_setDdr hc hb hs p mask ctl
  have hport : t.port n p = afterSetDdr mask ctl (s.port n p) := hw.written (indexIn_lt hc)
  refine ⟨t, hexec, ?_⟩
  rw [hport]
  exact ⟨rfl, rfl, outputSelected_set ctl, rfl, rfl, rfl, rfl,
    fun p' hp' => (hw.port p').trans (port_setPort_other _ (.inr hp'))⟩

end Sys2Proof.Machine

/-! PROOFS. Pending deadlines, what ADV and EXPIRE answer, and the watchdog wait (30 R88 WDWAIT, 43 R159, R162). -/

namespace Sys2Proof.Machine

/-! ### A canonical map has one value per id (10 R38) -/

theorem mem_of_mapGet {id : Int} {v : Nat} {m : List (Int × Nat)} (h : mapGet id m = some v) : (id, v) ∈ m := by
  induction m with
  | nil => cases h
  | cons e m ih =>
    obtain ⟨k, w⟩ := e
    simp only [mapGet] at h
    split at h
    · next hk => cases h; subst hk; exact List.mem_cons_self
    · exact List.mem_cons_of_mem _ (ih h)

theorem mapGet_of_mem {m : List (Int × Nat)} (hm : m.Pairwise fun x y => x.1 < y.1) {e : Int × Nat} (h : e ∈ m) :
    mapGet e.1 m = some e.2 := by
  induction m with
  | nil => cases h
  | cons x m ih =>
    obtain ⟨hx, hm⟩ := List.pairwise_cons.1 hm
    rcases List.mem_cons.1 h with rfl | h
    · exact if_pos rfl
    · exact (if_neg (ne_of_lt (hx e h))).trans (ih hm h)

/-- SCHED forgets the old deadline of its trigger (43 R151): what the map holds then is the new one, or another trigger's. -/
theorem mem_mapSet_canonical {id : Int} {v : Nat} {m : List (Int × Nat)} (hm : m.Pairwise fun x y => x.1 < y.1)
    {e : Int × Nat} (h : e ∈ mapSet id v m) : e.2 = v ∨ (e ∈ m ∧ e.1 ≠ id) := by
  by_cases hid : e.1 = id
  · have hget := mapGet_of_mem (mapSet_sorted id v hm) h
    rw [hid, mapGet_mapSet_same] at hget
    exact .inl (Option.some.inj hget).symm
  · rcases mem_mapSet h with rfl | h
    · exact absurd rfl hid
    · exact .inr ⟨h, hid⟩

/-! ### ADV and EXPIRE (43 R156, R157) -/

/-- No pending deadline lies before a time: no timeout and no timed wait does. -/
theorem forall_deadlines_iff (s : State) (limit : Nat) :
    (∀ d ∈ s.deadlines, limit ≤ d) ↔
      (∀ e ∈ s.timeout, limit ≤ e.2) ∧ ∀ q ∈ s.cpus, ∀ time, q.wait = .untilTime time → limit ≤ time := by
  simp only [State.deadlines, List.mem_append, or_imp, forall_and, List.forall_mem_map, List.mem_filterMap,
    deadlineOf_eq_some, forall_exists_index, and_imp]
  exact and_congr_right fun _ => ⟨fun h q hq time hw => h time q hq hw, fun h time q hq hw => h q hq time hw⟩

/-- The state after ADV: time has moved, and the pulse requests are gone. -/
def State.advanced (s : State) (dt : Nat) : State := { s with now := s.now + dt, cpus := s.cpus.map dropPulses }

section
variable {s : State} {dt : Nat} (hpos : 1 ≤ dt)
include hpos

theorem exec_adv_of_ahead (h : ∀ d ∈ s.deadlines, s.now + dt ≤ d) : exec (.adv dt) s = .next (s.advanced dt) := by
  show execAdv dt s = _
  unfold execAdv
  rw [if_neg (Nat.ne_of_gt hpos), if_pos (by simpa using h)]
  rfl

theorem exec_adv_of_past {d : Nat} (hd : d ∈ s.deadlines) (hpast : d < s.now + dt) :
    exec (.adv dt) s = .refused .clockPastDeadline := by
  show execAdv dt s = _
  unfold execAdv
  rw [if_neg (Nat.ne_of_gt hpos), if_neg]
  intro hall
  exact absurd (of_decide_eq_true (List.all_eq_true.1 hall d hd)) (Nat.not_le_of_lt hpast)

end

section
variable {s : State} {id : Int}

theorem exec_expire_of_due {d : Nat} (hd : mapGet id s.timeout = some d) (hnow : d ≤ s.now) :
    exec (.expire id) s = .next (fireTrigger id s) := by
  show execExpire id s = _
  simp only [execExpire, hd, if_pos hnow]

theorem exec_expire_of_none (h : mapGet id s.timeout = none) : exec (.expire id) s = .refused .expireNotDue := by
  show execExpire id s = _
  simp only [execExpire, h]

/-- A fired trigger has no timeout left to expire. -/
theorem exec_expire_fired : exec (.expire id) (fireTrigger id s) = .refused .expireNotDue :=
  exec_expire_of_none (by rw [fireTrigger_timeout, mapGet_mapErase_same])

end

/-! ### A CPU that waits under a timeout -/

/-- CPU `n` waits on a trigger whose timeout is pending (43 R159). -/
structure State.Guarded (s : State) (n : Nat) (id : Int) (deadline : Nat) : Prop where
  listed : (id, n) ∈ s.waiters
  exists_cpu : n < s.cpus.length
  wait : (s.cpu n).wait = .onTrigger id
  timeout : mapGet id s.timeout = some deadline

section
variable {s : State} {n : Nat} {id : Int} {deadline : Nat}

theorem State.Guarded.advanced (h : s.Guarded n id deadline) (dt : Nat) : (s.advanced dt).Guarded n id deadline where
  listed := h.listed
  exists_cpu := by simpa [State.advanced] using h.exists_cpu
  wait := by rw [State.advanced, cpu_map_dropPulses]; exact h.wait
  timeout := h.timeout

theorem State.Guarded.fired (h : s.Guarded n id deadline) : ((fireTrigger id s).cpu n).wait = .running := by
  rw [cpu_fireTrigger, if_pos ⟨h.listed, h.exists_cpu⟩]

theorem State.Guarded.deadline_mem (h : s.Guarded n id deadline) : deadline ∈ s.deadlines :=
  List.mem_append_left _ (List.mem_map_of_mem (mem_of_mapGet h.timeout))

end

/-! ### The watchdog wait -/

/-- The state after WDWAIT: the timeout armed, then the wait (43 R151, R153). -/
def State.watching (s : State) (n : Nat) (id : Int) (delay : Nat) : State :=
  { setWait n (.onTrigger id) (armTimeout id delay s) with waiters := pairInsert (id, n) s.waiters }

section
variable {s : State} {i id : Int} {n delay : Nat}

theorem execAll_wdWait (hn : s.cpuIndex i = some n) (hrun : (s.cpu n).wait = .running) :
    execAll (wdWait i id delay) s = .next (s.watching n id delay) := by
  have hyield : exec (.yieldOn i id) (armTimeout id delay s) = .next (s.watching n id delay) :=
    whenRunning_eq_next.2 ⟨n, hn, hrun, rfl⟩
  show andThen (exec (.yieldOn i id) (armTimeout id delay s)) _ = _
  rw [hyield]
  rfl

theorem watching_guarded (hn : n < s.cpus.length) : (s.watching n id delay).Guarded n id (s.now + delay) where
  listed := mem_pairInsert.2 (.inl rfl)
  exists_cpu := (setCpu_length (armTimeout id delay s) n _).symm ▸ hn
  wait := (wait_setWait n n (.onTrigger id) (armTimeout id delay s) id).2 (by rw [if_pos ⟨rfl, hn⟩])
  timeout := mapGet_mapSet_same id (s.now + delay) s.timeout

/-- A CPU that was given a wait on a trigger is in no timed wait: the timed waits afterwards are those before. -/
theorem mem_of_timed_setWait {q : Cpu} {time : Nat} (hq : q ∈ (setWait n (.onTrigger id) s).cpus)
    (hw : q.wait = .untilTime time) : q ∈ s.cpus := by
  obtain ⟨k, hk, rfl⟩ := List.mem_iff_getElem.1 hq
  simp only [setWait, State.setCpu, List.getElem_modify] at hw ⊢
  split at hw
  · cases hw
  · next hne => rw [if_neg hne]; exact List.getElem_mem _

/-- The armed timeout is the first pending deadline, if no other lies before it. -/
theorem watching_deadlines (hcanon : s.timeoutsCanonical) (htimeout : ∀ e ∈ s.timeout, e.1 ≠ id → s.now + delay ≤ e.2)
    (htimed : ∀ q ∈ s.cpus, ∀ time, q.wait = .untilTime time → s.now + delay ≤ time) :
    ∀ d ∈ (s.watching n id delay).deadlines, s.now + delay ≤ d := by
  refine (forall_deadlines_iff _ _).2 ⟨fun e he => ?_, fun q hq time hw => ?_⟩
  · rcases mem_mapSet_canonical hcanon he with hnew | ⟨hold, hne⟩
    · exact hnew.ge
    · exact htimeout e hold hne
  · exact htimed q (mem_of_timed_setWait (s := armTimeout id delay s) hq hw) time hw

end

/-- Settles O51: until the deadline ADV completes and leaves the CPU guarded; FIRE, or EXPIRE at the deadline, fires the trigger,
and a fired trigger has neither timeout nor waiter. -/
theorem watchdogResumesOnce : Obligations.WatchdogResumesOnce := by
  intro s i id n delay hcanon hn hrun hdelay htimeout htimed
  have hguard := watching_guarded (s := s) (id := id) (delay := delay) (indexIn_lt hn)
  have hfirst := watching_deadlines (n := n) hcanon htimeout htimed
  generalize hw : s.watching n id delay = w at hguard hfirst
  have hnow : w.now = s.now := by rw [← hw]; rfl
  have hadv : ∀ d, 1 ≤ d → d ≤ delay → exec (.adv d) w = .next (w.advanced d) := fun d hpos hle =>
    exec_adv_of_ahead hpos fun x hx => hnow ▸ (Nat.add_le_add_left hle _).trans (hfirst x hx)
  have hfired_now : ∀ d, (fireTrigger id (w.advanced d)).now = s.now + d := fun d =>
    (fireTrigger_outside id _).now.trans (congrArg (· + d) hnow)
  refine ⟨w, hw ▸ execAll_wdWait hn hrun, hguard.wait, hnow, ?_, fun d hpos hle => ?_, fun d hlt => ?_⟩
  · have hdue : s.now + delay ≤ (w.advanced delay).now := (congrArg (· + delay) hnow).ge
    exact ⟨w.advanced delay, fireTrigger id (w.advanced delay), hadv delay hdelay le_rfl, (hguard.advanced delay).wait,
      exec_expire_of_due (hguard.advanced delay).timeout hdue, (hguard.advanced delay).fired, hfired_now delay,
      exec_expire_fired, congrArg Host.Outcome.next (fireTrigger_idem id _)⟩
  · exact ⟨w.advanced d, fireTrigger id (w.advanced d), hadv d hpos hle, (hguard.advanced d).wait, rfl,
      (hguard.advanced d).fired, hfired_now d, exec_expire_fired⟩
  · exact exec_adv_of_past (hdelay.trans hlt.le) hguard.deadline_mem (hnow ▸ Nat.add_lt_add_left hlt _)

end Sys2Proof.Machine

/-! PROOFS. The bus accesses of the 8-bit bus exactly, under a wiring without line routes, and what an access of one port leaves of
the other port and of the other chips. -/

namespace Sys2Proof.Machine

/-! ### The rows of the data slot, on the 8-bit bus -/

section
variable {s : State} {c : Int} {off n : Nat} {p : PortId}

theorem exec_rdDataOf (h : s.AtData c off n p true) :
    exec (rdDataOf p c off) s = andThen (regRead (dataReadOf p) n s) giveByte := by
  have hmem : rdDataOf p c off ∈ byteReads c off := by cases p <;> simp [rdDataOf, byteReads]
  obtain ⟨op, hexec⟩ := exec_of_mem_byteReads hmem
  have hslot := readSlot_of_dataSlot h.slot
  rw [h.select] at hslot
  exact ((hexec s).trans (busRead_of_chip op h.chip h.bus)).trans (congrArg (andThen · giveByte) hslot)

theorem exec_wrDataOf (h : s.AtData c off n p true) (data : Byte) :
    exec (wrDataOf p c off data) s = regWrite (dataWriteOf p) n data s := by
  have hmem : wrDataOf p c off data ∈ byteWrites c off data := by cases p <;> simp [wrDataOf, byteWrites]
  obtain ⟨op, hexec⟩ := exec_of_mem_byteWrites hmem
  have hslot := writeSlot_of_dataSlot h.slot data
  rw [h.select] at hslot
  exact (hexec s).trans ((busWrite_of_chip op data h.chip h.bus).trans hslot)

end

/-- Settles O13: the row is the read of the direction register, which touches nothing. -/
theorem readDirection : Obligations.ReadDirection := by
  intro s c off n p h
  exact exec_rdDdrOf h

/-- Settles O14: the row is the data read of its port, and the byte goes to the bus master. -/
theorem readData : Obligations.ReadData := by
  intro s c off n p h hs
  rw [exec_rdDataOf h, regReadData_plain (indexIn_lt h.chip) hs, andThen_next, giveByte]

/-- Settles O15: the row is the data write of its port. -/
theorem writeData : Obligations.WriteData := by
  intro s c off n p data h hs
  rw [exec_wrDataOf h, regWriteData_plain (indexIn_lt h.chip) hs]

/-- Settles O16: the row is the direction write of its port. -/
theorem writeDirection : Obligations.WriteDirection := by
  intro s c off n p data h hs
  rw [exec_wrDdrOf h, regWriteDdr_plain (indexIn_lt h.chip) hs]

/-- Settles O18: the row is the control write of its port. -/
theorem writeControl : Obligations.WriteControl := by
  intro s c off n p data h hs
  rw [exec_wrCtlOf h, regWriteCtl_plain (indexIn_lt h.chip) hs]

/-! ### What touches one port of one chip only (40 R121, 41 R135) -/

/-- From `s` to `t` the chip's other port is as it was; where no route delivers a line sample, every other chip too. -/
structure OnlyPort (n : Nat) (p : PortId) (s t : State) : Prop where
  noLineRoutes : t.noLineRoutes = s.noLineRoutes
  other : ∀ p' ≠ p, t.port n p' = s.port n p'
  chips : s.noLineRoutes = true → ∀ m ≠ n, t.chip m = s.chip m

section
variable {n : Nat} {p : PortId} {s t u : State}

theorem OnlyPort.trans (h : OnlyPort n p s t) (g : OnlyPort n p t u) : OnlyPort n p s u where
  noLineRoutes := g.noLineRoutes.trans h.noLineRoutes
  other := fun p' hp => (g.other p' hp).trans (h.other p' hp)
  chips := fun hs m hm => (g.chips (h.noLineRoutes.trans hs) m hm).trans (h.chips hs m hm)

theorem OnlyPort.of_chips (hc : t.chips = s.chips) (hr : t.routes = s.routes) : OnlyPort n p s t where
  noLineRoutes := noLineRoutes_congr hr (by rw [hc])
  other := fun p' _ => by simp only [State.port, chip_congr hc]
  chips := fun _ m _ => chip_congr hc m

theorem OnlyPort.refl (s : State) : OnlyPort n p s s := .of_chips rfl rfl

/-- A write of the port, with a cascade that, where no route delivers a line sample, is emission. -/
theorem OnlyPort.of_write {f : Port → Port} (h : Cascade [n] (s.setPort n p f) t)
    (hplain : s.noLineRoutes = true → ∃ es, (.next t : Answer) = .next ((s.setPort n p f).emitAll es)) :
    OnlyPort n p s t where
  noLineRoutes := by rw [h.noLineRoutes, noLineRoutes_setPort]
  other := fun p' hp => (h.port p').trans (port_setPort_other f (.inr hp))
  chips := fun hs m hm => by
    obtain ⟨es, ht⟩ := hplain hs
    cases ht
    rw [chip_congr (emitAll_chips _ es), chip_setPort_ne s p f hm]

theorem onlyPort_afterSampleOf (s : State) (b : Option Nat) : OnlyPort n p s (s.afterSampleOf b) := by
  obtain ⟨a, d, h⟩ := afterSampleOf_eq s b
  rw [h]
  exact .of_chips rfl rfl

theorem sampleC1_onlyPort {s0 : State} (hn : n < s.chips.length) {v : Bool}
    (h : sampleC1 (driveFrom n s0) n p v s = .next t) : OnlyPort n p s t := by
  exact .of_write (sampleC1_write (driveFrom_cascade n s0) hn h) fun hs =>
    ⟨_, h.symm.trans (sampleC1_plain (driveFrom_plain n s0) hn hs v)⟩

theorem sampleC2_onlyPort {s0 : State} (hn : n < s.chips.length) {v : Bool}
    (h : sampleC2 (driveFrom n s0) n p v s = .next t) : OnlyPort n p s t := by
  exact .of_write (sampleC2_write (driveFrom_cascade n s0) h) fun hs =>
    ⟨_, h.symm.trans (sampleC2_plain (driveFrom_plain n s0) hn hs v)⟩

theorem setLine_onlyPort {s0 : State} (hn : n < s.chips.length) {l : Line} {v : Bool}
    (h : setLine (driveFrom n s0) n l v s = .next t) : OnlyPort n (linePort l) s t := by
  unfold setLine at h
  split at h
  · exact sampleC1_onlyPort hn h
  · exact sampleC2_onlyPort hn h

theorem sampleBound_onlyPort (hn : n < s.chips.length) {l : Line} {b : Option Nat} (h : sampleBound n l b s = .next t) :
    OnlyPort n (linePort l) s t := by
  cases b with
  | none => cases h; exact .refl s
  | some k =>
    rw [sampleBound_some] at h
    exact (onlyPort_afterSampleOf s (some k)).trans (setLine_onlyPort (by simpa using hn) h)

theorem regReadData_onlyPort {b : Byte} (hn : n < s.chips.length) (h : regRead (dataReadOf p) n s = .next (t, b)) :
    OnlyPort n p s t := by
  obtain ⟨hcascade, _⟩ := regReadData_write hn h
  refine (onlyPort_afterSampleOf s (s.pins n p).inPort).trans (.of_write hcascade fun hs => ⟨s.dataReadEvents n p, ?_⟩)
  cases h.symm.trans (regReadData_plain hn (by simpa using hs))
  rfl

theorem regReadCtl_onlyPort {b : Byte} (hn : n < s.chips.length) (h : regRead (ctlReadOf p) n s = .next (t, b)) :
    OnlyPort n p s t := by
  have h1 : linePort (c1Line p) = p := by cases p <;> rfl
  have h2 : linePort (c2Line p) = p := by cases p <;> rfl
  rw [regReadCtl_eq] at h
  obtain ⟨u, hu, h⟩ := andThen_eq_next.1 h
  obtain ⟨w, hw, ht⟩ := andThen_eq_next.1 h
  cases ht
  have hlen : u.chips.length = s.chips.length := by simpa using (sampleBound_c1_write hn hu).chips_length
  exact (h1 ▸ sampleBound_onlyPort hn hu).trans (h2 ▸ sampleBound_onlyPort (hlen.symm ▸ hn) hw)

theorem regWriteData_onlyPort {d : Byte} (hn : n < s.chips.length) (h : regWrite (dataWriteOf p) n d s = .next t) :
    OnlyPort n p s t := by
  exact .of_write (regWriteData_write hn h) fun hs => ⟨_, h.symm.trans (regWriteData_plain hn hs d)⟩

theorem regWriteDdr_onlyPort {d : Byte} (hn : n < s.chips.length) (h : regWrite (ddrWriteOf p) n d s = .next t) :
    OnlyPort n p s t := by
  refine .of_write (regWriteDdr_write h) fun hs => ?_
  rw [← h, regWriteDdr_plain hn hs d, State.ddrWritten]
  split
  · next hsame => exact ⟨[], by rw [emitAll_nil, setPort_eq_self (by rw [hsame])]⟩
  · exact ⟨_, rfl⟩

theorem regWriteCtl_onlyPort {d : Byte} (hn : n < s.chips.length) (h : regWrite (ctlWriteOf p) n d s = .next t) :
    OnlyPort n p s t := by
  exact .of_write (regWriteCtl_write h) fun hs => ⟨_, h.symm.trans (regWriteCtl_plain hn hs d)⟩

end

/-! ### The port that an operation targets -/

section
variable {s t : State} {i : Instr} {c : Int} {off n : Nat} {p : PortId}

theorem target_of_access (hi : readAccess i = some (c, off) ∨ writeAccess i = some (c, off)) (hc : s.chipIndex c = some n) :
    s.target i = some (n, (s.slot n off).port) := by
  have key : s.target i = (s.chipIndex c).map fun n => (n, (s.slot n off).port) := by
    cases i <;> rcases hi with hi | hi <;> cases hi <;> rfl
  rw [key, hc, Option.map_some]

/-- The key names a register of the slot's port (30 R81). -/
theorem slot_port_of_readKeyAt
    (h : s.readKeyAt n off = ddrReadOf p ∨ s.readKeyAt n off = dataReadOf p ∨ s.readKeyAt n off = ctlReadOf p) :
    (s.slot n off).port = p := by
  unfold State.readKeyAt at h
  generalize s.select n (s.slot n off) = select at h
  revert h
  cases s.slot n off <;> cases select <;> cases p <;> decide

theorem slot_port_of_writeKeyAt
    (h : s.writeKeyAt n off = ddrWriteOf p ∨ s.writeKeyAt n off = dataWriteOf p ∨ s.writeKeyAt n off = ctlWriteOf p) :
    (s.slot n off).port = p := by
  unfold State.writeKeyAt at h
  generalize s.select n (s.slot n off) = select at h
  revert h
  cases s.slot n off <;> cases select <;> cases p <;> decide

theorem regRead_onlyPort {b : Byte} (hn : n < s.chips.length) (h : regRead (s.readKeyAt n off) n s = .next (t, b)) :
    OnlyPort n (s.slot n off).port s t := by
  obtain ⟨p, hop⟩ := readOp_cases (s.readKeyAt n off)
  rw [slot_port_of_readKeyAt hop]
  rcases hop with hop | hop | hop <;> rw [hop] at h
  · rw [regReadDdr_eq] at h
    cases h
    exact .refl s
  · exact regReadData_onlyPort hn h
  · exact regReadCtl_onlyPort hn h

theorem regWrite_onlyPort {d : Byte} (hn : n < s.chips.length) (h : regWrite (s.writeKeyAt n off) n d s = .next t) :
    OnlyPort n (s.slot n off).port s t := by
  obtain ⟨p, hop⟩ := writeOp_cases (s.writeKeyAt n off)
  rw [slot_port_of_writeKeyAt hop]
  rcases hop with hop | hop | hop <;> rw [hop] at h
  · exact regWriteDdr_onlyPort hn h
  · exact regWriteData_onlyPort hn h
  · exact regWriteCtl_onlyPort hn h

/-- A bus access, a line sample and a routed operation touch the port that they target, if they target one. -/
theorem AccessStep.onlyPort (h : AccessStep s i t) (hi : s.target i = some (n, p)) : OnlyPort n p s t := by
  cases h with
  | readAbsent | writeNothing => exact .of_chips rfl rfl
  | read ha hc hu =>
    cases hi.symm.trans (target_of_access (.inl ha) hc)
    exact (regRead_onlyPort (indexIn_lt hc) hu).trans (.of_chips rfl rfl)
  | write ha hc _ hu =>
    cases hi.symm.trans (target_of_access (.inr ha) hc)
    exact regWrite_onlyPort (indexIn_lt hc) hu
  | @line _ l v _ _ hc hu =>
    rw [target_line, hc, Option.map_some] at hi
    cases hi
    exact setLine_onlyPort (indexIn_lt hc) hu
  | @plain x => exact .of_chips (plainAction_outside s x).chips (plainAction_outside s x).routes

/-- Only a bus access and a line sample target a port. -/
theorem ExecStep.onlyPort (h : ExecStep s i t) (hi : s.target i = some (n, p)) : OnlyPort n p s t := by
  cases h with
  | access h => exact h.onlyPort hi
  | yieldOn | yieldT | adv | expire | wake | take | configureAbsent | configure | resetAll | unconfigureAll => cases hi

end

/-- Settles O27: an operation writes its own port, and its drives touch other chips through line routes only. -/
theorem otherPortUntouched : Obligations.OtherPortUntouched := by
  intro s t i n p hi h
  have honly := (ExecStep.of_exec h).onlyPort hi
  exact ⟨honly.other, honly.chips⟩

end Sys2Proof.Machine

/-! PROOFS. Every register operation under a wiring without a cycle: its drives, in order, are performed as the operations they are
routed to (46 R192, R194). -/

namespace Sys2Proof.Machine

/-! ### A driver on a list of events -/

/-- The events in order, each on its sink. -/
def driveAll (drive : Driver) : List Event → State → Answer
  | [], s => .next s
  | e :: es, s => andThen (drive (some e.sink) e.value s) (driveAll drive es)

theorem driveAll_singleton (drive : Driver) (e : Event) (s : State) : driveAll drive [e] s = drive (some e.sink) e.value s := by
  unfold driveAll
  cases drive (some e.sink) e.value s <;> rfl

/-- `UpdateIrq` is the write of the aggregate, then its event (42 R141). -/
theorem updateIrq_eq (drive : Driver) (n : Nat) (p : PortId) (s : State) :
    updateIrq drive n p s =
      driveAll drive
        (irqEvent (s.port n p).irqState (aggregate (s.port n p)) (s.pins n p).irq (s.setPort n p storeAggregate).chips)
        (s.setPort n p storeAggregate) := by
  have hstore : (s.setPort n p fun q => { q with irqState := aggregate (s.port n p) }) = s.setPort n p storeAggregate :=
    setPort_congr rfl
  unfold updateIrq irqEvent
  simp only [hstore, pins_setPort]
  split
  · next hsame =>
    rw [setPort_eq_self (by rw [storeAggregate, hsame])]
    cases (s.pins n p).irq with
    | none => rfl
    | some k => simp only [hsame, if_true, driveAll]
  · next hmoved =>
    cases (s.pins n p).irq with
    | none => rfl
    | some k => simp only [if_neg (Ne.symm hmoved), driveAll_singleton]

/-- Steps 1 to 3 of a data read are the sample, the write of the port, then the interrupt line's event (40 R104, R105). -/
theorem readDataCommon_eq {n : Nat} {p : PortId} {s : State} (hn : n < s.chips.length) :
    readDataCommon n p s =
      andThen (driveAll (driveFrom n (latchInput n p s))
        (irqEvent (s.port n p).irqState false (s.pins n p).irq (s.dataCleared n p).chips) (s.dataCleared n p))
        fun t => .next (t, s.dataByte n p) := by
  have hlatched : ((latchInput n p s).setPort n p fun q => { q with irq1 := false, irq2 := false }) =
      (s.afterSampleOf (s.pins n p).inPort).setPort n p fun q =>
        { q with inp := s.latched (s.pins n p).inPort (s.port n p).inp, irq1 := false, irq2 := false } := by
    rw [latchInput_eq, setPort_setPort]
    rfl
  unfold readDataCommon clearFlags
  simp only
  rw [updateIrq_eq, portMix_latchInput hn, hlatched, setPort_setPort, port_setPort_same _ p _ (by simpa using hn), pins_setPort,
    port_afterSampleOf, pins_afterSampleOf]
  rfl

/-! ### Which events are the chip's own -/

section
variable {s : State} {n : Nat}

theorem eventsOf_nil (s : State) (n : Nat) : EventsOf s n [] := nofun

theorem EventsOf.append {es fs : List Event} (h : EventsOf s n es) (g : EventsOf s n fs) : EventsOf s n (es ++ fs) :=
  fun e he => (List.mem_append.1 he).elim (h e) (g e)

theorem eventsOf_eventOn {b : Option Nat} (h : BoundBy s n b) (v : SinkValue) : EventsOf s n (eventOn b v) := by
  cases b with
  | none => exact eventsOf_nil s n
  | some k =>
    intro e he
    obtain rfl := List.mem_singleton.1 he
    exact h k rfl

theorem eventsOf_irqEvent {b : Option Nat} (h : BoundBy s n b) (old new : Bool) (chips : List Chip) :
    EventsOf s n (irqEvent old new b chips) := by
  unfold irqEvent
  cases b with
  | none => exact eventsOf_nil s n
  | some k =>
    simp only
    split
    · exact eventsOf_nil s n
    · exact eventsOf_eventOn h _

theorem eventsOf_ite {es fs : List Event} (b : Prop) [Decidable b] (h : EventsOf s n es) (g : EventsOf s n fs) :
    EventsOf s n (if b then es else fs) := by
  split
  · exact h
  · exact g

end

/-- The events of C2 moving to a level (40 R109 step 4, R110). -/
def moveEvents (b : Option Nat) (v : Bool) (q : Port) : List Event := if q.outC2 = v then [] else eventOn b (.level v)

theorem eventsOf_moveEvents (s : State) (n : Nat) (p : PortId) (v : Bool) (q : Port) :
    EventsOf s n (moveEvents (s.pins n p).outC2 v q) :=
  eventsOf_ite _ (eventsOf_nil s n) (eventsOf_eventOn (boundBy_outC2 s n p) _)

/-- C2 low if it was high, then, with E-reset, high (40 R110). -/
theorem strobeEvents_eq (b : Option Nat) (q : Port) :
    strobeEvents b q = moveEvents b false q ++ if strobeEReset q.ctl then eventOn b (.level true) else [] := by
  unfold strobeEvents moveEvents
  cases q.outC2 <;> rfl

/-- The interrupt line's event of a data read. -/
theorem eventsOf_clear (s : State) (n : Nat) (p : PortId) :
    EventsOf (s.dataCleared n p) n
      (irqEvent (s.port n p).irqState false (s.pins n p).irq (s.dataCleared n p).chips) :=
  eventsOf_irqEvent (pins_dataCleared (s := s) ▸ boundBy_irq (s.dataCleared n p) n p) _ _ _

/-! ### The shared operations -/

theorem andThen_congr {α β : Type} {o : Host.Outcome α Fault Refusal} {f g : α → Host.Outcome β Fault Refusal}
    (h : ∀ x, o = .next x → f x = g x) : andThen o f = andThen o g := by
  cases o with
  | next x => exact h x rfl
  | fault r => rfl
  | refused r => rfl

theorem upwardWiring_dataCleared {rank : Nat → Nat} {s : State} (hu : s.upwardWiring rank = true) (n : Nat) (p : PortId) :
    (s.dataCleared n p).upwardWiring rank = true := by
  obtain ⟨a, d, h⟩ := afterSampleOf_eq s (s.pins n p).inPort
  rw [State.dataCleared, h]
  exact upwardWiring_setPort n p _ hu

section
variable {rank : Nat → Nat} {n : Nat} {p : PortId} {s s0 : State} (hu : s.upwardWiring rank = true) (hn : n < s.chips.length)
include hu hn

theorem driveAll_routed {es : List Event} (hk : EventsOf s n es) (hl : s0.chips.length = s.chips.length) :
    driveAll (driveFrom n s0) es s = performDrives es s := by
  induction es generalizing s with
  | nil => rfl
  | cons e es ih =>
    rw [performDrives_cons hu hn hk hl]
    refine andThen_congr fun t ht => ?_
    have hcascade := driveFrom_cascade n s0 _ _ _ _ ht
    exact ih (hcascade.upwardWiring hu) (hcascade.chips_length.symm ▸ hn)
      (EventsOf.congr (fun e' he => hk e' (List.mem_cons_of_mem e he)) (hcascade.fixed n).1)
      (hl.trans hcascade.chips_length.symm)

theorem drive_routed {b : Option Nat} (hb : BoundBy s n b) (v : SinkValue) (hl : s0.chips.length = s.chips.length) :
    driveFrom n s0 b v s = performDrives (eventOn b v) s := by
  rw [← driveAll_routed hu hn (eventsOf_eventOn hb v) hl]
  cases b with
  | none => rfl
  | some k => exact (driveAll_singleton _ ⟨k, v⟩ s).symm

/-- Drives, then an operation that writes the port and drives again: the write may come first. -/
theorem performDrives_andThen {es fs : List Event} (hk : EventsOf s n es) {f : Port → Port}
    (hf : ∀ q, (f q).irqState = q.irqState) {g : State → Answer}
    (hg : ∀ t, Cascade [n] s t → g t = performDrives fs (t.setPort n p f)) :
    andThen (performDrives es s) g = performDrives (es ++ fs) (s.setPort n p f) := by
  rw [performDrives_append, performDrives_setPort hu hn hk hf, answerSetPort, andThen_assoc]
  exact andThen_congr fun t ht => hg t (performDrives_cascade hu hn hk ht)

theorem updateIrq_routed (hl : s0.chips.length = s.chips.length) :
    updateIrq (driveFrom n s0) n p s =
      performDrives
        (irqEvent (s.port n p).irqState (aggregate (s.port n p)) (s.pins n p).irq (s.setPort n p storeAggregate).chips)
        (s.setPort n p storeAggregate) := by
  rw [updateIrq_eq]
  refine driveAll_routed (upwardWiring_setPort n p _ hu) (by simpa using hn) ?_ (by simpa using hl)
  refine eventsOf_irqEvent ?_ _ _ _
  rw [← pins_setPort s n n p p storeAggregate]
  exact boundBy_irq _ n p

/-- Drives of C2, then the store of its level. -/
theorem performDrives_setC2 {es : List Event} (hk : EventsOf s n es) (v : Bool) :
    (andThen (performDrives es s) fun t => .next (t.setPort n p fun q => { q with outC2 := v })) =
      performDrives es (s.setPort n p fun q => { q with outC2 := v }) :=
  (performDrives_setPort hu hn hk (f := fun q => { q with outC2 := v }) fun _ => rfl).symm

theorem moveC2_routed (hl : s0.chips.length = s.chips.length) (v : Bool) :
    moveC2 (driveFrom n s0) n p v s =
      performDrives (moveEvents (s.pins n p).outC2 v (s.port n p)) (s.setPort n p fun q => { q with outC2 := v }) := by
  have hdrive : (if (s.port n p).outC2 = v then .next s else driveFrom n s0 (s.pins n p).outC2 (.level v) s) =
      performDrives (moveEvents (s.pins n p).outC2 v (s.port n p)) s := by
    unfold moveEvents
    split
    · rfl
    · exact drive_routed hu hn (boundBy_outC2 s n p) _ hl
  rw [moveC2, hdrive, performDrives_setC2 hu hn (eventsOf_moveEvents s n p v _)]

theorem strobe_routed (hl : s0.chips.length = s.chips.length) :
    strobe (driveFrom n s0) n p s =
      performDrives (strobeEvents (s.pins n p).outC2 (s.port n p)) (s.setPort n p afterStrobe) := by
  have hu' := upwardWiring_setPort n p (fun q => { q with outC2 := false }) hu
  have hk := (eventsOf_moveEvents s n p false (s.port n p)).congr
    (chip_setPort_fixed s n n p fun q => { q with outC2 := false }).1
  rw [strobe, moveC2_routed hu hn hl, strobeEvents_eq,
    performDrives_andThen hu' (by simpa using hn) hk (f := afterStrobe) (fun _ => rfl)
      (fs := if strobeEReset (s.port n p).ctl then eventOn (s.pins n p).outC2 (.level true) else []) ?_, setPort_setPort]
  · rfl
  · intro t ht
    have hport : t.port n p = { s.port n p with outC2 := false } := ht.written hn
    have hpins : t.pins n p = s.pins n p := by rw [ht.pins, pins_setPort]
    have hlen : t.chips.length = s.chips.length := by rw [ht.chips_length, setPort_length]
    have hut := ht.upwardWiring hu'
    have hstrobe : t.setPort n p afterStrobe =
        t.setPort n p fun q => { q with outC2 := strobeEReset (s.port n p).ctl } :=
      setPort_congr (by rw [hport]; rfl)
    have hb : BoundBy t n (s.pins n p).outC2 := hpins ▸ boundBy_outC2 t n p
    rw [hport, hpins, hstrobe]
    split
    · next he =>
      rw [drive_routed hut (hlen ▸ hn) hb _ (hl.trans hlen.symm), performDrives_setC2 hut (hlen ▸ hn) (eventsOf_eventOn hb _)]
      exact congrArg (performDrives _) (setPort_congr (by rw [he]))
    · next he =>
      rw [setPort_eq_self (by rw [hport, eq_false_of_ne_true he])]
      rfl

theorem strobeIfArmed_routed :
    strobeIfArmed n p s =
      performDrives (strobedEvents (s.pins n p).outC2 (s.port n p)) (s.setPort n p strobed) := by
  unfold strobeIfArmed strobedEvents
  split
  · next hstrobe => rw [strobe_routed hu hn rfl, setPort_congr (g := strobed) (by rw [strobed, if_pos hstrobe])]
  · next hstrobe => rw [setPort_eq_self (by rw [strobed, if_neg hstrobe]), performDrives]

/-- Drives, then the strobe in strobe mode, where the drives come after a write of the port. -/
theorem performDrives_strobeIfArmed {es : List Event} (hk : EventsOf s n es) :
    andThen (performDrives es s) (strobeIfArmed n p) =
      performDrives (es ++ strobedEvents (s.pins n p).outC2 (s.port n p)) (s.setPort n p strobed) := by
  refine performDrives_andThen hu hn hk strobed_irqState fun t ht => ?_
  rw [strobeIfArmed_routed (ht.upwardWiring hu) (ht.chips_length.symm ▸ hn), ht.pins, ht.port]

theorem driveOutput_routed :
    driveOutput n p s = performDrives (outputEvents (s.pins n p).outPort (s.port n p)) s := by
  unfold driveOutput outputEvents
  simp only
  split
  · rfl
  · exact drive_routed hu hn (boundBy_outPort s n p) _ rfl

/-! ### The register operations -/

theorem readDataCommon_routed :
    readDataCommon n p s =
      andThen (performDrives (irqEvent (s.port n p).irqState false (s.pins n p).irq (s.dataCleared n p).chips)
        (s.dataCleared n p)) fun t => .next (t, s.dataByte n p) := by
  rw [readDataCommon_eq hn, driveAll_routed (upwardWiring_dataCleared hu n p) (by simpa [State.dataCleared] using hn)
    (eventsOf_clear s n p) (by simp [State.dataCleared, latchInput_eq])]

theorem regReadData_routed :
    regRead (dataReadOf p) n s =
      andThen (performDrives (s.dataReadEvents n p) (s.dataLatched n p)) fun t => .next (t, s.dataByte n p) := by
  cases p with
  | a =>
    have hua : (s.dataCleared n .a).upwardWiring rank = true :=
      upwardWiring_dataCleared hu n .a
    have hna : n < (s.dataCleared n .a).chips.length := by simpa [State.dataCleared] using hn
    have hstrobe := performDrives_strobeIfArmed (p := .a) hua hna (eventsOf_clear s n .a)
    rw [port_dataCleared hn, pins_dataCleared, ← dataLatched_a] at hstrobe
    show andThen (readDataCommon n .a s) (fun r => andThen (strobeIfArmed n .a r.1) fun s3 => .next (s3, r.2)) = _
    rw [readDataCommon_routed hu hn, andThen_assoc, dataReadEvents_a]
    refine Eq.trans ?_ (congrArg (andThen · fun t => .next (t, s.dataByte n .a)) hstrobe)
    rw [andThen_assoc]
    rfl
  | b =>
    show readDataCommon n .b s = _
    rw [readDataCommon_routed hu hn, dataReadEvents_b, dataLatched_b]

theorem writeOut_routed (d : Byte) :
    writeOut n p d s =
      performDrives (outputEvents (s.pins n p).outPort { s.port n p with out := d })
        (s.setPort n p fun q => { q with out := d }) := by
  rw [writeOut, driveOutput_routed (upwardWiring_setPort n p _ hu) (by simpa using hn), pins_setPort,
    port_setPort_same s p _ hn]

theorem regWriteData_routed (d : Byte) :
    regWrite (dataWriteOf p) n d s = performDrives (s.dataWriteEvents n p d) (s.setPort n p (afterDataWrite p d)) := by
  unfold State.dataWriteEvents
  cases p with
  | a =>
    show writeOut n .a d s = _
    rw [writeOut_routed hu hn]
    simp only [List.append_nil]
    rfl
  | b =>
    have hk : EventsOf (s.setPort n .b fun q => { q with out := d }) n
        (outputEvents (s.pins n .b).outPort { s.port n .b with out := d }) := by
      refine eventsOf_ite _ (eventsOf_nil _ n) (eventsOf_eventOn ?_ _)
      rw [← pins_setPort s n n .b .b fun q => { q with out := d }]
      exact boundBy_outPort _ n .b
    show andThen (writeOut n .b d s) (strobeIfArmed n .b) = _
    rw [writeOut_routed hu hn, performDrives_strobeIfArmed (upwardWiring_setPort n .b _ hu) (by simpa using hn) hk,
      setPort_setPort, pins_setPort, port_setPort_same s .b _ hn]
    rfl

theorem regWriteDdr_routed (d : Byte) (hd : d ≠ (s.port n p).ddr) :
    regWrite (ddrWriteOf p) n d s =
      performDrives (outputEvents (s.pins n p).outPort { s.port n p with ddr := d })
        (s.setPort n p fun q => { q with ddr := d }) := by
  have hrow : regWrite (ddrWriteOf p) n d s = writeDdr n p d s := by cases p <;> rfl
  rw [hrow, writeDdr, if_neg hd, driveOutput_routed (upwardWiring_setPort n p _ hu) (by simpa using hn), pins_setPort,
    port_setPort_same s p _ hn]

/-- The C2 event of a control write, before its value is stored (40 R109 steps 2 to 5). -/
theorem moveC2_ctlWrite_routed (d : Byte) :
    (if c2Output (ctlOfData d) then moveC2 (driveFrom n s) n p (setC2 (ctlOfData d)) s else .next s) =
      answerSetPort n p (fun q => { q with outC2 := if c2Output (ctlOfData d) then setC2 (ctlOfData d) else q.outC2 })
        (performDrives (ctlWriteEvents d (s.pins n p).outC2 (s.port n p)) s) := by
  unfold ctlWriteEvents
  simp only
  split
  · next hout =>
    have hevents : moveEvents (s.pins n p).outC2 (setC2 (ctlOfData d)) (s.port n p) =
        if (true && (s.port n p).outC2 != setC2 (ctlOfData d)) = true then
          eventOn (s.pins n p).outC2 (.level (setC2 (ctlOfData d))) else [] := by
      unfold moveEvents
      by_cases hlevel : (s.port n p).outC2 = setC2 (ctlOfData d) <;> simp [hlevel]
    rw [moveC2_routed hu hn rfl, ← performDrives_setC2 hu hn (eventsOf_moveEvents s n p _ _), hevents, hout, answerSetPort]
  · next hout =>
    rw [eq_false_of_ne_true hout]
    exact congrArg Host.Outcome.next (setPort_eq_self rfl).symm

theorem regWriteCtl_routed (d : Byte) :
    regWrite (ctlWriteOf p) n d s =
      andThen (performDrives (ctlWriteEvents d (s.pins n p).outC2 (s.port n p)) s) fun t =>
        performDrives (t.ctlIrqEvents n p d) (t.setPort n p (afterCtlWrite d)) := by
  have hrow : regWrite (ctlWriteOf p) n d s = writeCtl n p d s := by cases p <;> rfl
  have hk : EventsOf s n (ctlWriteEvents d (s.pins n p).outC2 (s.port n p)) :=
    eventsOf_ite _ (eventsOf_eventOn (boundBy_outC2 s n p) _) (eventsOf_nil s n)
  rw [hrow, writeCtl, moveC2_ctlWrite_routed hu hn, answerSetPort, andThen_assoc]
  refine andThen_congr fun t ht => ?_
  have hcascade := performDrives_cascade hu hn hk ht
  have hlen := hcascade.chips_length
  rw [andThen_next, setPort_setPort,
    updateIrq_routed (upwardWiring_setPort n p _ (hcascade.upwardWiring hu)) (by simpa [hlen] using hn) (by simp),
    setPort_setPort, pins_setPort, port_setPort_same t p _ (hlen.symm ▸ hn)]
  rfl

end

/-! ### The access of the key's register, on either bus (20 R62, 30 R81) -/

section
variable {s : State} {i : Instr} {c : Int} {off n : Nat}

theorem mem_of_readAccess (h : readAccess i = some (c, off)) :
    i ∈ byteReads c off ∧ isByteAccess i = true ∨ i ∈ wordReads c off ∧ isByteAccess i = false := by
  cases i <;> cases h <;> simp [byteReads, wordReads, isByteAccess]

theorem mem_of_writeAccess (h : writeAccess i = some (c, off)) :
    (∃ d, i ∈ byteWrites c off d ∧ (∀ n, s.byteWritten n i = some d) ∧ isByteAccess i = true) ∨
      ∃ w, i ∈ wordWrites c off w ∧
        (∀ n, s.byteWritten n i = writeLane s.autosenseZero (s.chip n).addressing.bus w) ∧ isByteAccess i = false := by
  cases i <;> cases h <;> simp [byteWrites, wordWrites, isByteAccess, State.byteWritten]

/-- A bus read of the width that the chip's mode fixes gives the byte of the register that its key names. -/
theorem exec_of_reads {op : ReadOp} (h : s.reads i n op) (hw : s.widthFits i) :
    exec i s = andThen (regRead op n s) fun r => .next { r.1 with result := s.given n r.2 } := by
  obtain ⟨c, off, ha, hc, rfl⟩ := h
  have hfit := hw c off n (.inl ha) hc
  rcases mem_of_readAccess ha with ⟨hmem, hbyte⟩ | ⟨hmem, hword⟩
  · obtain ⟨op, hexec⟩ := exec_of_mem_byteReads hmem
    have hb := hfit.2 hbyte
    rw [hexec, busRead_of_chip op hc hb]
    exact andThen_congr fun r _ => by rw [giveByte, State.given, hb]
  · obtain ⟨lane, hexec⟩ := exec_of_mem_wordReads hmem
    have hb : (s.chip n).addressing.bus ≠ .b8 := fun e => by rw [hfit.1 e] at hword; cases hword
    rw [hexec, busRead16_of_chip lane hc hb]
    exact andThen_congr fun r _ => by rw [giveLanes, readLanes_eq_given hb]

/-- A bus write of that width writes the byte it brings to the register that its key names. -/
theorem exec_of_writes {op : WriteOp} {d : Byte} (h : s.writes i n op) (hw : s.widthFits i) (hd : s.byteWritten n i = some d) :
    exec i s = regWrite op n d s := by
  obtain ⟨c, off, ha, hc, rfl⟩ := h
  have hfit := hw c off n (.inr ha) hc
  rcases mem_of_writeAccess (s := s) ha with ⟨d', hmem, hbrings, hbyte⟩ | ⟨w, hmem, hbrings, hword⟩
  · obtain ⟨op, hexec⟩ := exec_of_mem_byteWrites hmem
    cases hd.symm.trans (hbrings n)
    rw [hexec, busWrite_of_chip op d hc (hfit.2 hbyte)]
  · have hb : (s.chip n).addressing.bus ≠ .b8 := fun e => by rw [hfit.1 e] at hword; cases hword
    rw [exec_of_lane_some hmem hc hb ((hbrings n).symm.trans hd), writeSlot]

end

/-- Settles O43: an access is the register operation that its key names, and each of those is its write of the port and its drives
in order. -/
theorem routedBusDrives : Obligations.RoutedBusDrives := by
  intro rank s i n p hu hw
  refine ⟨fun hr => ?_, fun data hd => ⟨fun hi => ?_, fun hi hne => ?_, fun hi => ?_⟩⟩
  · rw [exec_of_reads hr hw, regReadData_routed hu hr.lt, andThen_assoc]
    rfl
  · rw [exec_of_writes hi hw hd, regWriteData_routed hu hi.lt]
  · rw [exec_of_writes hi hw hd, regWriteDdr_routed hu hi.lt data hne]
  · rw [exec_of_writes hi hw hd, regWriteCtl_routed hu hi.lt]

end Sys2Proof.Machine

/-! PROOFS. The handshake of 46 R196: a pulse on an enabled C1 line raises the chip's interrupt line, the data read drops it, and
what either event is routed to is performed inside the access. -/

namespace Sys2Proof.Machine

/-! ### Drives whose routes sample no chip, and deliveries to a chip that is free -/

/-- The state with one more event in its trace. -/
def State.traced (s : State) (e : Event) : State := { s with trace := s.trace ++ [e] }

theorem driveWith_some (sample : LineSampler) (k : Nat) (v : SinkValue) (s : State) :
    driveWith sample (some k) v s = performActions sample (routeOf k v s.routes) (s.traced ⟨k, v⟩) := rfl

/-- An event that is routed to the adapter and the scheduler only is emitted, whatever else the wiring routes (46 R192). -/
theorem drive_plainRoute {k : Nat} {v : SinkValue} {s : State}
    (h : ∀ x ∈ routeOf k v s.routes, lineTarget s.chips.length x = none) (fuel : Nat) (busy : List Nat) :
    driveWith (deliverLine fuel busy) (some k) v s = .next (s.emit ⟨k, v⟩) :=
  performActions_plain (s := s.traced ⟨k, v⟩) (deliverLine_none fuel busy) h

theorem deliverLine_of_free {s : State} {c : Int} {m : Nat} {busy : List Nat} (hc : s.chipIndex c = some m) (hm : m ∉ busy)
    (fuel : Nat) (l : Line) (v : Bool) :
    deliverLine (fuel + 1) busy c l v s = setLine (driveWith (deliverLine fuel (m :: busy))) m l v s := by
  simp only [deliverLine, hc, List.contains_eq_mem, decide_eq_true_eq, if_neg hm]

theorem emit_setPort (s : State) (e : Event) (n : Nat) (p : PortId) (f : Port → Port) :
    (s.emit e).setPort n p f = (s.setPort n p f).emit e :=
  (emitAll_setPort s [e] n p f).symm

theorem port_emit (s : State) (e : Event) (n : Nat) (p : PortId) : (s.emit e).port n p = s.port n p :=
  port_emitAll s [e] n p

/-! ### A pulse on an enabled C1 line -/

/-- C1 of the port is enabled and nothing is pending: a flag of it raises line `k`, and restores nothing (42 R140 to R142). -/
structure State.ReadyC1 (s : State) (m : Nat) (p : PortId) (k : Nat) : Prop where
  configured : (s.chip m).configured = true
  irq : (s.pins m p).irq = some k
  enabled : irq1Enabled (s.port m p).ctl = true
  unrestored : restoredByC1 (s.port m p).ctl = false
  quiet : (s.port m p).irqState = false

/-- A port after its enabled C1 flag was raised by a sample `v`. -/
def raisedC1 (v : Bool) (q : Port) : Port := { q with irq1 := true, irqState := true, inC1 := v }

section
variable {s : State} {m k : Nat} {p : PortId} {drive : Driver}

theorem State.ReadyC1.congr {t : State} (h : s.ReadyC1 m p k) (hchip : t.chip m = s.chip m) : t.ReadyC1 m p k where
  configured := by rw [hchip]; exact h.configured
  irq := by rw [State.pins, hchip]; exact h.irq
  enabled := by rw [State.port, hchip]; exact h.enabled
  unrestored := by rw [State.port, hchip]; exact h.unrestored
  quiet := by rw [State.port, hchip]; exact h.quiet

/-- One asserting participant raises the line (42 R142). -/
theorem wireLevel_of_asserting (hm : m < s.chips.length) (hconf : (s.chip m).configured = true)
    (hirq : (s.pins m p).irq = some k) (hstate : (s.port m p).irqState = true) : wireLevel k s.chips = true := by
  have hmem : s.chip m ∈ s.chips := by rw [chip_eq_getElem hm]; exact List.getElem_mem hm
  have hasserts : assertsLine k (s.chip m) p = true := by
    rw [assertsLine, show (pinsOf (s.chip m) p).irq = some k from hirq, show (portOf (s.chip m) p).irqState = true from hstate]
    simp
  refine List.any_eq_true.2 ⟨s.chip m, hmem, ?_⟩
  cases p <;> simp [hconf, hasserts]

theorem sampleC1_unarmed {v : Bool} (h : armedEdge (c1LowToHigh (s.port m p).ctl) (s.port m p).inC1 v = false) :
    sampleC1 drive m p v s = .next (s.setPort m p fun q => { q with inC1 := v }) := by
  simp only [sampleC1, h, Bool.false_eq_true, if_false, andThen_next]

/-- The armed transition of an enabled C1: the flag and the aggregate, and the event of the line, now high (41 R131). -/
theorem sampleC1_raises {v : Bool} (h : s.ReadyC1 m p k) (hm : m < s.chips.length)
    (harmed : armedEdge (c1LowToHigh (s.port m p).ctl) (s.port m p).inC1 v = true)
    (hroute : ∀ x ∈ routeOf k (.level true) s.routes, lineTarget s.chips.length x = none) (fuel : Nat) (busy : List Nat) :
    sampleC1 (driveWith (deliverLine fuel busy)) m p v s = .next ((s.setPort m p (raisedC1 v)).emit ⟨k, .level true⟩) := by
  have hagg : aggregate { s.port m p with irq1 := true } = true := by simp [aggregate, h.enabled]
  have hport : (s.setPort m p fun q => { q with irq1 := true }).port m p = { s.port m p with irq1 := true } :=
    port_setPort_same s p _ hm
  have hstored : ((s.setPort m p fun q => { q with irq1 := true }).setPort m p storeAggregate) =
      s.setPort m p fun q => { q with irq1 := true, irqState := true } := by
    rw [setPort_setPort]
    exact setPort_congr (by simp only [Function.comp_apply, storeAggregate, hagg])
  have hwire : wireLevel k (s.setPort m p fun q => { q with irq1 := true, irqState := true }).chips = true := by
    refine wireLevel_of_asserting (p := p) (by simpa using hm) ?_ (by rw [pins_setPort]; exact h.irq) ?_
    · rw [(chip_setPort_fixed s m m p _).2.2]; exact h.configured
    · rw [port_setPort_same s p _ hm]
  have hup : updateIrq (driveWith (deliverLine fuel busy)) m p (s.setPort m p fun q => { q with irq1 := true }) =
      .next ((s.setPort m p fun q => { q with irq1 := true, irqState := true }).emit ⟨k, .level true⟩) := by
    rw [updateIrq_eq, hport, hagg, pins_setPort, h.irq, hstored, irqEvent]
    simp only
    rw [if_neg (by rw [h.quiet]; decide), driveAll_singleton, hwire]
    exact drive_plainRoute (by simpa using hroute) fuel busy
  simp only [sampleC1, harmed, if_true]
  rw [hup, andThen_next, port_emit, port_setPort_same s p _ hm, if_neg (by rw [h.unrestored]; decide), andThen_next,
    emit_setPort, setPort_setPort]
  rfl

/-- CB1 high, then low, on a chip that is armed for the fall: the rise is stored only, the fall raises (46 R196). -/
theorem performActions_pulse {y : Int} {busy : List Nat} (h : s.ReadyC1 m .b k) (hy : s.chipIndex y = some m)
    (hfall : c1LowToHigh (s.port m .b).ctl = false) (hfree : m ∉ busy)
    (hroute : ∀ x ∈ routeOf k (.level true) s.routes, lineTarget s.chips.length x = none) (fuel : Nat) :
    performActions (deliverLine (fuel + 1) busy) [.line y .cb1 true, .line y .cb1 false] s =
      .next ((s.setPort m .b (raisedC1 false)).emit ⟨k, .level true⟩) := by
  have hm := indexIn_lt hy
  have hport : (s.setPort m .b fun q => { q with inC1 := true }).port m .b = { s.port m .b with inC1 := true } :=
    port_setPort_same s .b _ hm
  have hready : (s.setPort m .b fun q => { q with inC1 := true }).ReadyC1 m .b k := by
    refine ⟨?_, by rw [pins_setPort]; exact h.irq, by rw [hport]; exact h.enabled, by rw [hport]; exact h.unrestored,
      by rw [hport]; exact h.quiet⟩
    rw [(chip_setPort_fixed s m m .b _).2.2]
    exact h.configured
  have hrise : deliverLine (fuel + 1) busy y .cb1 true s = .next (s.setPort m .b fun q => { q with inC1 := true }) := by
    rw [deliverLine_of_free hy hfree]
    exact sampleC1_unarmed (p := .b) (by simp only [hfall, armedEdge, beq_false, Bool.not_true, Bool.and_false])
  have hdrop : deliverLine (fuel + 1) busy y .cb1 false (s.setPort m .b fun q => { q with inC1 := true }) =
      .next ((s.setPort m .b (raisedC1 false)).emit ⟨k, .level true⟩) := by
    rw [deliverLine_of_free (by rw [chipIndex_setPort]; exact hy) hfree]
    refine (sampleC1_raises hready (by simpa using hm) (by rw [hport, hfall]; rfl) (by simpa using hroute) fuel _).trans ?_
    rw [setPort_setPort]
    rfl
  simp only [performActions, performAction]
  rw [hrise, andThen_next, hdrop, andThen_next]

end

/-! ### The signal -/

section
variable {s t : State} {n m j kx ky : Nat} {y i : Int} {data : Byte} {v : SinkValue}

/-- What the value `v` on sink `kx` leads to: a pulse on CB1 of chip `m`, which is ready for its fall, and from there the maskable
line of CPU `j` (46 R196). -/
structure State.Signals (s : State) (y i : Int) (m j kx ky : Nat) (v : SinkValue) : Prop where
  chip : s.chipIndex y = some m
  cpu : s.cpuIndex i = some j
  ready : s.ReadyC1 m .b ky
  fall : c1LowToHigh (s.port m .b).ctl = false
  pulse : routeOf kx v s.routes = [.line y .cb1 true, .line y .cb1 false]
  assert : routeOf ky (.level true) s.routes = [.assertLine i .maskable]

/-- The state with chip `m` signalled: its flag, its aggregate, the CPU's line, the two events. -/
def State.signalled (s : State) (m j kx ky : Nat) (v : SinkValue) : State :=
  { (s.setPort m .b (raisedC1 false)).setCpu j fun q => { q with lineM := true } with
    trace := s.trace ++ [⟨kx, v⟩, ⟨ky, .level true⟩] }

theorem emit_assert {k : Nat} (hroute : routeOf k v t.routes = [.assertLine i .maskable]) (hi : t.cpuIndex i = some j) :
    t.emit ⟨k, v⟩ = { t.setCpu j fun q => { q with lineM := true } with trace := t.trace ++ [⟨k, v⟩] } := by
  have hi : (t.traced ⟨k, v⟩).cpuIndex i = some j := hi
  show (routeOf k v t.routes).foldl plainAction (t.traced ⟨k, v⟩) = _
  simp only [hroute, List.foldl_cons, List.foldl_nil, plainAction, setLevel, hi]
  rfl

theorem State.Signals.drive (h : s.Signals y i m j kx ky v) {busy : List Nat} (hfree : m ∉ busy) (fuel : Nat) :
    driveWith (deliverLine (fuel + 1) busy) (some kx) v s = .next (s.signalled m j kx ky v) := by
  have hready : (s.traced ⟨kx, v⟩).ReadyC1 m .b ky := h.ready.congr rfl
  have hplain : ∀ x ∈ routeOf ky (.level true) s.routes, lineTarget s.chips.length x = none := by
    rw [h.assert]
    simp [lineTarget]
  have hassert := emit_assert (t := (s.traced ⟨kx, v⟩).setPort m .b (raisedC1 false)) h.assert h.cpu
  have htrace : (s.traced ⟨kx, v⟩).trace ++ [⟨ky, .level true⟩] = s.trace ++ [⟨kx, v⟩, ⟨ky, .level true⟩] :=
    List.append_assoc _ _ _
  rw [setPort_trace, htrace] at hassert
  rw [driveWith_some, h.pulse, performActions_pulse hready h.chip h.fall hfree hplain fuel, hassert]
  rfl

/-- The drive of X's port is where everything happens; the strobe, not in strobe mode, adds nothing (40 R111). -/
theorem regWriteData_signals (hn : n < s.chips.length) (hne : n ≠ m) (hddr : (s.port n .b).ddr ≠ 0)
    (hstrobe : strobes (s.port n .b).ctl = false) (hkx : (s.pins n .b).outPort = some kx)
    (h : (s.setPort n .b fun q => { q with out := data }).Signals y i m j kx ky (.byte (data &&& (s.port n .b).ddr))) :
    regWrite .dataB n data s =
      .next ((s.setPort n .b fun q => { q with out := data }).signalled m j kx ky (.byte (data &&& (s.port n .b).ddr))) := by
  have hport : (s.setPort n .b fun q => { q with out := data }).port n .b = { s.port n .b with out := data } :=
    port_setPort_same s .b _ hn
  obtain ⟨fuel, hfuel⟩ : ∃ fuel, (s.setPort n .b fun q => { q with out := data }).chips.length = fuel + 1 :=
    Nat.exists_eq_succ_of_ne_zero (by rw [setPort_length]; omega)
  have hwrite : writeOut n .b data s =
      .next ((s.setPort n .b fun q => { q with out := data }).signalled m j kx ky (.byte (data &&& (s.port n .b).ddr))) := by
    simp only [writeOut, driveOutput, hport, if_neg hddr, pins_setPort, hkx, driveFrom, hfuel]
    exact h.drive (by simpa using hne.symm) fuel
  have hctl : (((s.setPort n .b fun q => { q with out := data }).signalled m j kx ky
      (.byte (data &&& (s.port n .b).ddr))).port n .b).ctl = (s.port n .b).ctl := by
    have hother := port_setPort_other (s := s.setPort n .b fun q => { q with out := data }) (p := .b) (p' := .b)
      (raisedC1 false) (.inl hne)
    rw [hport] at hother
    exact (congrArg Port.ctl hother :)
  show andThen (writeOut n .b data s) (strobeIfArmed n .b) = _
  rw [hwrite, andThen_next, strobeIfArmed, hctl, hstrobe, if_neg Bool.false_ne_true]

end

/-! ### The acknowledgement -/

section
variable {s : State} {m j k : Nat} {i id : Int}

/-- Before its drives a data read has changed the chips and taken a sample, nothing else. -/
theorem dataCleared_eq (s : State) (n : Nat) (p : PortId) :
    ∃ chips answers draws, s.dataCleared n p = { s with chips := chips, answers := answers, draws := draws } := by
  obtain ⟨a, d, h⟩ := afterSampleOf_eq s (s.pins n p).inPort
  rw [State.dataCleared, h]
  exact ⟨_, _, _, rfl⟩

theorem dataCleared_routes (s : State) (n : Nat) (p : PortId) : (s.dataCleared n p).routes = s.routes := by
  obtain ⟨_, _, _, h⟩ := dataCleared_eq s n p
  rw [h]

theorem dataCleared_trace (s : State) (n : Nat) (p : PortId) : (s.dataCleared n p).trace = s.trace := by
  obtain ⟨_, _, _, h⟩ := dataCleared_eq s n p
  rw [h]

theorem dataCleared_cpus (s : State) (n : Nat) (p : PortId) : (s.dataCleared n p).cpus = s.cpus := by
  obtain ⟨_, _, _, h⟩ := dataCleared_eq s n p
  rw [h]

theorem dataCleared_waiters (s : State) (n : Nat) (p : PortId) : (s.dataCleared n p).waiters = s.waiters := by
  obtain ⟨_, _, _, h⟩ := dataCleared_eq s n p
  rw [h]

/-- A data read of a port whose aggregate is true: the line's event, where its routes sample no chip (40 R105, 42 R141). -/
theorem readDataCommon_emits {n : Nat} {p : PortId} (hn : n < s.chips.length) (hirq : (s.pins n p).irq = some k)
    (hstate : (s.port n p).irqState = true) {v : Bool} (hwire : wireLevel k (s.dataCleared n p).chips = v)
    (hroute : ∀ x ∈ routeOf k (.level v) s.routes, lineTarget s.chips.length x = none) :
    readDataCommon n p s = .next ((s.dataCleared n p).emit ⟨k, .level v⟩, s.dataByte n p) := by
  have hlen : (s.dataCleared n p).chips.length = s.chips.length := by simp [State.dataCleared]
  rw [readDataCommon_eq hn, hirq, irqEvent, hstate, if_neg (by decide), driveAll_singleton, hwire, driveFrom,
    drive_plainRoute (by rw [dataCleared_routes, hlen]; exact hroute), andThen_next]

/-- The level of the line depends on the stored aggregates only. -/
theorem wireLevel_dataCleared (k n : Nat) (p : PortId) (s : State) :
    wireLevel k (s.dataCleared n p).chips = wireLevel k (s.setPort n p fun q => { q with irqState := false }).chips := by
  rw [← wireLevel_setPort k n p
    (fun q => { q with irq1 := false, irq2 := false, inp := s.latched (s.pins n p).inPort (s.port n p).inp })
    (s.setPort n p fun q => { q with irqState := false }) fun _ => rfl, setPort_setPort]
  simp only [State.dataCleared, State.setPort, afterSampleOf_chips]
  rfl

theorem emit_clear_fire {t : State} {v : SinkValue} (hroute : routeOf k v t.routes = [.clearLine i .maskable, .fire id])
    (hi : t.cpuIndex i = some j) :
    t.emit ⟨k, v⟩ =
      fireTrigger id { t.setCpu j fun q => { q with lineM := false } with trace := t.trace ++ [⟨k, v⟩] } := by
  have hi : (t.traced ⟨k, v⟩).cpuIndex i = some j := hi
  show (routeOf k v t.routes).foldl plainAction (t.traced ⟨k, v⟩) = _
  simp only [hroute, List.foldl_cons, List.foldl_nil, plainAction, setLevel, hi]
  rfl

/-- CLEAR of the CPU's line, then FIRE of the trigger: the line is low, every waiter runs, the timeout is gone. -/
theorem emit_clear_fire_cpus {t : State} {v : SinkValue}
    (hroute : routeOf k v t.routes = [.clearLine i .maskable, .fire id]) (hi : t.cpuIndex i = some j) :
    ((t.emit ⟨k, v⟩).cpu j).lineM = false ∧
      (∀ l, (id, l) ∈ t.waiters → l < t.cpus.length → ((t.emit ⟨k, v⟩).cpu l).wait = .running) ∧
      mapGet id (t.emit ⟨k, v⟩).timeout = none := by
  rw [emit_clear_fire hroute hi]
  refine ⟨?_, fun l hl hlen => ?_, ?_⟩
  · have hcleared : ((t.setCpu j fun q => { q with lineM := false }).cpu j).lineM = false := by
      rw [cpu_setCpu t j j _ (indexIn_lt hi), if_pos rfl]
    rw [cpu_fireTrigger]
    split
    · exact hcleared
    · exact hcleared
  · rw [cpu_fireTrigger, if_pos ⟨hl, by simpa using hlen⟩]
  · rw [fireTrigger_timeout, mapGet_mapErase, if_pos rfl]

/-- The read clears flag and aggregate, and the line's fall reaches the CPU and the trigger inside it (46 R196). -/
theorem regReadData_acknowledges (hm : m < s.chips.length) (hirq : (s.pins m .b).irq = some k)
    (hstate : (s.port m .b).irqState = true)
    (hwire : wireLevel k (s.setPort m .b fun q => { q with irqState := false }).chips = false) (hi : s.cpuIndex i = some j)
    (hroute : routeOf k (.level false) s.routes = [.clearLine i .maskable, .fire id]) :
    ∃ t, regRead .dataB m s = .next (t, s.dataByte m .b) ∧ (t.port m .b).irq1 = false ∧ (t.port m .b).irqState = false ∧
      t.trace = s.trace ++ [⟨k, .level false⟩] ∧ (t.cpu j).lineM = false ∧
      (∀ l, (id, l) ∈ s.waiters → l < s.cpus.length → (t.cpu l).wait = .running) ∧ mapGet id t.timeout = none := by
  have hplain : ∀ x ∈ routeOf k (.level false) s.routes, lineTarget s.chips.length x = none := by
    rw [hroute]
    simp [lineTarget]
  have hport : ((s.dataCleared m .b).emit ⟨k, .level false⟩).port m .b = _ := (port_emit _ _ m .b).trans (port_dataCleared hm)
  have htrace := emit_trace (s.dataCleared m .b) ⟨k, .level false⟩
  have hcpu : (s.dataCleared m .b).cpuIndex i = some j := by rw [State.cpuIndex, dataCleared_cpus]; exact hi
  obtain ⟨hline, hwaits, htimeout⟩ :=
    emit_clear_fire_cpus (v := .level false) (by rw [dataCleared_routes]; exact hroute) hcpu
  rw [dataCleared_waiters, dataCleared_cpus] at hwaits
  rw [dataCleared_trace] at htrace
  exact ⟨_, readDataCommon_emits hm hirq hstate ((wireLevel_dataCleared k m .b s).trans hwire) hplain,
    congrArg Port.irq1 hport, congrArg Port.irqState hport, htrace, hline, hwaits, htimeout⟩

end

/-- Settles O45: the signal is the drive of X's data write, the acknowledgement the interrupt line's event of Y's data read. -/
theorem handshakeRouting : Obligations.HandshakeRouting := by
  refine ⟨?_, ?_⟩
  · intro s x y i off n m j kx ky data hne hx hddr hstrobe hkx hy hconf hirq hen hfall hrest hquiet hi hpulse hassert
    have hn := indexIn_lt hx.chip
    have hchip : (s.setPort n .b fun q => { q with out := data }).chip m = s.chip m := chip_setPort_ne s .b _ hne.symm
    have hready : s.ReadyC1 m .b ky := ⟨hconf, hirq, hen, hrest, hquiet⟩
    have hsignals : (s.setPort n .b fun q => { q with out := data }).Signals y i m j kx ky
        (.byte (data &&& (s.port n .b).ddr)) :=
      ⟨by rw [chipIndex_setPort]; exact hy, hi, hready.congr hchip, by rw [State.port, hchip]; exact hfall, hpulse, hassert⟩
    exact (exec_wrDataOf hx data).trans (regWriteData_signals hn hne hddr hstrobe hkx hsignals)
  · intro s y i id off m j ky hy hirq hstate hwire hi hroute
    obtain ⟨t, hread, hafter⟩ := regReadData_acknowledges (indexIn_lt hy.chip) hirq hstate hwire hi hroute
    exact ⟨_, (exec_rdDataOf hy).trans (congrArg (andThen · giveByte) hread), hafter⟩

end Sys2Proof.Machine

/-! PROOFS. The line samples an agent presents (41 R130 to R135): exactly, under a wiring without line routes and under one without
a cycle, and what they never do, under any wiring. -/

namespace Sys2Proof.Machine

section
variable {s t : State} {c : Int} {n : Nat} {p : PortId} {v : Bool} (hc : s.chipIndex c = some n)
include hc

/-! ### A presented sample is the edge latch of its port (41 R130) -/

theorem exec_lineC1Of (v : Bool) : exec (lineC1Of p c v) s = sampleC1 (driveFrom n s) n p v s := by
  rw [lineC1Of_eq, exec_op_line, presentLine_of_chip hc]
  cases p <;> rfl

theorem exec_lineC2Of (v : Bool) : exec (lineC2Of p c v) s = sampleC2 (driveFrom n s) n p v s := by
  rw [lineC2Of_eq, exec_op_line, presentLine_of_chip hc]
  cases p <;> rfl

theorem target_lineC1Of (v : Bool) : s.target (lineC1Of p c v) = some (n, p) := by
  rw [lineC1Of_eq, target_line, hc]
  cases p <;> rfl

theorem target_lineC2Of (v : Bool) : s.target (lineC2Of p c v) = some (n, p) := by
  rw [lineC2Of_eq, target_line, hc]
  cases p <;> rfl

/-! ### What a sample leaves in its port, under any wiring -/

theorem port_of_lineC1Of (h : exec (lineC1Of p c v) s = .next t) : t.port n p = afterC1 v (s.port n p) := by
  rw [exec_lineC1Of hc] at h
  exact (sampleC1_write (driveFrom_cascade n s) (indexIn_lt hc) h).written (indexIn_lt hc)

theorem port_of_lineC2Of (h : exec (lineC2Of p c v) s = .next t) : t.port n p = afterC2 v (s.port n p) := by
  rw [exec_lineC2Of hc] at h
  exact (sampleC2_write (driveFrom_cascade n s) h).written (indexIn_lt hc)

end

/-! ### What the edge latches keep of their port (41 R135) -/

/-- The aggregate is monotone in the flags (42 R140). -/
theorem PortKept.aggregate {q r : Port} (h : PortKept q r) (hq : aggregate q = true) : aggregate r = true := by
  obtain ⟨_, _, _, hctl, h1, h2⟩ := h
  simp only [Machine.aggregate, hctl, Bool.or_eq_true, Bool.and_eq_true] at hq ⊢
  exact hq.imp (And.imp_left h1) (And.imp_left h2)

section
variable (v : Bool) (q : Port)

theorem afterC1_inC1 : (afterC1 v q).inC1 = v := by
  unfold afterC1
  split <;> rfl

theorem afterC2_inC2 : (afterC2 v q).inC2 = v := by
  unfold afterC2
  split <;> rfl

theorem afterC1_portKept : PortKept q (afterC1 v q) := by
  unfold afterC1
  split
  · exact ⟨rfl, rfl, rfl, rfl, fun _ => rfl, id⟩
  · exact ⟨rfl, rfl, rfl, rfl, id, id⟩

theorem afterC2_portKept : PortKept q (afterC2 v q) := by
  unfold afterC2
  split
  · exact ⟨rfl, rfl, rfl, rfl, id, fun _ => rfl⟩
  · exact ⟨rfl, rfl, rfl, rfl, id, id⟩

variable {q}

theorem portConsistent_afterC1 (h : portConsistent q) : portConsistent (afterC1 v q) := by
  unfold afterC1
  split
  · rfl
  · exact h

theorem portConsistent_afterC2 (h : portConsistent q) : portConsistent (afterC2 v q) := by
  unfold afterC2
  split
  · rfl
  · exact h

end

/-- Settles O26: the port is the latch's write, which no cascade of its own drives reaches; it keeps the registers and the set flags,
of which the aggregate is a monotone function. -/
theorem lineSampleLaws : Obligations.LineSampleLaws := by
  intro s t c n p v hc
  refine ⟨fun h => ?_, fun h => ?_, fun i hi h => ?_⟩
  · rw [port_of_lineC1Of hc h]
    exact ⟨rfl, afterC1_inC1 v _⟩
  · rw [port_of_lineC2Of hc h]
    exact ⟨rfl, afterC2_inC2 v _⟩
  · have hport : PortKept (s.port n p) (t.port n p) ∧ (portConsistent (s.port n p) → portConsistent (t.port n p)) ∧
        s.target i = some (n, p) := by
      rcases hi with rfl | rfl
      · rw [port_of_lineC1Of hc h]
        exact ⟨afterC1_portKept v _, portConsistent_afterC1 v, target_lineC1Of hc v⟩
      · rw [port_of_lineC2Of hc h]
        exact ⟨afterC2_portKept v _, portConsistent_afterC2 v, target_lineC2Of hc v⟩
    obtain ⟨hkept, hcons, htarget⟩ := hport
    refine ⟨hkept.irq1, hkept.irq2, fun hq hstate => ?_, hkept.ctl, hkept.ddr, hkept.out, hkept.inp,
      ((ExecStep.of_exec h).onlyPort htarget).other⟩
    exact (hcons hq).trans (hkept.aggregate (hq.symm.trans hstate))

/-! ### The edge latches as writes of the port (41 R131, R132) -/

/-- The flag of an armed C1 sample. -/
def raiseC1 (q : Port) : Port := { q with irq1 := true }

/-- The flag of an armed C2 sample. -/
def raiseC2 (q : Port) : Port := { q with irq2 := true }

def storeC1 (v : Bool) (q : Port) : Port := { q with inC1 := v }

def storeC2 (v : Bool) (q : Port) : Port := { q with inC2 := v }

/-- The end of an armed C1 sample: C2 restored where the control bits say so, the sample stored (41 R131; D15). -/
def restoredC2 (v : Bool) (q : Port) : Port := storeC1 v { q with outC2 := restoredByC1 q.ctl || q.outC2 }

/-- The events of C1's restore of C2, once the sample is the armed transition (41 R131 steps 5, 6). -/
def armedRestoreEvents (b : Option Nat) (q : Port) : List Event := if restoredByC1 q.ctl then moveEvents b true q else []

section
variable {v : Bool} {q : Port} {drive : Driver} {n : Nat} {p : PortId} {s : State}

theorem afterC1_of_armed (h : armedEdge (c1LowToHigh q.ctl) q.inC1 v = true) :
    afterC1 v q = restoredC2 v (storeAggregate (raiseC1 q)) := by
  rw [afterC1, if_pos h]
  rfl

theorem afterC1_of_unarmed (h : armedEdge (c1LowToHigh q.ctl) q.inC1 v = false) : afterC1 v q = storeC1 v q := by
  rw [afterC1, h]
  rfl

theorem afterC2_of_armed (h : (c2Input q.ctl && armedEdge (c2LowToHigh q.ctl) q.inC2 v) = true) :
    afterC2 v q = storeC2 v (storeAggregate (raiseC2 q)) := by
  rw [afterC2, if_pos h]
  rfl

theorem afterC2_of_unarmed (h : (c2Input q.ctl && armedEdge (c2LowToHigh q.ctl) q.inC2 v) = false) :
    afterC2 v q = storeC2 v q := by
  rw [afterC2, h]
  rfl

theorem restoreEvents_of_armed (b : Option Nat) (h : armedEdge (c1LowToHigh q.ctl) q.inC1 v = true) :
    restoreEvents v b q = armedRestoreEvents b q := by
  unfold restoreEvents armedRestoreEvents moveEvents
  rw [h]
  cases restoredByC1 q.ctl <;> cases q.outC2 <;> rfl

theorem restoreEvents_of_unarmed (b : Option Nat) (h : armedEdge (c1LowToHigh q.ctl) q.inC1 v = false) :
    restoreEvents v b q = [] := by
  rw [restoreEvents, h]
  rfl

theorem irqEvent_self (x : Bool) (b : Option Nat) (chips : List Chip) : irqEvent x x b chips = [] := by
  cases b with
  | none => rfl
  | some k => exact if_pos rfl

theorem sampleC1_of_armed (h : armedEdge (c1LowToHigh (s.port n p).ctl) (s.port n p).inC1 v = true) :
    sampleC1 drive n p v s =
      andThen (updateIrq drive n p (s.setPort n p raiseC1)) fun t =>
        andThen (if restoredByC1 (t.port n p).ctl then moveC2 drive n p true t else .next t) fun u =>
          .next (u.setPort n p (storeC1 v)) := by
  rw [sampleC1, if_pos h, andThen_assoc]
  rfl

theorem sampleC2_of_armed
    (h : (c2Input (s.port n p).ctl && armedEdge (c2LowToHigh (s.port n p).ctl) (s.port n p).inC2 v) = true) :
    sampleC2 drive n p v s =
      andThen (updateIrq drive n p (s.setPort n p raiseC2)) fun t => .next (t.setPort n p (storeC2 v)) := by
  rw [sampleC2, if_pos h]
  rfl

theorem sampleC2_unarmed
    (h : (c2Input (s.port n p).ctl && armedEdge (c2LowToHigh (s.port n p).ctl) (s.port n p).inC2 v) = false) :
    sampleC2 drive n p v s = .next (s.setPort n p (storeC2 v)) := by
  rw [sampleC2, if_neg (ne_true_of_eq_false h)]
  rfl

end

/-! ### The drives of a sample, under a wiring without a cycle -/

section
variable {rank : Nat → Nat} {n : Nat} {p : PortId} {s s0 : State} (hu : s.upwardWiring rank = true) (hn : n < s.chips.length)
include hu hn

/-- The restore of C2 and the stored sample are one write and the restore's event (41 R131 steps 5 to 8; D15). -/
theorem restoreC2_routed (hl : s0.chips.length = s.chips.length) (v : Bool) :
    (andThen (if restoredByC1 (s.port n p).ctl then moveC2 (driveFrom n s0) n p true s else .next s) fun u =>
        .next (u.setPort n p (storeC1 v))) =
      performDrives (armedRestoreEvents (s.pins n p).outC2 (s.port n p)) (s.setPort n p (restoredC2 v)) := by
  unfold armedRestoreEvents
  split
  · next hr =>
    have hk := (eventsOf_moveEvents s n p true (s.port n p)).congr
      (chip_setPort_fixed s n n p fun q => { q with outC2 := true }).1
    have hstore := performDrives_setPort (p := p) (upwardWiring_setPort n p _ hu) (by simpa using hn) hk (f := storeC1 v)
      fun _ => rfl
    rw [moveC2_routed hu hn hl, ← answerSetPort, ← hstore, setPort_setPort]
    exact congrArg (performDrives _) (setPort_congr (by simp only [Function.comp_apply, restoredC2, hr, Bool.true_or]))
  · next hr =>
    exact congrArg Host.Outcome.next (setPort_congr (by simp only [restoredC2, eq_false_of_ne_true hr, Bool.false_or]))

/-- What an armed sample of either line does: `raise` sets its flag, the aggregate is stored, `finish` is all that the rest writes.
The writes may all come first: the interrupt line's event and what it cascades into do not look at them. -/
theorem raise_routed {raise finish after : Port → Port} {rest : State → Answer} {es : List Event}
    (hraise : ∀ q, (raise q).irqState = q.irqState) (hfinish : ∀ q, (finish q).irqState = q.irqState)
    (hafter : after (s.port n p) = finish (storeAggregate (raise (s.port n p))))
    (hrest : ∀ t, Cascade [n] (s.setPort n p (storeAggregate ∘ raise)) t → rest t = performDrives es (t.setPort n p finish)) :
    andThen (updateIrq (driveFrom n s) n p (s.setPort n p raise)) rest =
      performDrives
        (irqEvent (s.port n p).irqState (after (s.port n p)).irqState (s.pins n p).irq (s.setPort n p after).chips ++ es)
        (s.setPort n p after) := by
  have hwrite : s.setPort n p after = (s.setPort n p (storeAggregate ∘ raise)).setPort n p finish :=
    (setPort_congr hafter).trans (setPort_setPort s n p _ finish).symm
  have hirq : updateIrq (driveFrom n s) n p (s.setPort n p raise) =
      performDrives (irqEvent (s.port n p).irqState (after (s.port n p)).irqState (s.pins n p).irq (s.setPort n p after).chips)
        (s.setPort n p (storeAggregate ∘ raise)) := by
    rw [updateIrq_routed (upwardWiring_setPort n p raise hu) (by simpa using hn) (by simp), port_setPort_same s p raise hn,
      pins_setPort, setPort_setPort, hwrite, irqEvent_setPort _ _ _ _ _ _ hfinish, hafter, hfinish, hraise]
    rfl
  have hk : EventsOf (s.setPort n p (storeAggregate ∘ raise)) n
      (irqEvent (s.port n p).irqState (after (s.port n p)).irqState (s.pins n p).irq (s.setPort n p after).chips) :=
    (eventsOf_irqEvent (boundBy_irq s n p) _ _ _).congr (chip_setPort_fixed s n n p _).1
  rw [hirq, performDrives_andThen (upwardWiring_setPort n p _ hu) (by simpa using hn) hk hfinish hrest, ← hwrite]

theorem sampleC1_routed (v : Bool) :
    sampleC1 (driveFrom n s) n p v s =
      performDrives
        (irqEvent (s.port n p).irqState (afterC1 v (s.port n p)).irqState (s.pins n p).irq (s.setPort n p (afterC1 v)).chips ++
          restoreEvents v (s.pins n p).outC2 (s.port n p))
        (s.setPort n p (afterC1 v)) := by
  cases harmed : armedEdge (c1LowToHigh (s.port n p).ctl) (s.port n p).inC1 v with
  | true =>
    rw [sampleC1_of_armed harmed, restoreEvents_of_armed _ harmed]
    refine raise_routed hu hn (raise := raiseC1) (finish := restoredC2 v) (fun _ => rfl) (fun _ => rfl)
      (afterC1_of_armed harmed) fun t ht => ?_
    have hlen : t.chips.length = s.chips.length := by rw [ht.chips_length, setPort_length]
    rw [restoreC2_routed (ht.upwardWiring (upwardWiring_setPort n p _ hu)) (hlen ▸ hn) hlen.symm, ht.written hn, ht.pins,
      pins_setPort]
    rfl
  | false =>
    rw [sampleC1_unarmed harmed, restoreEvents_of_unarmed _ harmed, afterC1_of_unarmed harmed,
      setPort_congr (f := afterC1 v) (afterC1_of_unarmed harmed), storeC1, irqEvent_self]
    rfl

theorem sampleC2_routed (v : Bool) :
    sampleC2 (driveFrom n s) n p v s =
      performDrives
        (irqEvent (s.port n p).irqState (afterC2 v (s.port n p)).irqState (s.pins n p).irq (s.setPort n p (afterC2 v)).chips)
        (s.setPort n p (afterC2 v)) := by
  cases harmed : c2Input (s.port n p).ctl && armedEdge (c2LowToHigh (s.port n p).ctl) (s.port n p).inC2 v with
  | true =>
    rw [sampleC2_of_armed harmed, ← List.append_nil (irqEvent _ _ _ _)]
    exact raise_routed hu hn (raise := raiseC2) (finish := storeC2 v) (fun _ => rfl) (fun _ => rfl)
      (afterC2_of_armed harmed) fun t _ => rfl
  | false =>
    rw [sampleC2_unarmed harmed, afterC2_of_unarmed harmed, setPort_congr (f := afterC2 v) (afterC2_of_unarmed harmed), storeC2,
      irqEvent_self]
    rfl

end

/-- Settles O44: each edge latch is its write of the port, then its drives in order, which perform what they are routed to. -/
theorem routedLineDrives : Obligations.RoutedLineDrives := by
  intro rank s c n p v hu hc
  have hn := indexIn_lt hc
  exact ⟨(exec_lineC1Of hc v).trans (sampleC1_routed hu hn v), (exec_lineC2Of hc v).trans (sampleC2_routed hu hn v)⟩

end Sys2Proof.Machine

namespace Sys2Proof

open Machine

/-- Settles O23: without line routes every drive of the C1 latch is its event's emission. -/
theorem sampleC1 : Obligations.SampleC1 := by
  intro s c n p v hc hs
  have hn := indexIn_lt hc
  rw [exec_lineC1Of hc, sampleC1_plain (driveFrom_plain n s) hn hs, port_setPort_same s p _ hn]

/-- Settles O24: without line routes the drive of the C2 latch is its event's emission. -/
theorem sampleC2 : Obligations.SampleC2 := by
  intro s c n p v hc hs
  have hn := indexIn_lt hc
  rw [exec_lineC2Of hc, sampleC2_plain (driveFrom_plain n s) hn hs, port_setPort_same s p _ hn]

end Sys2Proof

/-! PROOFS. The wire-OR (42 R142), and a line that two chips share (42 R144). -/

namespace Sys2Proof.Machine

/-! ### The level of a line -/

theorem assertsLine_eq_true_iff {k : Nat} {ch : Chip} {p : PortId} :
    assertsLine k ch p = true ↔ (pinsOf ch p).irq = some k ∧ (portOf ch p).irqState = true := by
  rw [assertsLine, Bool.and_eq_true, beq_iff_eq]

/-- A chip has two ports. -/
theorem assertsLine_or_iff {k : Nat} {ch : Chip} :
    (assertsLine k ch .a || assertsLine k ch .b) = true ↔ ∃ p, assertsLine k ch p = true := by
  rw [Bool.or_eq_true]
  constructor
  · rintro (ha | hb)
    · exact ⟨.a, ha⟩
    · exact ⟨.b, hb⟩
  · rintro ⟨p, h⟩
    cases p with
    | a => exact .inl h
    | b => exact .inr h

/-- Settles O38: the line is the OR over the configured chips, and a chip's part of it the OR over its two ports. -/
theorem wireOrLevel : Obligations.WireOrLevel := by
  intro k chips
  simp only [wireLevel, List.any_eq_true, Bool.and_eq_true, assertsLine_or_iff, assertsLine_eq_true_iff, exists_and_left]

/-- A line is low exactly when no configured port bound to it has its aggregate true. -/
theorem wireLevel_eq_false_iff {k : Nat} {s : State} :
    wireLevel k s.chips = false ↔
      ∀ n p, (s.chip n).configured = true → (s.pins n p).irq = some k → (s.port n p).irqState = false := by
  have hblank : ∀ p, Chip.unconfigured.configured = true → (pinsOf Chip.unconfigured p).irq = some k →
      (portOf Chip.unconfigured p).irqState = false := fun _ h => nomatch h
  rw [← Bool.not_eq_true, wireOrLevel k s.chips]
  refine Iff.trans ?_ (forall_chips_iff s (P := fun ch => ∀ p, ch.configured = true → (pinsOf ch p).irq = some k →
    (portOf ch p).irqState = false) hblank)
  simp only [not_exists, not_and, Bool.not_eq_true]

/-! ### Routes that sample no chip, and the data read of a port whose C2 is an input -/

section
variable {s : State} {k : Nat} {p : PortId} {q : Port}

/-- What a drive is routed to, under a wiring without line routes. -/
theorem lineTarget_routeOf (hs : s.noLineRoutes = true) (w : SinkValue) :
    ∀ x ∈ routeOf k w s.routes, lineTarget s.chips.length x = none := by
  intro x hx
  obtain ⟨e, he, hxe⟩ := routeOf_mem hx
  exact Option.isNone_iff_eq_none.1 (List.all_eq_true.1 (List.all_eq_true.1 hs e he) x hxe)

theorem strobes_of_c2Input {v : Ctl} (h : c2Input v = true) : strobes v = false := by
  rw [c2Input, Bool.not_eq_true'] at h
  rw [strobes, c2Output, h, Bool.false_and]

theorem afterDataRead_of_c2Input (h : c2Input q.ctl = true) (x : Byte) :
    afterDataRead p x q = afterClear { q with inp := x } := by
  cases p with
  | a => rw [afterDataRead, strobes_of_c2Input h]; rfl
  | b => rfl

theorem dataReadStrobe_of_c2Input (b : Option Nat) (h : c2Input q.ctl = true) : dataReadStrobe p b q = [] := by
  cases p with
  | a => rw [dataReadStrobe, strobes_of_c2Input h]; rfl
  | b => rfl

/-- Before its drives a data read has written its port and taken a sample, nothing else. -/
theorem dataLatched_eq (s : State) (n : Nat) (p : PortId) :
    ∃ answers draws, s.dataLatched n p =
      { s.setPort n p (afterDataRead p (s.latched (s.pins n p).inPort (s.port n p).inp)) with
        answers := answers, draws := draws } := by
  obtain ⟨a, d, h⟩ := afterSampleOf_eq s (s.pins n p).inPort
  rw [State.dataLatched, h]
  exact ⟨_, _, rfl⟩

end

/-! ### One participant's move -/

/-- Port `p` of chip `n`, whose data slot is at `off`, takes part in line `k`: C1 is enabled and armed for a rise, C2 is an input,
the output register is selected. -/
structure State.Participant (s : State) (c : Int) (off n : Nat) (p : PortId) (k : Nat) : Prop where
  data : s.AtData c off n p true
  configured : (s.chip n).configured = true
  irq : (s.pins n p).irq = some k
  enabled : irq1Enabled (s.port n p).ctl = true
  rise : c1LowToHigh (s.port n p).ctl = true
  c2 : c2Input (s.port n p).ctl = true

/-- The aggregate of port `p` of chip `n` becomes `v` and line `k` is driven with its level once; no other port, no binding and no
control register changes. -/
structure LineMove (k n : Nat) (p : PortId) (v : Bool) (s t : State) : Prop where
  length : t.chips.length = s.chips.length
  noLineRoutes : t.noLineRoutes = s.noLineRoutes
  bindings : BindingsKept s t
  other : ∀ m p', m ≠ n ∨ p' ≠ p → t.port m p' = s.port m p'
  ctl : (t.port n p).ctl = (s.port n p).ctl
  irqState : (t.port n p).irqState = v
  trace : t.trace = s.trace ++ [⟨k, .level (wireLevel k t.chips)⟩]

section
variable {s t : State} {c : Int} {off n k : Nat} {p : PortId} {v : Bool}

/-- A write of the port, then the event of the line. -/
theorem LineMove.of_write {f : Port → Port} (hn : n < s.chips.length) (hchips : t.chips = (s.setPort n p f).chips)
    (hroutes : t.routes = s.routes) (hctl : (f (s.port n p)).ctl = (s.port n p).ctl)
    (hirq : (f (s.port n p)).irqState = v) (htrace : t.trace = s.trace ++ [⟨k, .level (wireLevel k t.chips)⟩]) :
    LineMove k n p v s t := by
  have hlen : t.chips.length = s.chips.length := by rw [hchips, setPort_length]
  have hport : ∀ m p', t.port m p' = (s.setPort n p f).port m p' := fun m p' => by
    simp only [State.port, chip_congr hchips]
  have hown : t.port n p = f (s.port n p) := (hport n p).trans (port_setPort_same s p f hn)
  exact {
    length := hlen
    noLineRoutes := noLineRoutes_congr hroutes hlen
    bindings := fun m => chip_congr hchips m ▸ chip_setPort_fixed s n m p f
    other := fun m p' hne => (hport m p').trans (port_setPort_other f hne)
    ctl := by rw [hown, hctl]
    irqState := by rw [hown, hirq]
    trace := htrace }

theorem LineMove.ctl_eq (h : LineMove k n p v s t) (m : Nat) (p' : PortId) : (t.port m p').ctl = (s.port m p').ctl := by
  by_cases hown : m = n ∧ p' = p
  · obtain ⟨rfl, rfl⟩ := hown
    exact h.ctl
  · rw [h.other m p' (not_and_or.1 hown)]

theorem State.Participant.move {m : Nat} {p' : PortId} (h : s.Participant c off n p k) (hm : LineMove k m p' v s t) :
    t.Participant c off n p k := by
  obtain ⟨_, haddressing, hconfigured⟩ := hm.bindings n
  have hctl := hm.ctl_eq n p
  refine ⟨⟨?_, ?_, ?_, ?_⟩, ?_, ?_, ?_, ?_, ?_⟩
  · rw [State.chipIndex, hm.length]; exact h.data.chip
  · rw [haddressing]; exact h.data.bus
  · rw [haddressing]; exact h.data.slot
  · rw [hctl]; exact h.data.select
  · rw [hconfigured]; exact h.configured
  · rw [hm.bindings.pins]; exact h.irq
  · rw [hctl]; exact h.enabled
  · rw [hctl]; exact h.rise
  · rw [hctl]; exact h.c2

theorem State.Participant.lt (h : s.Participant c off n p k) : n < s.chips.length := indexIn_lt h.data.chip

theorem State.Participant.line_high (h : s.Participant c off n p k) (hstate : (s.port n p).irqState = true) :
    wireLevel k s.chips = true := wireLevel_of_asserting h.lt h.configured h.irq hstate

theorem State.Participant.readyC1 (h : s.Participant c off n p k) (hquiet : (s.port n p).irqState = false) :
    s.ReadyC1 n p k where
  configured := h.configured
  irq := h.irq
  enabled := h.enabled
  unrestored := by rw [restoredByC1, strobes_of_c2Input h.c2, Bool.false_and]
  quiet := hquiet

/-- The rise of C1 raises the participant's aggregate (41 R131, 42 R141). -/
theorem State.Participant.exec_lineC1 (h : s.Participant c off n p k) (hs : s.noLineRoutes = true)
    (hquiet : (s.port n p).irqState = false) (hlow : (s.port n p).inC1 = false) :
    ∃ t, exec (lineC1Of p c true) s = .next t ∧ LineMove k n p true s t := by
  have harmed : armedEdge (c1LowToHigh (s.port n p).ctl) (s.port n p).inC1 true = true := by rw [h.rise, hlow]; rfl
  have hhigh : wireLevel k (s.setPort n p (raisedC1 true)).chips = true := by
    refine wireLevel_of_asserting (p := p) (by rw [setPort_length]; exact h.lt) ?_ ?_ ?_
    · rw [(chip_setPort_fixed s n n p _).2.2]; exact h.configured
    · rw [pins_setPort]; exact h.irq
    · rw [port_setPort_same s p _ h.lt]; rfl
  refine ⟨_, (exec_lineC1Of h.data.chip true).trans
    (sampleC1_raises (h.readyC1 hquiet) h.lt harmed (lineTarget_routeOf hs _) _ _), ?_⟩
  exact .of_write h.lt (emit_chips _ _) (emit_routes _ _) rfl rfl (by rw [emit_trace, emit_chips, hhigh]; rfl)

/-- The data read clears the participant's aggregate (40 R104, R105, 42 R141). -/
theorem State.Participant.exec_rdData (h : s.Participant c off n p k) (hs : s.noLineRoutes = true)
    (hstate : (s.port n p).irqState = true) :
    ∃ t, exec (rdDataOf p c off) s = .next t ∧ LineMove k n p false s t := by
  have hevents : s.dataReadEvents n p = [⟨k, .level (wireLevel k (s.dataLatched n p).chips)⟩] := by
    rw [State.dataReadEvents, h.irq, hstate, dataReadStrobe_of_c2Input _ h.c2]
    rfl
  obtain ⟨a, d, hlatched⟩ := dataLatched_eq s n p
  have hport := afterDataRead_of_c2Input (p := p) h.c2 (s.latched (s.pins n p).inPort (s.port n p).inp)
  refine ⟨_, readData s c off n p h.data hs,
    .of_write h.lt ?_ ?_ ((congrArg Port.ctl hport).trans rfl) (congrArg Port.irqState hport) ?_⟩
  · exact (emitAll_chips _ _).trans (by rw [hlatched])
  · exact (emitAll_routes _ _).trans (by rw [hlatched]; rfl)
  · show (s.dataRead n p).trace = s.trace ++ [⟨k, .level (wireLevel k (s.dataRead n p).chips)⟩]
    rw [State.dataRead, emitAll_trace, emitAll_chips, hevents, hlatched]
    rfl

end

/-! ### Two participants of one line (42 R144) -/

section
variable {s t1 t2 t3 t4 : State} {k n m : Nat} {p : PortId} (hne : n ≠ m) (h1 : LineMove k n p true s t1)
  (h2 : LineMove k m p true t1 t2) (h3 : LineMove k n p false t2 t3) (h4 : LineMove k m p false t3 t4)
include hne h1 h2 h3 h4

/-- Once both have cleared their aggregates, every aggregate is false again that was false before. -/
theorem wireLevel_after_sequence (hlow : wireLevel k s.chips = false) : wireLevel k t4.chips = false := by
  have hbindings := ((h1.bindings.trans h2.bindings).trans h3.bindings).trans h4.bindings
  rw [wireLevel_eq_false_iff] at hlow ⊢
  intro j p' hconfigured hirq
  by_cases hm : j = m ∧ p' = p
  · obtain ⟨rfl, rfl⟩ := hm
    exact h4.irqState
  · rw [h4.other j p' (not_and_or.1 hm)]
    by_cases hn : j = n ∧ p' = p
    · obtain ⟨rfl, rfl⟩ := hn
      exact h3.irqState
    · rw [h3.other j p' (not_and_or.1 hn), h2.other j p' (not_and_or.1 hm), h1.other j p' (not_and_or.1 hn)]
      rw [(hbindings j).2.2] at hconfigured
      rw [hbindings.pins] at hirq
      exact hlow j p' hconfigured hirq

/-- The line is high after each move but the last: one of the two still asserts it. -/
theorem trace_of_sequence {c d : Int} {offn offm : Nat} (hc : s.Participant c offn n p k) (hd : s.Participant d offm m p k)
    (hlow : wireLevel k s.chips = false) :
    t4.trace = s.trace ++ [⟨k, .level true⟩, ⟨k, .level true⟩, ⟨k, .level true⟩, ⟨k, .level false⟩] := by
  have hhigh1 : wireLevel k t1.chips = true := (hc.move h1).line_high h1.irqState
  have hhigh2 : wireLevel k t2.chips = true := ((hd.move h1).move h2).line_high h2.irqState
  have hhigh3 : wireLevel k t3.chips = true := by
    refine (((hd.move h1).move h2).move h3).line_high ?_
    rw [h3.other m p (.inl hne.symm)]
    exact h2.irqState
  rw [h4.trace, h3.trace, h2.trace, h1.trace, hhigh1, hhigh2, hhigh3, wireLevel_after_sequence hne h1 h2 h3 h4 hlow]
  simp only [List.append_assoc, List.cons_append, List.nil_append]

end

/-- Settles O39: each of the four operations moves one participant's aggregate and drives the line with its level. -/
theorem sharedLineSequence : Obligations.SharedLineSequence := by
  intro s k c d n m offn offm hne hs hlow hchips
  have hparty : ∀ x ∈ [(c, n, offn), (d, m, offm)], s.Participant x.1 x.2.2 x.2.1 .a k ∧
      (s.port x.2.1 .a).irqState = false ∧ (s.port x.2.1 .a).inC1 = false := by
    intro x hx
    obtain ⟨hdata, hconfigured, hirq, henabled, hrise, hc2, hquiet, hsample⟩ := hchips x hx
    exact ⟨⟨hdata, hconfigured, hirq, henabled, hrise, hc2⟩, hquiet, hsample⟩
  obtain ⟨hc, hquietn, hsamplen⟩ := hparty (c, n, offn) (by simp)
  obtain ⟨hd, hquietm, hsamplem⟩ := hparty (d, m, offm) (by simp)
  obtain ⟨t1, hx1, h1⟩ := hc.exec_lineC1 hs hquietn hsamplen
  have hm1 : t1.port m .a = s.port m .a := h1.other m .a (.inl hne.symm)
  have hs1 := h1.noLineRoutes.trans hs
  obtain ⟨t2, hx2, h2⟩ := (hd.move h1).exec_lineC1 hs1 (by rw [hm1, hquietm]) (by rw [hm1, hsamplem])
  have hn2 : t2.port n .a = t1.port n .a := h2.other n .a (.inl hne)
  have hs2 := h2.noLineRoutes.trans hs1
  obtain ⟨t3, hx3, h3⟩ := ((hc.move h1).move h2).exec_rdData hs2 (by rw [hn2, h1.irqState])
  have hm3 : t3.port m .a = t2.port m .a := h3.other m .a (.inl hne.symm)
  have hs3 := h3.noLineRoutes.trans hs2
  obtain ⟨t4, hx4, h4⟩ := (((hd.move h1).move h2).move h3).exec_rdData hs3 (by rw [hm3, h2.irqState])
  exact ⟨t1, t2, t3, t4, hx1, hx2, hx3, hx4, trace_of_sequence hne h1 h2 h3 h4 hc hd hlow⟩

end Sys2Proof.Machine

/-! PROOFS. The scheduler: no timeout is left behind time, how a CPU's wait can change, who may act, and what its operations
answer (43 R153 to R158). -/

namespace Sys2Proof.Machine

/-! ### No pending timeout lies in the past (43 R156) -/

theorem timeoutsAhead_fire {s : State} (id : Int) (hs : s.timeoutsAhead) : (fireTrigger id s).timeoutsAhead := by
  intro e he
  rw [fireTrigger_timeout, mem_mapErase] at he
  rw [(fireTrigger_outside id s).now]
  exact hs e he.1

theorem timeoutsAhead_arm {s : State} (id : Int) (delay : Nat) (hs : s.timeoutsAhead) :
    (armTimeout id delay s).timeoutsAhead := by
  intro e he
  rcases mem_mapSet he with rfl | he
  · exact Nat.le_add_right s.now delay
  · exact hs e he

/-- The property speaks of the time and the timeouts only. -/
theorem timeoutsAhead_congr {s t : State} (hnow : t.now = s.now) (htimeout : t.timeout = s.timeout) (hs : s.timeoutsAhead) :
    t.timeoutsAhead := by
  intro e he
  rw [htimeout] at he
  rw [hnow]
  exact hs e he

theorem timeoutsAhead_setPulse {s : State} (i : Int) (k : Kind) (v : Bool) (hs : s.timeoutsAhead) :
    (setPulse i k v s).timeoutsAhead :=
  timeoutsAhead_congr (setPulse_outside i k v s).now (setPulse_schedKept i k v s).timeout hs

theorem timeoutsAhead_setLevel {s : State} (i : Int) (k : Kind) (v : Bool) (hs : s.timeoutsAhead) :
    (setLevel i k v s).timeoutsAhead :=
  timeoutsAhead_congr (setLevel_outside i k v s).now (setLevel_schedKept i k v s).timeout hs

theorem timeoutsAhead_access : AccessInvariant State.timeoutsAhead where
  setPort := fun _ _ _ _ hs => hs
  plain := fun x hs => by
    cases x with
    | line => exact hs
    | assertLine i k => exact timeoutsAhead_setLevel i k true hs
    | clearLine i k => exact timeoutsAhead_setLevel i k false hs
    | pulse i k => exact timeoutsAhead_setPulse i k true hs
    | fire id => exact timeoutsAhead_fire id hs
    | sched id delay => exact timeoutsAhead_arm id delay hs
  traced := fun _ hs => hs
  outside := fun _ _ _ hs => hs

/-- Time moves by ADV only, and its condition is that no deadline is passed. -/
theorem ExecStep.keeps_timeoutsAhead {s t : State} {i : Instr} (h : ExecStep s i t) (hs : s.timeoutsAhead) :
    t.timeoutsAhead := by
  cases h with
  | access h => exact timeoutsAhead_access.accessStep h hs
  | adv _ hd => exact ((forall_deadlines_iff s _).1 hd).1
  | expire => exact timeoutsAhead_fire _ hs
  | take => exact timeoutsAhead_setPulse _ _ false hs
  | yieldOn | yieldT | wake | configureAbsent | configure | resetAll | unconfigureAll => exact hs

/-- Settles O34: the operations that set a timeout or move time leave every timeout ahead, and the queue is no part of it. -/
theorem timeoutsAheadKept : Obligations.TimeoutsAheadKept := by
  intro s t h hs
  rcases step_eq_next h with rfl | ⟨i, hi⟩
  · exact hs
  · exact hi.keeps_timeoutsAhead hs

/-! ### How a CPU's wait changes (60 R215) -/

/-- Every CPU waits as it did, or waited on a trigger and now runs. -/
def WaitsReleased (s t : State) : Prop :=
  ∀ n, (t.cpu n).wait = (s.cpu n).wait ∨ ∃ id, (s.cpu n).wait = .onTrigger id ∧ (t.cpu n).wait = .running

theorem WaitsReleased.refl (s : State) : WaitsReleased s s := fun _ => .inl rfl

theorem WaitsReleased.trans {s t u : State} (h : WaitsReleased s t) (g : WaitsReleased t u) : WaitsReleased s u := by
  intro n
  rcases g n with hsame | ⟨id, ht, hu⟩
  · rw [hsame]
    exact h n
  · rcases h n with hsame | ⟨_, _, hrun⟩
    · exact .inr ⟨id, hsame ▸ ht, hu⟩
    · rw [hrun] at ht
      cases ht

theorem SchedKept.waitsReleased {s t : State} (h : SchedKept s t) : WaitsReleased s t := fun n => .inl (h.wait n)

/-- `Fire` resumes CPUs of the trigger's waiter set only, and these wait on the trigger (43 R152). -/
theorem fireTrigger_waitsReleased {s : State} (id : Int) (hs : s.waitersMatch) : WaitsReleased s (fireTrigger id s) := by
  intro n
  rw [cpu_fireTrigger]
  split
  · next h => exact .inr ⟨id, ((hs id n).1 h.1).2, rfl⟩
  · exact .inl rfl

theorem plainAction_waitsReleased {s : State} (x : Action) (hs : s.waitersMatch) : WaitsReleased s (plainAction s x) := by
  cases x with
  | line => exact .refl s
  | assertLine i k => exact (setLevel_schedKept i k true s).waitsReleased
  | clearLine i k => exact (setLevel_schedKept i k false s).waitsReleased
  | pulse i k => exact (setPulse_schedKept i k true s).waitsReleased
  | fire id => exact fireTrigger_waitsReleased id hs
  | sched => exact .refl s

/-- The waiter sets go on matching the waits, so that each further routed FIRE releases waiting CPUs only. -/
theorem waitsReleased_access (s : State) : AccessInvariant (fun t => t.waitersMatch ∧ WaitsReleased s t) where
  setPort := fun _ _ _ _ h => h
  plain := fun x h => ⟨waitersMatch_sched.access.plain x h.1, h.2.trans (plainAction_waitsReleased x h.1)⟩
  traced := fun _ h => h
  outside := fun _ _ _ h => h

section
variable {s t : State} {m n : Nat}

theorem WaitsReleased.of_changed (h : WaitsReleased s t) (hne : (t.cpu n).wait ≠ (s.cpu n).wait) :
    ∃ id, (s.cpu n).wait = .onTrigger id ∧ (t.cpu n).wait = .running :=
  (h n).resolve_left hne

/-- An update of one CPU's wait changes the wait of no other. -/
theorem setWait_of_changed {w : Wait} (hne : ((setWait m w s).cpu n).wait ≠ (s.cpu n).wait) :
    n = m ∧ ((setWait m w s).cpu n).wait = w := by
  unfold setWait at hne ⊢
  rw [cpu_setCpu_cases] at hne ⊢
  split at hne
  · next h => exact ⟨h.1, by rw [if_pos h]⟩
  · exact absurd rfl hne

/-- No interrupt resumes a CPU (60 R215). -/
theorem wait_of_assert_or_pulse {i : Instr} {j : Int} {k : Kind} (h : exec i s = .next t)
    (hi : i = .assertLine j k ∨ i = .pulse j k) : (t.cpu n).wait = (s.cpu n).wait := by
  rcases hi with rfl | rfl
  · cases h
    exact (setLevel_schedKept j k true s).wait n
  · cases h
    exact (setPulse_schedKept j k true s).wait n

end

/-- Settles O52: YIELD, YIELDT and WAKE change the wait of the CPU they name, and every other operation can only fire triggers. -/
theorem waitsChange : Obligations.WaitsChange := by
  intro s t i n hs h hne
  have hinterrupt : ∀ j k, i ≠ .assertLine j k ∧ i ≠ .pulse j k := fun j k =>
    ⟨fun hi => hne (wait_of_assert_or_pulse h (.inl hi)), fun hi => hne (wait_of_assert_or_pulse h (.inr hi))⟩
  have hreleased : WaitsReleased s t → ∃ id, (s.cpu n).wait = .onTrigger id ∧ (t.cpu n).wait = .running ∧
      ∀ j k, i ≠ .assertLine j k ∧ i ≠ .pulse j k := fun hr => by
    obtain ⟨id, hold, hnew⟩ := hr.of_changed hne
    exact ⟨id, hold, hnew, hinterrupt⟩
  cases ExecStep.of_exec h with
  | access ha => exact .inr (.inr (.inr (hreleased ((waitsReleased_access s).accessStep ha ⟨hs, .refl s⟩).2)))
  | @yieldOn j id m hm hrun =>
    obtain ⟨rfl, hnew⟩ := setWait_of_changed (s := s) hne
    exact .inl ⟨j, id, rfl, hm, hrun, hnew⟩
  | @yieldT j m time hm hrun =>
    obtain ⟨rfl, hnew⟩ := setWait_of_changed hne
    exact .inr (.inl ⟨j, time, rfl, hm, hrun, hnew⟩)
  | @wake j m time hm hw hnow =>
    obtain ⟨rfl, hnew⟩ := setWait_of_changed hne
    exact .inr (.inr (.inl ⟨j, time, rfl, hm, hw, hnow, hnew⟩))
  | @expire id => exact .inr (.inr (.inr (hreleased (fireTrigger_waitsReleased id hs))))
  | adv => exact absurd (congrArg Cpu.wait (cpu_map_dropPulses s _ n)) hne
  | take => exact absurd ((setPulse_schedKept _ _ false s).wait n) hne
  | configureAbsent | configure | resetAll | unconfigureAll => exact absurd rfl hne

/-! ### Who may act (43 R155) -/

theorem step_of_barred {s : State} {p : Presented} {rest : List Presented} {r : Refusal} (h : s.inbox = p :: rest)
    (hb : s.barred p.agent = some r) : step s = .refused r := by
  simp only [step, h, hb]

section
variable {s : State} {i : Int} {n : Nat}

theorem barred_of_absent (hn : s.cpuIndex i = none) : s.barred (.cpu i) = some .noSuchCpu := by
  simp only [State.barred, hn]

theorem barred_of_suspended (hn : s.cpuIndex i = some n) (hw : (s.cpu n).wait ≠ .running) :
    s.barred (.cpu i) = some .suspendedCpu := by
  simp only [State.barred, hn, if_neg hw]

theorem barred_of_running (hn : s.cpuIndex i = some n) (hw : (s.cpu n).wait = .running) : s.barred (.cpu i) = none := by
  simp only [State.barred, hn, if_pos hw]

end

/-- Settles O5: the step asks who presents the operation before it looks at the bytes. -/
theorem suspendedCpuHasNoStep : Obligations.SuspendedCpuHasNoStep := by
  intro s bytes rest
  refine ⟨fun i hin => ⟨fun hn => ?_, fun n hn hw => ?_⟩, fun i n hn hw => barred_of_running hn hw, rfl, rfl, rfl⟩
  · exact step_of_barred hin (barred_of_absent hn)
  · exact step_of_barred hin (barred_of_suspended hn hw)

/-! ### YIELD and YIELDT (43 R153, R154) -/

section
variable {s : State} {i : Int} {n : Nat} {f : Nat → State → Answer}

theorem whenRunning_of_running (hn : s.cpuIndex i = some n) (hw : (s.cpu n).wait = .running) :
    whenRunning i f s = f n s := by
  simp only [whenRunning, hn, if_pos hw]

theorem whenRunning_of_suspended (hn : s.cpuIndex i = some n) (hw : (s.cpu n).wait ≠ .running) :
    whenRunning i f s = .refused .suspendedCpu := by
  simp only [whenRunning, hn, if_neg hw]

theorem whenRunning_of_absent (hn : s.cpuIndex i = none) : whenRunning i f s = .refused .noSuchCpu := by
  simp only [whenRunning, hn]

end

theorem exec_yieldOn (i id : Int) (s : State) : exec (.yieldOn i id) s = whenRunning i (suspendOn id) s := rfl

theorem exec_yieldT (i : Int) (time : Nat) (s : State) :
    exec (.yieldT i time) s = whenRunning i (fun n s => .next (setWait n (.untilTime time) s)) s := rfl

/-- Settles O48: both are calls that a running CPU makes, and neither asks for more. -/
theorem yieldSuspends : Obligations.YieldSuspends := by
  intro s i id time
  rw [exec_yieldOn, exec_yieldT]
  refine ⟨fun n hn hw => ⟨?_, ?_⟩, fun n hn hw => ?_, fun hn => ?_⟩
  · exact ⟨{ setWait n (.onTrigger id) s with waiters := pairInsert (id, n) s.waiters }, whenRunning_of_running hn hw, rfl,
      fun _ => mem_pairInsert, rfl⟩
  · exact whenRunning_of_running hn hw
  · exact ⟨whenRunning_of_suspended hn hw, whenRunning_of_suspended hn hw⟩
  · exact ⟨whenRunning_of_absent hn, whenRunning_of_absent hn⟩

/-! ### ADV (43 R156) -/

theorem deadline_mem_of_timeout {s : State} {e : Int × Nat} (he : e ∈ s.timeout) : e.2 ∈ s.deadlines :=
  List.mem_append_left _ (List.mem_map_of_mem he)

theorem deadline_mem_of_timed {s : State} {q : Cpu} {time : Nat} (hq : q ∈ s.cpus) (hw : q.wait = .untilTime time) :
    time ∈ s.deadlines :=
  List.mem_append_right _ (List.mem_filterMap.2 ⟨q, hq, deadlineOf_eq_some.2 hw⟩)

/-- Settles O49: the pending deadlines are the timeouts and the timed waits, and ADV asks for nothing else. -/
theorem advanceTime : Obligations.AdvanceTime := by
  intro s dt hpos
  refine ⟨fun htimeout htimed => ?_, fun e he hpast => ?_, fun q hq time hw hpast => ?_⟩
  · exact exec_adv_of_ahead hpos ((forall_deadlines_iff s _).2 ⟨htimeout, htimed⟩)
  · exact exec_adv_of_past hpos (deadline_mem_of_timeout he) hpast
  · exact exec_adv_of_past hpos (deadline_mem_of_timed hq hw) hpast

/-! ### EXPIRE and WAKE (43 R157, R158) -/

theorem exec_expire_of_ahead {s : State} {id : Int} {d : Nat} (hd : mapGet id s.timeout = some d) (hnow : s.now < d) :
    exec (.expire id) s = .refused .expireNotDue := by
  show execExpire id s = _
  simp only [execExpire, hd, if_neg (Nat.not_le_of_lt hnow)]

section
variable {s : State} {i : Int} {n time : Nat}

theorem exec_wake_of_absent (hn : s.cpuIndex i = none) : exec (.wake i) s = .refused .noSuchCpu := by
  show execWake i s = _
  simp only [execWake, hn]

theorem exec_wake_of_untimed (hn : s.cpuIndex i = some n) (hw : deadlineOf (s.cpu n) = none) :
    exec (.wake i) s = .refused .wakeNotDue := by
  show execWake i s = _
  simp only [execWake, hn, hw]

theorem exec_wake_of_due (hn : s.cpuIndex i = some n) (hw : (s.cpu n).wait = .untilTime time) (hnow : time ≤ s.now) :
    exec (.wake i) s = .next (setWait n .running s) := by
  show execWake i s = _
  simp only [execWake, hn, deadlineOf_eq_some.2 hw, if_pos hnow]

theorem exec_wake_of_ahead (hn : s.cpuIndex i = some n) (hw : (s.cpu n).wait = .untilTime time) (hnow : s.now < time) :
    exec (.wake i) s = .refused .wakeNotDue := by
  show execWake i s = _
  simp only [execWake, hn, deadlineOf_eq_some.2 hw, if_neg (Nat.not_le_of_lt hnow)]

end

/-- Settles O50: each of the two has one case that is due; a CPU that runs or waits on a trigger is in no timed wait. -/
theorem expireAndWake : Obligations.ExpireAndWake := by
  intro s id i n
  refine ⟨fun d hd hnow => ?_, fun d hd hnow => exec_expire_of_ahead hd hnow, exec_expire_of_none, fun hn => ⟨?_, ?_, ?_, ?_⟩,
    exec_wake_of_absent⟩
  · exact ⟨fireTrigger id s, exec_expire_of_due hd hnow, rfl, by rw [fireTrigger_timeout, mapGet_mapErase_same]⟩
  · exact fun time hw hnow => exec_wake_of_due hn hw hnow
  · exact fun time hw hnow => exec_wake_of_ahead hn hw hnow
  · exact fun hw => exec_wake_of_untimed hn (by simp only [deadlineOf, hw])
  · exact fun id' hw => exec_wake_of_untimed hn (by simp only [deadlineOf, hw])

end Sys2Proof.Machine

/-! PROOFS. The CPU interrupt adapter (44 R170 to R177): what each of its four operations answers, and what keeps a pulse request
up. -/

namespace Sys2Proof.Machine

/-! ### Its two writes: of a line, of a pulse request -/

/-- A CPU with its level-held line of a kind at `v`. -/
def withLevel (k : Kind) (v : Bool) (q : Cpu) : Cpu :=
  match k with
  | .maskable => { q with lineM := v }
  | .fast => { q with lineF := v }

/-- A CPU with its pulse request of a kind at `v`. -/
def withPulse (k : Kind) (v : Bool) (q : Cpu) : Cpu :=
  match k with
  | .maskable => { q with pulseM := v }
  | .fast => { q with pulseF := v }

theorem withLevel_withLevel (k : Kind) (v : Bool) : withLevel k v ∘ withLevel k v = withLevel k v := by
  cases k <;> rfl

theorem withPulse_withPulse (k : Kind) (v : Bool) : withPulse k v ∘ withPulse k v = withPulse k v := by
  cases k <;> rfl

@[simp] theorem pulseOf_withLevel (k k' : Kind) (v : Bool) (q : Cpu) : pulseOf (withLevel k' v q) k = pulseOf q k := by
  cases k' <;> rfl

theorem pulseOf_withPulse (k k' : Kind) (v : Bool) (q : Cpu) :
    pulseOf (withPulse k' v q) k = if k = k' then v else pulseOf q k := by
  cases k <;> cases k' <;> rfl

section
variable {s : State} {i : Int} {n : Nat} (k : Kind) (v : Bool)

theorem setLevel_of_cpu (hn : s.cpuIndex i = some n) : setLevel i k v s = s.setCpu n (withLevel k v) := by
  simp only [setLevel, hn]
  cases k <;> rfl

theorem setPulse_of_cpu (hn : s.cpuIndex i = some n) : setPulse i k v s = s.setCpu n (withPulse k v) := by
  simp only [setPulse, hn]
  cases k <;> rfl

theorem setLevel_of_absent (hn : s.cpuIndex i = none) : setLevel i k v s = s := by
  simp only [setLevel, hn]

theorem setPulse_of_absent (hn : s.cpuIndex i = none) : setPulse i k v s = s := by
  simp only [setPulse, hn]

end

@[simp] theorem cpuIndex_setCpu (s : State) (n : Nat) (f : Cpu → Cpu) (i : Int) :
    (s.setCpu n f).cpuIndex i = s.cpuIndex i := by
  simp only [State.cpuIndex, setCpu_length]

theorem setCpu_setCpu (s : State) (n : Nat) (f g : Cpu → Cpu) : (s.setCpu n f).setCpu n g = s.setCpu n (g ∘ f) := by
  simp only [State.setCpu, List.modify_modify_eq]

/-- A line written twice with one value is written once (44 R176). -/
theorem setLevel_idem (i : Int) (k : Kind) (v : Bool) (s : State) : setLevel i k v (setLevel i k v s) = setLevel i k v s := by
  cases hn : s.cpuIndex i with
  | none => rw [setLevel_of_absent k v hn, setLevel_of_absent k v hn]
  | some n =>
    rw [setLevel_of_cpu k v hn, setLevel_of_cpu k v ((cpuIndex_setCpu s n _ i).trans hn), setCpu_setCpu, withLevel_withLevel]

/-- A request written twice with one value is written once (44 R176). -/
theorem setPulse_idem (i : Int) (k : Kind) (v : Bool) (s : State) : setPulse i k v (setPulse i k v s) = setPulse i k v s := by
  cases hn : s.cpuIndex i with
  | none => rw [setPulse_of_absent k v hn, setPulse_of_absent k v hn]
  | some n =>
    rw [setPulse_of_cpu k v hn, setPulse_of_cpu k v ((cpuIndex_setCpu s n _ i).trans hn), setCpu_setCpu, withPulse_withPulse]

/-! ### A pulse request under each update of a CPU (44 R174) -/

theorem pulseOf_setCpu {k : Kind} {f : Cpu → Cpu} (hf : ∀ q, pulseOf (f q) k = pulseOf q k) (m n : Nat) (s : State) :
    pulseOf ((s.setCpu m f).cpu n) k = pulseOf (s.cpu n) k := by
  rw [cpu_setCpu_cases]
  split
  · exact hf _
  · rfl

@[simp] theorem pulseOf_setWait (m n : Nat) (w : Wait) (k : Kind) (s : State) :
    pulseOf ((setWait m w s).cpu n) k = pulseOf (s.cpu n) k :=
  pulseOf_setCpu (fun _ => by cases k <;> rfl) m n s

@[simp] theorem pulseOf_fireTrigger (id : Int) (n : Nat) (k : Kind) (s : State) :
    pulseOf ((fireTrigger id s).cpu n) k = pulseOf (s.cpu n) k := by
  rw [cpu_fireTrigger]
  split
  · cases k <;> rfl
  · rfl

@[simp] theorem pulseOf_setLevel (i : Int) (n : Nat) (k k' : Kind) (v : Bool) (s : State) :
    pulseOf ((setLevel i k' v s).cpu n) k = pulseOf (s.cpu n) k := by
  cases hn : s.cpuIndex i with
  | none => rw [setLevel_of_absent k' v hn]
  | some m => rw [setLevel_of_cpu k' v hn, pulseOf_setCpu (pulseOf_withLevel k k' v)]

/-- The one write of a pulse request reaches the request it names, and no other. -/
theorem pulseOf_setPulse (i : Int) (n : Nat) (k k' : Kind) (v : Bool) (s : State) :
    pulseOf ((setPulse i k' v s).cpu n) k = if s.cpuIndex i = some n ∧ k = k' then v else pulseOf (s.cpu n) k := by
  cases hm : s.cpuIndex i with
  | none => rw [setPulse_of_absent k' v hm, if_neg (by simp)]
  | some m =>
    rw [setPulse_of_cpu k' v hm, cpu_setCpu s m n _ (indexIn_lt hm)]
    by_cases h : n = m
    · simp only [h, pulseOf_withPulse, if_true, true_and]
    · rw [if_neg h, if_neg fun e => h (Option.some.inj e.1).symm]

/-! ### What takes a pulse request down (44 R174, R175) -/

section
variable {s t : State} {i : Instr} {n : Nat} {k : Kind}

/-- Of the operations that can be routed only PULSE writes a request, and it raises it. -/
theorem pulseUp_plainAction (x : Action) (h : pulseOf (s.cpu n) k = true) : pulseOf ((plainAction s x).cpu n) k = true := by
  cases x with
  | line | sched => exact h
  | assertLine j k' | clearLine j k' => exact (pulseOf_setLevel j n k k' _ s).trans h
  | pulse j k' =>
    rw [plainAction, pulseOf_setPulse, h]
    exact ite_self _
  | fire id => exact (pulseOf_fireTrigger id n k s).trans h

theorem pulseUp_access (n : Nat) (k : Kind) : AccessInvariant (fun s => pulseOf (s.cpu n) k = true) where
  setPort := fun _ _ _ _ h => h
  plain := pulseUp_plainAction
  traced := fun _ h => h
  outside := fun _ _ _ h => h

/-- A request that is up goes down by its own TAKE or by an ADV only. -/
theorem ExecStep.pulseUp (h : ExecStep s i t) (hup : pulseOf (s.cpu n) k = true) :
    pulseOf (t.cpu n) k = true ∨ (∃ j, i = .take j k ∧ s.cpuIndex j = some n) ∨ (∃ dt, i = .adv dt) := by
  cases h with
  | access h => exact .inl ((pulseUp_access n k).accessStep h hup)
  | yieldOn | yieldT | wake => exact .inl ((pulseOf_setWait _ n _ k s).trans hup)
  | adv => exact .inr (.inr ⟨_, rfl⟩)
  | expire => exact .inl ((pulseOf_fireTrigger _ n k s).trans hup)
  | @take j k' =>
    by_cases hown : s.cpuIndex j = some n ∧ k = k'
    · obtain ⟨hj, rfl⟩ := hown
      exact .inr (.inl ⟨j, rfl, hj⟩)
    · rw [pulseOf_setPulse, if_neg hown]
      exact .inl hup
  | configureAbsent | configure | resetAll | unconfigureAll => exact .inl hup

end

/-- Settles O57, from the cases of `exec`: only TAKE and ADV ever write a request to false. -/
theorem pulseLifetime : Obligations.PulseLifetime := fun _ _ _ _ _ h hup => (ExecStep.of_exec h).pulseUp hup

/-! ### ASSERT, PULSE and CLEAR (44 R171 to R173) -/

theorem exec_assertLine (i : Int) (k : Kind) (s : State) : exec (.assertLine i k) s = .next (setLevel i k true s) := rfl
theorem exec_clearLine (i : Int) (k : Kind) (s : State) : exec (.clearLine i k) s = .next (setLevel i k false s) := rfl
theorem exec_pulse (i : Int) (k : Kind) (s : State) : exec (.pulse i k) s = .next (setPulse i k true s) := rfl

/-- Settles O53: each of the two is its write of the CPU. -/
theorem assertAndPulse : Obligations.AssertAndPulse := by
  intro s i n hn
  simp only [exec_assertLine, exec_pulse, setLevel_of_cpu _ _ hn, setPulse_of_cpu _ _ hn]
  exact ⟨rfl, rfl, rfl, rfl⟩

/-- Settles O55: each of the three writes one value to one place. -/
theorem adapterIdempotent : Obligations.AdapterIdempotent := by
  intro s t i k op hop h
  simp only [List.mem_cons, List.not_mem_nil, or_false] at hop
  rcases hop with rfl | rfl | rfl
  · cases h; exact congrArg Host.Outcome.next (setLevel_idem i k true s)
  · cases h; exact congrArg Host.Outcome.next (setLevel_idem i k false s)
  · cases h; exact congrArg Host.Outcome.next (setPulse_idem i k true s)

/-! ### TAKE (44 R175) -/

section
variable {s : State} {i : Int} {n : Nat} {k : Kind}

theorem exec_take_of_absent (hn : s.cpuIndex i = none) : exec (.take i k) s = .next s := by
  show execTake i k s = _
  simp only [execTake, hn]

theorem exec_take_of_suspended (hn : s.cpuIndex i = some n) (hw : (s.cpu n).wait ≠ .running) :
    exec (.take i k) s = .refused .suspendedCpu := by
  show execTake i k s = _
  simp only [execTake, hn, if_pos hw]

theorem exec_take_of_pending (hn : s.cpuIndex i = some n) (hw : (s.cpu n).wait = .running)
    (hk : pulseOf (s.cpu n) k = true) : exec (.take i k) s = .next (s.setCpu n (withPulse k false)) := by
  show execTake i k s = _
  simp only [execTake, hn, if_neg (not_not.2 hw), if_pos hk, setPulse_of_cpu k false hn]

theorem exec_take_of_none (hn : s.cpuIndex i = some n) (hw : (s.cpu n).wait = .running)
    (hk : pulseOf (s.cpu n) k = false) : exec (.take i k) s = .refused .noPulse := by
  show execTake i k s = _
  simp only [execTake, hn, if_neg (not_not.2 hw), hk, Bool.false_eq_true, if_false]

end

/-- Settles O54: CLEAR is its write of the CPU; TAKE asks for a running CPU, then for a request. -/
theorem clearAndTake : Obligations.ClearAndTake := by
  intro s i n hn
  refine ⟨?_, ?_, fun hrun => ⟨?_, ?_, ?_, ?_⟩, fun hw k => exec_take_of_suspended hn hw⟩
  · rw [exec_clearLine, setLevel_of_cpu _ _ hn]; rfl
  · rw [exec_clearLine, setLevel_of_cpu _ _ hn]; rfl
  · exact exec_take_of_pending (k := .maskable) hn hrun
  · exact exec_take_of_pending (k := .fast) hn hrun
  · exact exec_take_of_none (k := .maskable) hn hrun
  · exact exec_take_of_none (k := .fast) hn hrun

/-! ### No CPU (44 R177) -/

/-- Settles O56: the two writes find no CPU, and TAKE looks for one first. -/
theorem outOfRangeCpu : Obligations.OutOfRangeCpu := by
  intro s i k hi op hop
  have hn : s.cpuIndex i = none := indexIn_eq_none hi
  simp only [List.mem_cons, List.not_mem_nil, or_false] at hop
  rcases hop with rfl | rfl | rfl | rfl
  · rw [exec_assertLine, setLevel_of_absent k true hn]
  · rw [exec_clearLine, setLevel_of_absent k false hn]
  · rw [exec_pulse, setPulse_of_absent k true hn]
  · exact exec_take_of_absent hn

end Sys2Proof.Machine

/-! PROOFS. The two whole-machine lifecycle operations (45 R182, R183): what each leaves of one slot, and with it the next
state. -/

namespace Sys2Proof.Machine

/-- UNCONFIGURE_ALL leaves nothing of what a slot held: it is the slot of power-on again (45 R183, 10 R47; D9). -/
theorem unconfigureChip_eq_unconfigured (ch : Chip) : unconfigureChip ch = Chip.unconfigured := rfl

theorem exec_resetAll (s : State) :
    exec .resetAll s = .next { s with chips := s.chips.map fun ch => { ch with a := Port.zero, b := Port.zero } } := rfl

theorem exec_unconfigureAll (s : State) :
    exec .unconfigureAll s = .next { s with chips := s.chips.map fun _ => Chip.unconfigured } := by
  show execUnconfigureAll s = _
  simp only [execUnconfigureAll, funext unconfigureChip_eq_unconfigured]

/-- Settles O59: RESET_ALL writes both ports of every slot, UNCONFIGURE_ALL the whole slot; the values written out in the
statement are the zero port and the blank slot. -/
theorem resetAndUnconfigure : Obligations.ResetAndUnconfigure := by
  rintro s _ rfl
  exact ⟨exec_resetAll s, exec_unconfigureAll s⟩

end Sys2Proof.Machine

/-! PROOFS. Signal routing (46 R192, R193): a delivery to a chip in progress is refused, the number of chips bounds the nesting, and
under a wiring without a cycle every access and every line sample completes. -/

namespace Sys2Proof.Machine

/-! ### Re-entry (46 R193) -/

section
variable {s t : State} {c : Int} {n k : Nat} {busy : List Nat} {l : Line} {v : Bool} {before after : List Action}

theorem deliverLine_of_busy (hc : s.chipIndex c = some n) (hn : n ∈ busy) (fuel : Nat) (l : Line) (v : Bool) :
    deliverLine fuel busy c l v s = .refused .reentrantRoute := by
  cases fuel with
  | zero => simp only [deliverLine, hc]
  | succ fuel => simp only [deliverLine, hc, List.contains_eq_mem, hn, decide_true, if_true]

/-- The actions after the sample that is refused do not matter. -/
theorem performActions_reentrant (hn : n ∈ busy) (fuel : Nat)
    (hbefore : performActions (deliverLine fuel busy) before s = .next t) (hc : t.chipIndex c = some n) :
    performActions (deliverLine fuel busy) (before ++ .line c l v :: after) s = .refused .reentrantRoute := by
  induction before generalizing s with
  | nil =>
    cases hbefore
    rw [List.nil_append, performActions, performAction, deliverLine_of_busy hc hn, andThen_refused]
  | cons x before ih =>
    obtain ⟨u, hu, hrest⟩ := andThen_eq_next.1 hbefore
    rw [List.cons_append, performActions, hu, andThen_next, ih hrest]

theorem driveWith_reentrant {w : SinkValue} (hroute : routeOf k w s.routes = before ++ .line c l v :: after) (hn : n ∈ busy)
    (fuel : Nat) (hbefore : performActions (deliverLine fuel busy) before (s.traced ⟨k, w⟩) = .next t)
    (hc : t.chipIndex c = some n) : driveWith (deliverLine fuel busy) (some k) w s = .refused .reentrantRoute := by
  rw [driveWith_some, hroute, performActions_reentrant hn fuel hbefore hc]

/-- A drive of chip `n` whose route comes back to chip `n`, after actions on the adapter and the scheduler. -/
theorem driveFrom_reentrant {w : SinkValue} (hroute : routeOf k w s.routes = before ++ .line c l v :: after)
    (hc : s.chipIndex c = some n) (hbefore : ∀ x ∈ before, lineTarget s.chips.length x = none) (s0 : State) :
    driveFrom n s0 (some k) w s = .refused .reentrantRoute := by
  have hplain : performActions (deliverLine s0.chips.length [n]) before (s.traced ⟨k, w⟩) = _ :=
    performActions_plain (deliverLine_none _ _) hbefore
  refine driveWith_reentrant hroute (List.mem_singleton_self n) _ hplain ?_
  rw [State.chipIndex, (foldl_plainAction_outside before _).chips]
  exact hc

end

/-- Settles O40: the delivery looks at the chips in progress first, a drive performs its actions in order, and the byte of a data
write is driven with its own chip in progress. -/
theorem routeBackRefused : Obligations.RouteBackRefused := by
  refine ⟨fun fuel busy s c n l v hc hn => deliverLine_of_busy hc hn fuel l v,
    fun fuel busy s t k w before after c n l v hroute hn hbefore hc => driveWith_reentrant hroute hn fuel hbefore hc,
    fun s c back off n k p data l v before after h hddr hbound hback hroute hplain => ?_⟩
  have hdriven : writeOut n p data s = .refused .reentrantRoute := by
    simp only [writeOut, driveOutput, port_setPort_same s p _ (indexIn_lt h.chip), if_neg hddr, pins_setPort, hbound]
    exact driveFrom_reentrant (s := s.setPort n p fun q => { q with out := data }) hroute
      ((chipIndex_setPort ..).trans hback) (by simpa using hplain) _
  rw [exec_wrDataOf h]
  cases p with
  | a => exact hdriven
  | b => exact congrArg (andThen · (strobeIfArmed n .b)) hdriven

/-! ### The number of chips bounds the nesting (46 R193) -/

/-- Two drivers that answer alike on every state of `len` chips. -/
def SameDrives (len : Nat) (d e : Driver) : Prop := ∀ b v s, s.chips.length = len → d b v s = e b v s

/-- Two deliveries that answer alike on every state of `len` chips. -/
def SameSamples (len : Nat) (f g : LineSampler) : Prop := ∀ c l v s, s.chips.length = len → f c l v s = g c l v s

section
variable {len n : Nat} {d e : Driver} {s : State} (h : SameDrives len d e) (hs : s.chips.length = len)
include h hs

theorem SameDrives.updateIrq (p : PortId) : updateIrq d n p s = updateIrq e n p s := by
  unfold Machine.updateIrq
  simp only
  split
  · rfl
  · split
    · rfl
    · exact h _ _ _ (by simpa using hs)

theorem SameDrives.moveC2 (p : PortId) (v : Bool) : moveC2 d n p v s = moveC2 e n p v s := by
  rw [Machine.moveC2, Machine.moveC2, h _ _ _ hs]

theorem SameDrives.sampleC1 (hd : CascadeDriver [n] d) (p : PortId) (v : Bool) : sampleC1 d n p v s = sampleC1 e n p v s := by
  unfold Machine.sampleC1
  simp only
  congr 1
  split
  · rw [← h.updateIrq (by simpa using hs)]
    refine andThen_congr fun u hu => ?_
    rw [h.moveC2 (by simpa [(updateIrq_cascade hd hu).chips_length] using hs)]
  · rfl

theorem SameDrives.sampleC2 (p : PortId) (v : Bool) : sampleC2 d n p v s = sampleC2 e n p v s := by
  unfold Machine.sampleC2
  simp only
  rw [h.updateIrq (by simpa using hs)]

theorem SameDrives.setLine (hd : CascadeDriver [n] d) (l : Line) (v : Bool) : setLine d n l v s = setLine e n l v s := by
  rw [Machine.setLine, Machine.setLine, h.sampleC1 hs hd, h.sampleC2 hs]

end

section
variable {len : Nat} {f g : LineSampler}

theorem SameSamples.performActions {busy : List Nat} (h : SameSamples len f g)
    (hf : ∀ c l v s t, f c l v s = .next t → Cascade busy s t) (as : List Action) {s : State} (hs : s.chips.length = len) :
    performActions f as s = performActions g as s := by
  induction as generalizing s with
  | nil => rfl
  | cons x as ih =>
    have hx : performAction f x s = performAction g x s := by
      cases x with
      | line c l v => exact h c l v s hs
      | assertLine | clearLine | pulse | fire | sched => rfl
    rw [Machine.performActions, Machine.performActions, ← hx]
    exact andThen_congr fun t ht => ih ((performAction_cascade hf ht).chips_length.trans hs)

theorem SameSamples.drives {busy : List Nat} (h : SameSamples len f g)
    (hf : ∀ c l v s t, f c l v s = .next t → Cascade busy s t) : SameDrives len (driveWith f) (driveWith g) := by
  intro b v s hs
  cases b with
  | none => rfl
  | some k => exact h.performActions hf _ hs

end

/-- While some chip is not in progress, a sufficient allowance is not used up. -/
theorem allowance_pos {len fuel m : Nat} {busy : List Nat} (hnd : busy.Nodup) (hlt : ∀ n ∈ busy, n < len)
    (hfuel : len ≤ busy.length + fuel) (hm : m < len) (hfree : m ∉ busy) : ∃ rest, fuel = rest + 1 := by
  refine Nat.exists_eq_succ_of_ne_zero fun hzero => hfree (mem_of_nodup_full hnd hlt ?_ hm)
  omega

/-- A sample of a chip that does not exist, or is in progress, does not look at the allowance. -/
theorem deliverLine_congr_of_free {fuel fuel' : Nat} {busy : List Nat} {c : Int} {l : Line} {v : Bool} {s : State}
    (h : ∀ m, s.chipIndex c = some m → m ∉ busy → deliverLine fuel busy c l v s = deliverLine fuel' busy c l v s) :
    deliverLine fuel busy c l v s = deliverLine fuel' busy c l v s := by
  cases hc : s.chipIndex c with
  | none => rw [deliverLine_none _ _ c l v s hc, deliverLine_none _ _ c l v s hc]
  | some m =>
    by_cases hbusy : m ∈ busy
    · rw [deliverLine_of_busy hc hbusy, deliverLine_of_busy hc hbusy]
    · exact h m hc hbusy

/-- An allowance of one nesting level for each chip not in progress is as good as any larger one: each level puts one more chip
in progress. -/
theorem deliverLine_allowance {len fuel fuel' : Nat} {busy : List Nat} (hnd : busy.Nodup) (hlt : ∀ n ∈ busy, n < len)
    (hfuel : len ≤ busy.length + fuel) (hfuel' : len ≤ busy.length + fuel') :
    SameSamples len (deliverLine fuel busy) (deliverLine fuel' busy) := by
  induction fuel generalizing fuel' busy with
  | zero =>
    intro c l v s hs
    exact deliverLine_congr_of_free fun m hc hfree => absurd (mem_of_nodup_full hnd hlt hfuel (hs ▸ indexIn_lt hc)) hfree
  | succ fuel ih =>
    intro c l v s hs
    refine deliverLine_congr_of_free fun m hc hfree => ?_
    have hm : m < len := hs ▸ indexIn_lt hc
    obtain ⟨rest, rfl⟩ := allowance_pos hnd hlt hfuel' hm hfree
    have hinner : SameSamples len (deliverLine fuel (m :: busy)) (deliverLine rest (m :: busy)) :=
      ih (List.nodup_cons.2 ⟨hfree, hnd⟩) (by simpa [hm] using hlt) (by simp; omega) (by simp; omega)
    have hcascade : CascadeDriver [m] (driveWith (deliverLine fuel (m :: busy))) := fun b v s t h =>
      (driveWith_cascade (deliverLine_cascade fuel (m :: busy)) b v s t h).mono (by simp)
    rw [deliverLine_of_free hc hfree, deliverLine_of_free hc hfree]
    exact (hinner.drives (deliverLine_cascade fuel (m :: busy))).setLine hs hcascade l v

/-- Settles O41: with no chip in progress, and with one, the model's own allowance is already enough. -/
theorem nestingBounded : Obligations.NestingBounded := by
  refine ⟨fun fuel s c l v hfuel => ?_, fun fuel n s b v hn hfuel => ?_⟩
  · exact deliverLine_allowance (busy := []) List.nodup_nil nofun (by simp; omega) (by simp) c l v s rfl
  · have hsame : SameSamples s.chips.length (deliverLine fuel [n]) (deliverLine s.chips.length [n]) :=
      deliverLine_allowance (List.nodup_singleton n) (by simpa using hn) (by simp; omega) (by simp)
    exact hsame.drives (deliverLine_cascade fuel [n]) b v s rfl

/-! ### Wirings without a cycle: drives and line samples complete (46 R193) -/

/-- All drives of chip `n` complete, in every state of `len` chips and such a wiring. -/
def DrivesComplete (rank : Nat → Nat) (len n : Nat) : Prop :=
  ∀ (s : State) (es : List Event), s.upwardWiring rank = true → s.chips.length = len → EventsOf s n es →
    ∃ t, performDrives es s = .next t

theorem eventsOf_restoreEvents (s : State) (n : Nat) (p : PortId) (v : Bool) (q : Port) :
    EventsOf s n (restoreEvents v (s.pins n p).outC2 q) :=
  eventsOf_ite _ (eventsOf_eventOn (boundBy_outC2 s n p) _) (eventsOf_nil s n)

section
variable {rank : Nat → Nat} {len n : Nat} {s : State} (hu : s.upwardWiring rank = true) (hs : s.chips.length = len)
include hu hs

/-- Drives that come after a write of the chip's port. -/
theorem DrivesComplete.setPort (h : DrivesComplete rank len n) (p : PortId) (f : Port → Port) {es : List Event}
    (hk : EventsOf s n es) : ∃ t, performDrives es (s.setPort n p f) = .next t :=
  h _ es (upwardWiring_setPort n p f hu) (by simpa using hs) (hk.congr (chip_setPort_fixed s n n p f).1)

/-- A line sample is its write of the port and its drives. -/
theorem DrivesComplete.setLine (h : DrivesComplete rank len n) (hn : n < len) (l : Line) (v : Bool) :
    ∃ t, setLine (driveFrom n s) n l v s = .next t := by
  have hirq := fun p => eventsOf_irqEvent (boundBy_irq s n p)
  unfold Machine.setLine
  split
  · rw [sampleC1_routed hu (hs ▸ hn)]
    exact h.setPort hu hs _ _ ((hirq _ _ _ _).append (eventsOf_restoreEvents s n _ v _))
  · rw [sampleC2_routed hu (hs ▸ hn)]
    exact h.setPort hu hs _ _ (hirq _ _ _ _)

theorem presentLine_completes {c : Int} (h : ∀ m, s.chipIndex c = some m → DrivesComplete rank len m) (l : Line) (v : Bool) :
    ∃ t, presentLine c l v s = .next t := by
  cases hc : s.chipIndex c with
  | none => exact ⟨s, deliverLine_none _ _ c l v s hc⟩
  | some m =>
    rw [presentLine_of_chip hc]
    exact (h m hc).setLine hu hs (hs ▸ indexIn_lt hc) l v

theorem performActions_completes {as : List Action}
    (h : ∀ x ∈ as, ∀ m, lineTarget len x = some m → DrivesComplete rank len m) :
    ∃ t, performActions presentLine as s = .next t := by
  induction as generalizing s with
  | nil => exact ⟨s, rfl⟩
  | cons x as ih =>
    have hx : ∃ u, performAction presentLine x s = .next u := by
      cases x with
      | line c l v =>
        refine presentLine_completes hu hs (fun m hm => h _ (List.mem_cons_self ..) m ?_) l v
        rw [← hs]; exact hm
      | assertLine | clearLine | pulse | fire | sched => exact ⟨_, rfl⟩
    obtain ⟨u, hxu⟩ := hx
    have hcascade := performAction_cascade (fun c l v s t => presentLine_cascade) hxu
    rw [performActions, hxu, andThen_next]
    exact ih (hcascade.upwardWiring hu) (hcascade.chips_length.trans hs) fun y hy => h y (List.mem_cons_of_mem x hy)

end

/-- The drives of a chip lead to chips of a higher rank only. -/
theorem drivesComplete_of_higher {rank : Nat → Nat} {len n : Nat} (hn : n < len)
    (h : ∀ m < len, rank n < rank m → DrivesComplete rank len m) : DrivesComplete rank len n := by
  intro s es hu hs hk
  induction es generalizing s with
  | nil => exact ⟨s, rfl⟩
  | cons e es ih =>
    have hroute : ∀ x ∈ routeOf e.sink e.value s.routes, ∀ m, lineTarget len x = some m → DrivesComplete rank len m := by
      intro x hx m hm
      cases x with
      | line c l v =>
        have hc : s.chipIndex c = some m := by rw [State.chipIndex, hs]; exact hm
        exact h m (indexIn_lt hm) (routed_rank_lt hu (hs ▸ hn) (hk e (List.mem_cons_self ..)) hx hc)
      | assertLine | clearLine | pulse | fire | sched => cases hm
    obtain ⟨u, hperform⟩ := performActions_completes (s := s.traced e) hu hs hroute
    have hcascade := performActions_cascade (fun c l v s t => presentLine_cascade) hperform
    have hdrive : execAll ((routeOf e.sink e.value s.routes).map Action.op) (s.traced e) = .next u :=
      (execAll_ops _ _).trans hperform
    obtain ⟨t, ht⟩ := ih u (hcascade.upwardWiring hu) (hcascade.chips_length.trans hs)
      (EventsOf.congr (s := s) (fun e' he => hk e' (List.mem_cons_of_mem e he)) (hcascade.fixed n).1)
    exact ⟨t, (congrArg (andThen · (performDrives es)) hdrive).trans ht⟩

/-- By induction on how far the chip's rank is below the highest. -/
theorem drivesComplete (rank : Nat → Nat) {len n : Nat} (hn : n < len) : DrivesComplete rank len n := by
  induction hgap : (Finset.range len).sup rank - rank n using Nat.strong_induction_on generalizing n with
  | _ gap ih =>
    refine drivesComplete_of_higher hn fun m hm hrank => ih _ ?_ hm rfl
    have htop : rank m ≤ (Finset.range len).sup rank := Finset.le_sup (Finset.mem_range.2 hm)
    omega

/-! ### The register operations complete -/

theorem eventsOf_strobedEvents (s : State) (n : Nat) (p : PortId) (q : Port) :
    EventsOf s n (strobedEvents (s.pins n p).outC2 q) :=
  eventsOf_ite _
    ((eventsOf_ite _ (eventsOf_eventOn (boundBy_outC2 s n p) _) (eventsOf_nil s n)).append
      (eventsOf_ite _ (eventsOf_eventOn (boundBy_outC2 s n p) _) (eventsOf_nil s n)))
    (eventsOf_nil s n)

theorem eventsOf_outputEvents (s : State) (n : Nat) (p : PortId) (q : Port) :
    EventsOf s n (outputEvents (s.pins n p).outPort q) :=
  eventsOf_ite _ (eventsOf_nil s n) (eventsOf_eventOn (boundBy_outPort s n p) _)

theorem eventsOf_dataReadEvents (s : State) (n : Nat) (p : PortId) : EventsOf s n (s.dataReadEvents n p) := by
  refine (eventsOf_irqEvent (boundBy_irq s n p) _ _ _).append ?_
  cases p with
  | a => exact eventsOf_strobedEvents s n .a _
  | b => exact eventsOf_nil s n

theorem eventsOf_dataWriteEvents (s : State) (n : Nat) (p : PortId) (d : Byte) : EventsOf s n (s.dataWriteEvents n p d) := by
  refine (eventsOf_outputEvents s n p _).append ?_
  cases p with
  | a => exact eventsOf_nil s n
  | b => exact eventsOf_strobedEvents s n .b _

theorem eventsOf_ctlWriteEvents (s : State) (n : Nat) (p : PortId) (d : Byte) (q : Port) :
    EventsOf s n (ctlWriteEvents d (s.pins n p).outC2 q) :=
  eventsOf_ite _ (eventsOf_eventOn (boundBy_outC2 s n p) _) (eventsOf_nil s n)

theorem upwardWiring_afterSampleOf {rank : Nat → Nat} {s : State} (hu : s.upwardWiring rank = true) (b : Option Nat) :
    (s.afterSampleOf b).upwardWiring rank = true := by
  obtain ⟨a, d, h⟩ := afterSampleOf_eq s b
  rw [h]
  exact hu

section
variable {rank : Nat → Nat} {n : Nat} {s : State} (hu : s.upwardWiring rank = true) (hn : n < s.chips.length)
include hu hn

theorem performDrives_completes {es : List Event} (hk : EventsOf s n es) : ∃ t, performDrives es s = .next t :=
  drivesComplete rank hn s es hu rfl hk

theorem performDrives_setPort_completes (p : PortId) (f : Port → Port) {es : List Event} (hk : EventsOf s n es) :
    ∃ t, performDrives es (s.setPort n p f) = .next t :=
  (drivesComplete rank hn).setPort hu rfl p f hk

theorem sampleBound_completes (l : Line) (b : Option Nat) : ∃ t, sampleBound n l b s = .next t := by
  cases b with
  | none => exact ⟨s, rfl⟩
  | some k =>
    rw [sampleBound_some]
    exact (drivesComplete rank hn).setLine (upwardWiring_afterSampleOf hu (some k)) (by simp) hn l _

/-- The two samples, one after the other. -/
theorem regReadCtl_completes (p : PortId) : ∃ r, regRead (ctlReadOf p) n s = .next r := by
  obtain ⟨s1, h1⟩ := sampleBound_completes hu hn (c1Line p) (s.pins n p).inC1
  have hparams := (parametersKept_access s).sampleBound h1 (.refl s)
  have hbindings := (bindingsKept_access s).sampleBound h1 (.of_chips rfl)
  have hu1 := upwardWiring_congr (fun m => (hbindings m).1) hparams.chips_length hparams.routes hu
  obtain ⟨s2, h2⟩ := sampleBound_completes hu1 (hparams.chips_length ▸ hn) (c2Line p) (s1.pins n p).inC2
  exact ⟨_, by rw [regReadCtl_eq, h1, andThen_next, h2, andThen_next]⟩

theorem regReadData_completes (p : PortId) : ∃ r, regRead (dataReadOf p) n s = .next r := by
  have hk := eventsOf_dataReadEvents s n p
  obtain ⟨t, ht⟩ := performDrives_setPort_completes (upwardWiring_afterSampleOf hu (s.pins n p).inPort) (by simpa using hn) p
    (afterDataRead p (s.latched (s.pins n p).inPort (s.port n p).inp))
    (hk.congr (by simp only [State.chip, afterSampleOf_chips]))
  exact ⟨_, by rw [regReadData_routed hu hn, State.dataLatched, ht, andThen_next]⟩

theorem regRead_completes (op : ReadOp) : ∃ r, regRead op n s = .next r := by
  obtain ⟨p, rfl | rfl | rfl⟩ := readOp_cases op
  · exact ⟨_, regReadDdr_eq n p s⟩
  · exact regReadData_completes hu hn p
  · exact regReadCtl_completes hu hn p

theorem regWriteDdr_completes (p : PortId) (d : Byte) : ∃ t, regWrite (ddrWriteOf p) n d s = .next t := by
  by_cases hd : d = (s.port n p).ddr
  · refine ⟨s, ?_⟩
    cases p <;> exact if_pos hd
  · rw [regWriteDdr_routed hu hn d hd]
    exact performDrives_setPort_completes hu hn p _ (eventsOf_outputEvents s n p _)

/-- The drives of C2, then, after the store, the aggregate's. -/
theorem regWriteCtl_completes (p : PortId) (d : Byte) : ∃ t, regWrite (ctlWriteOf p) n d s = .next t := by
  have hk := eventsOf_ctlWriteEvents s n p d (s.port n p)
  obtain ⟨u, hmove⟩ := performDrives_completes hu hn hk
  have hcascade := performDrives_cascade hu hn hk hmove
  rw [regWriteCtl_routed hu hn, hmove, andThen_next]
  exact performDrives_setPort_completes (hcascade.upwardWiring hu) (hcascade.chips_length ▸ hn) p _
    (eventsOf_irqEvent (boundBy_irq u n p) _ _ _)

theorem regWrite_completes (op : WriteOp) (d : Byte) : ∃ t, regWrite op n d s = .next t := by
  obtain ⟨p, rfl | rfl | rfl⟩ := writeOp_cases op
  · exact regWriteDdr_completes hu hn p d
  · rw [regWriteData_routed hu hn]
    exact performDrives_setPort_completes hu hn p _ (eventsOf_dataWriteEvents s n p d)
  · exact regWriteCtl_completes hu hn p d

end

/-! ### Every access and every line sample completes -/

section
variable {s : State} {i : Instr} {c : Int} {off : Nat}

theorem exec_of_readAccess_absent (ha : readAccess i = some (c, off)) (hc : s.chipIndex c = none) : ∃ t, exec i s = .next t := by
  rcases mem_of_readAccess ha with ⟨hmem, _⟩ | ⟨hmem, _⟩
  · obtain ⟨op, hexec⟩ := exec_of_mem_byteReads hmem
    exact ⟨_, (hexec s).trans (busRead_absent op _ hc)⟩
  · obtain ⟨lane, hexec⟩ := exec_of_mem_wordReads hmem
    exact ⟨_, (hexec s).trans (busRead16_absent lane _ hc)⟩

theorem exec_of_writeAccess_absent (ha : writeAccess i = some (c, off)) (hc : s.chipIndex c = none) : exec i s = .next s := by
  rcases mem_of_writeAccess (s := s) ha with ⟨d, hmem, _⟩ | ⟨w, hmem, _⟩
  · obtain ⟨op, hexec⟩ := exec_of_mem_byteWrites hmem
    exact (hexec s).trans (busWrite_absent op _ d hc)
  · obtain ⟨lane, hexec⟩ := exec_of_mem_wordWrites hmem
    exact (hexec s).trans (busWrite16_absent lane _ w hc)

/-- A word write of the right width that the lane rule drops (20 R66). -/
theorem exec_of_dropped {n : Nat} (ha : writeAccess i = some (c, off)) (hw : s.widthFits i) (hc : s.chipIndex c = some n)
    (hd : s.byteWritten n i = none) : exec i s = .next s := by
  rcases mem_of_writeAccess (s := s) ha with ⟨d, _, hbrings, _⟩ | ⟨w, hmem, hbrings, hword⟩
  · cases hd.symm.trans (hbrings n)
  · have hb : (s.chip n).addressing.bus ≠ .b8 := fun e => by
      rw [(hw c off n (.inr ha) hc).1 e] at hword
      cases hword
    exact exec_of_lane_none hmem hc hb ((hbrings n).symm.trans hd)

theorem op_line_of_isLineSample (h : isLineSample i = true) : ∃ c l v, i = Action.op (.line c l v) := by
  cases i with
  | lineCa1 c v => exact ⟨c, .ca1, v, rfl⟩
  | lineCa2 c v => exact ⟨c, .ca2, v, rfl⟩
  | lineCb1 c v => exact ⟨c, .cb1, v, rfl⟩
  | lineCb2 c v => exact ⟨c, .cb2, v, rfl⟩
  | _ => cases h

variable {rank : Nat → Nat} (hu : s.upwardWiring rank = true) (hw : s.widthFits i)
include hu

include hw in
theorem readAccess_completes (ha : readAccess i = some (c, off)) : ∃ t, exec i s = .next t := by
  cases hc : s.chipIndex c with
  | none => exact exec_of_readAccess_absent ha hc
  | some n =>
    obtain ⟨r, hr⟩ := regRead_completes hu (indexIn_lt hc) (s.readKeyAt n off)
    exact ⟨_, by rw [exec_of_reads ⟨c, off, ha, hc, rfl⟩ hw, hr, andThen_next]⟩

include hw in
theorem writeAccess_completes (ha : writeAccess i = some (c, off)) : ∃ t, exec i s = .next t := by
  cases hc : s.chipIndex c with
  | none => exact ⟨s, exec_of_writeAccess_absent ha hc⟩
  | some n =>
    cases hd : s.byteWritten n i with
    | none => exact ⟨s, exec_of_dropped ha hw hc hd⟩
    | some d =>
      rw [exec_of_writes ⟨c, off, ha, hc, rfl⟩ hw hd]
      exact regWrite_completes hu (indexIn_lt hc) _ d

theorem lineSample_completes (h : isLineSample i = true) : ∃ t, exec i s = .next t := by
  obtain ⟨c, l, v, rfl⟩ := op_line_of_isLineSample h
  rw [exec_op_line]
  exact presentLine_completes hu rfl (fun m hm => drivesComplete rank (indexIn_lt hm)) l v

end

/-- Settles O42: an access is at most the register operation that its key names, and its drives, like a line sample's, climb in
rank until they end. -/
theorem upwardWiringCompletes : Obligations.UpwardWiringCompletes := by
  intro rank s i hu hw hi
  rcases hi with hread | hwrite | hline
  · obtain ⟨⟨c, off⟩, ha⟩ := Option.ne_none_iff_exists'.1 hread
    exact readAccess_completes hu hw ha
  · obtain ⟨⟨c, off⟩, ha⟩ := Option.ne_none_iff_exists'.1 hwrite
    exact writeAccess_completes hu hw ha
  · exact lineSample_completes hu hline

end Sys2Proof.Machine
